-- ==== Sys2Proof/Word.lean ====
section
/-! DEFINITION. The words HUFF's registers and tables are made of (R8, R9 of 00_scope.md). -/

namespace Sys2Proof

/-- A register or bus word, 32 bits; bit 0 is the least significant (R8, R23). -/
abbrev Word := BitVec 32

/-- A symbol, a byte value 0 to 255 (R6, R12). -/
abbrev Byte := BitVec 8

/-- A code, a bit sequence with its first bit at the head; `true` is `1` (R9). `[]` is the empty code. -/
abbrev Code := List Bool

/-- One slot for each of the 256 symbols (FREQ of R42, CODE of R45). -/
abbrev SymTable (α : Type) := Vector α 256

end Sys2Proof
end

