-- ==== Sys2Proof/Syntax.lean ====
section
/-! DEFINITION. The commands of HUFF, one constructor per row of spec/opcode_table.json (R91, 30_encoding.md). -/

namespace Sys2Proof

/-- A command. It has no operand fields: every operand is a register or a table of the machine (R90, R93). -/
inductive Instr where
  /-- NOP, OP 0x00 (R120). -/
  | nop
  /-- CLEAR, OP 0x01 (R121). -/
  | clear
  /-- COUNT, OP 0x02 (R130). -/
  | count
  /-- BUILD, OP 0x03 (R132). -/
  | build
  /-- DERIVE, OP 0x04 (R150). -/
  | derive
  /-- MATERIALIZE, OP 0x05 (R153). -/
  | materialize
  /-- SERIALIZE, OP 0x06 (R190). -/
  | serialize
  /-- ENCODE, OP 0x07 (R192). -/
  | encode
  /-- CANON, OP 0x08 (R170). -/
  | canon
  /-- DECODE, OP 0x09 (R193). -/
  | decode
  deriving DecidableEq, Repr

/-- Every command, in the order of R91. -/
def Instr.all : List Instr :=
  [.nop, .clear, .count, .build, .derive, .materialize, .serialize, .encode, .canon, .decode]

end Sys2Proof
end

