-- ==== Sys2Proof/Decode.lean ====
section
/-! DEFINITION. Decoding the command word (R90 to R92, 30_encoding.md), and the encoder after it. -/

namespace Sys2Proof

/-- What a command word decodes to: a command, or a rejection by the name R92 gives it. -/
inductive Decoded where
  /-- One of the ten rows of R91. -/
  | command (i : Instr)
  /-- Every other word: ILLEGAL_CMD (R92). -/
  | illegalCmd (w : Word)
  deriving DecidableEq, Repr

/-- A row of the opcode table: `w` selects the row when `w` masked is the row's match value (R91). -/
structure OpRow where
  /-- The mnemonic as the table spells it. -/
  mnemonic : String
  /-- The bits the row fixes. -/
  mask : Word
  /-- What those bits are. -/
  value : Word
  /-- The command the row stands for. -/
  instr : Instr
  deriving DecidableEq, Repr

/-- Each row's mask is 0xFFFFFFFF: OP in [7:0], MBZ in [31:8] (R90, R91). -/
def commandRow (mnemonic : String) (op : Byte) (i : Instr) : OpRow :=
  { mnemonic := mnemonic, mask := 0xFFFFFFFF#32, value := op.setWidth 32, instr := i }

/-- The opcode map of R91. -/
def opcodeTable : List OpRow :=
  [ commandRow "NOP" 0x00#8 .nop,
    commandRow "CLEAR" 0x01#8 .clear,
    commandRow "COUNT" 0x02#8 .count,
    commandRow "BUILD" 0x03#8 .build,
    commandRow "DERIVE" 0x04#8 .derive,
    commandRow "MATERIALIZE" 0x05#8 .materialize,
    commandRow "SERIALIZE" 0x06#8 .serialize,
    commandRow "ENCODE" 0x07#8 .encode,
    commandRow "CANON" 0x08#8 .canon,
    commandRow "DECODE" 0x09#8 .decode ]

/-- Whether word `w` selects the row. -/
def OpRow.selects (r : OpRow) (w : Word) : Bool := (w &&& r.mask) == r.value

/-- The command word decodes totally: the ten rows of R91, and ILLEGAL_CMD for every other word (R92). -/
def decode (w : Word) : Decoded :=
  match opcodeTable.find? (fun r => r.selects w) with
  | some r => .command r.instr
  | none => .illegalCmd w

/-- The command of a decoded word, if it is one. -/
def Decoded.instr? : Decoded → Option Instr
  | .command i => some i
  | .illegalCmd _ => none

/-- The decoder on a word numbered as spec/opcode_table.json numbers it. A command is one 32-bit bus value (R100), which
has no byte order; a word that does not fit its own bit count, or a row wider than 32 bits, is no command (log 16). -/
def decodeTableWord (nbits w : Nat) : Option Instr :=
  if nbits ≤ 32 ∧ w < 2 ^ nbits then (decode (BitVec.ofNat 32 w)).instr? else none

/-- The opcode OP of a command (R91). -/
def opcode : Instr → Byte
  | .nop => 0x00#8
  | .clear => 0x01#8
  | .count => 0x02#8
  | .build => 0x03#8
  | .derive => 0x04#8
  | .materialize => 0x05#8
  | .serialize => 0x06#8
  | .encode => 0x07#8
  | .canon => 0x08#8
  | .decode => 0x09#8

/-- The command word of a command: format CMDW, MBZ above OP (R90). -/
def encode (i : Instr) : Word := (0#24 ++ opcode i : BitVec 32)

end Sys2Proof
end

