-- ==== Sys2Proof/Config.lean ====
section
/-! DEFINITION. What an implementation of HUFF fixes (the parameters of R6, 00_scope.md) and the free values:
opaque constants, of which nothing can be proved, for the values R55 and R70 leave unspecified. -/

namespace Sys2Proof

/-- The parameters a model takes as arguments (R6, R7). They stand in State and no step writes them (log 4). -/
structure Params where
  /-- P_SRC_BYTES, the capacity of SRC. -/
  srcBytes : Nat
  /-- P_DST_BYTES, the capacity of DST. -/
  dstBytes : Nat
  /-- P_BITBUF_BITS, the capacity of BITBUF in bits. -/
  bitbufBits : Nat
  /-- P_BASE, the host address of offset 0 (OPEN in R6). -/
  base : Nat
  deriving DecidableEq, Repr

/-- The default capacities of R6. The base 0 is a DESIGN CHOICE (log 4): R6 leaves P_BASE open. -/
def Config.defaultParams : Params :=
  { srcBytes := 65536, dstBytes := 65536, bitbufBits := 16777216, base := 0 }

/-- P_CANON_LMAX, fixed at 31 (R6). -/
def Config.canonLmax : Nat := 31

/-- The size of the host window in bytes, 2^25 (R60). -/
def Config.windowBytes : Nat := 0x2000000

/-- The constant ID register, "HUF1" (R24). -/
def Config.idWord : Word := 0x48554631#32

/-- FREE VALUE (U2, log 1): what the never-written byte SRC[i] reads as, at tick `t`. -/
opaque Config.freeSrcByte : (t : Nat) → (i : Nat) → Byte

/-- FREE VALUE (U2, log 1): what the never-written byte DST[i] reads as, at tick `t`. -/
opaque Config.freeDstByte : (t : Nat) → (i : Nat) → Byte

/-- FREE VALUE (U2, log 1): what the never-written bit BITBUF[i] reads as, at tick `t`. -/
opaque Config.freeBit : (t : Nat) → (i : Nat) → Bool

/-- FREE VALUE (U2, log 1): what the never-written entry CANON[i] reads as, at tick `t`. -/
opaque Config.freeCanonWord : (t : Nat) → (i : Nat) → Word

/-- FREE VALUE (U1, U3, log 3, log 18, log 19): what a host read of an unspecified word at offset `off` returns, at tick `t`. -/
opaque Config.freeWord : (t : Nat) → (off : Nat) → Word

end Sys2Proof
end

