-- ==== Sys2Proof/Machine/State.lean ====
section
/-! DEFINITION. Everything the spec gives HUFF to hold (10_state.md), as plain data, and its value after reset (R54). -/

namespace Sys2Proof.Machine

/-- The CTRL register's two named bits; the others read 0 and ignore writes (R25). -/
structure Ctrl where
  /-- Bit [0]. -/
  irqEn : Bool
  /-- Bit [1]. -/
  singleOnebit : Bool
  deriving DecidableEq, Repr

/-- The result codes of R220. No other code is ever produced (U14). -/
inductive ResultCode where
  /-- 0x00, success. -/
  | ok
  /-- 0x01, success: DECODE dropped a tail (R194). -/
  | okTruncated
  /-- 0x10: an illegal command word (R92). -/
  | illegalCmd
  /-- 0x11: SRC_LEN, BIT_LEN or CANON_N exceeds its capacity. -/
  | lenRange
  /-- 0x12: CANON, an entry of length 0. -/
  | canonZeroLen
  /-- 0x13: CANON, an entry of length above 31. -/
  | canonLenTooLong
  /-- 0x14: CANON, a symbol repeated. -/
  | canonDupSymbol
  /-- 0x15: CANON, the running code does not fit (R173). -/
  | canonOversub
  /-- 0x16: MATERIALIZE, two codes collide (R154). -/
  | collision
  /-- 0x17: SERIALIZE, a byte without a code. -/
  | encNoCode
  /-- 0x18: SERIALIZE, a code would pass P_BITBUF_BITS. -/
  | bitbufOvf
  /-- 0x19: DECODE, a bit leads to no code. -/
  | decInvalid
  /-- 0x1A: DECODE, a symbol would pass P_DST_BYTES. -/
  | dstOvf
  deriving DecidableEq, Repr

/-- An entry of the construction-tree arena NODE (R44). -/
inductive Node where
  /-- `Leaf(sym, prio)`. -/
  | leaf (sym : Byte) (prio : Word)
  /-- `Internal(left, right, prio)`: NODE indices of the 0-child and the 1-child. -/
  | internal (left right : Nat) (prio : Word)
  deriving DecidableEq, Repr

/-- A descriptor of the decode tree (R46). KIND 3 is never produced (R99) and has no constructor. -/
inductive Desc where
  /-- No code continues this way. -/
  | absent
  /-- A further branch, a DT index. -/
  | branch (i : Nat)
  /-- A terminal holding symbol `s`. -/
  | leaf (s : Byte)
  deriving DecidableEq, Repr

/-- An entry of the decode-tree arena DT: child0 is followed on bit 0, child1 on bit 1 (R46). -/
structure Branch where
  /-- Followed on bit 0. -/
  child0 : Desc
  /-- Followed on bit 1. -/
  child1 : Desc
  deriving DecidableEq, Repr

/-- The command engine's phase (R51). While BUSY it holds the accepted word and the CTRL sampled at acceptance. `delay` is the
MODEL's own: how many inputs are taken before the command completes (log 8). -/
inductive Engine where
  /-- IDLE. -/
  | idle
  /-- BUSY. -/
  | busy (word : Word) (ctrl : Ctrl) (delay : Nat)
  deriving DecidableEq, Repr

/-- The four memories (R47 to R50). Each is a list of cells with strictly rising indices; a cell that is not listed was never
written since reset and has no value (R55, log 1). -/
structure Memory where
  /-- SRC, bytes (R47). -/
  src : List Host.Cell
  /-- DST, bytes (R48). -/
  dst : List Host.Cell
  /-- BITBUF, bits (R49). -/
  bitbuf : List (Nat × Bool)
  /-- CANON, 32-bit entries (R50). -/
  canon : List (Nat × Word)
  deriving DecidableEq, Repr

/-- The width of a host access. The window supports 32-bit accesses only (R62), and no access is wider (R67). -/
inductive Width where
  /-- 8 bits. -/
  | byte
  /-- 16 bits. -/
  | half
  /-- 32 bits. -/
  | word
  deriving DecidableEq, Repr

/-- A host access, at a host address (R60, R102). -/
inductive Access where
  /-- A read. -/
  | read (width : Width) (addr : Nat)
  /-- A write of `v`; a narrow write's data is never used (R62). -/
  | write (width : Width) (addr : Nat) (v : Word)
  deriving DecidableEq, Repr

/-- What reaches HUFF from outside: a host access, or a move of the reset line (R20, R250, log 13). -/
inductive Input where
  /-- A host access. -/
  | access (a : Access)
  /-- The platform asserts (`true`) or releases (`false`) reset. -/
  | reset (asserted : Bool)
  deriving DecidableEq, Repr

/-- The state of HUFF (10_state.md), and below the line `inputs` four fields that are the MODEL's own. -/
structure State where
  /-- The parameters of R6; no step writes them. -/
  params : Params
  /-- CTRL (R25). -/
  ctrl : Ctrl
  /-- STATUS.DONE (R27). -/
  done : Bool
  /-- STATUS.OVR (R27). -/
  ovr : Bool
  /-- STATUS.ACCERR (R27). -/
  accerr : Bool
  /-- STATUS.RESULT (R27). -/
  result : ResultCode
  /-- SRC_LEN (R28). -/
  srcLen : Word
  /-- BIT_LEN (R29). -/
  bitLen : Word
  /-- BIT_CURSOR (R30). -/
  bitCursor : Word
  /-- CANON_N (R31). -/
  canonN : Word
  /-- DST_LEN (R32). -/
  dstLen : Word
  /-- NUM_SYMS (R33). -/
  numSyms : BitVec 9
  /-- NODE_COUNT (R34). -/
  nodeCount : BitVec 10
  /-- TREE_ROOT (R35): `none` when VALID = 0, else the INDEX. -/
  treeRoot : Option (BitVec 9)
  /-- CODE_COUNT (R36). -/
  codeCount : BitVec 9
  /-- DT_ROOT (R37). -/
  dtRoot : Desc
  /-- DT_NODES (R38). -/
  dtNodes : BitVec 17
  /-- DEC_BITPOS (R39). -/
  decBitpos : Word
  /-- ERR_INFO (R40). -/
  errInfo : Word
  /-- FREQ (R42). -/
  freq : SymTable Word
  /-- LIST (R43): the entries written since reset, from LIST[0]; those at or beyond NUM_SYMS are not valid. -/
  list : List Byte
  /-- NODE (R44): the entries written since reset, from NODE[0]; those at or beyond NODE_COUNT are not valid. -/
  node : List Node
  /-- CODE (R45): `none` is absent, `some []` is the empty code (R11). -/
  code : SymTable (Option Code)
  /-- DT (R46): the entries written since reset, from DT[0]; those at or beyond DT_NODES are not valid. -/
  dt : List Branch
  /-- SRC, DST, BITBUF and CANON (R47 to R50). -/
  mem : Memory
  /-- The engine's phase (R51); STATUS.BUSY mirrors it. -/
  engine : Engine
  /-- The reset line (R250). -/
  resetLine : Bool
  /-- MODEL: the host accesses and reset moves to come, in the order of R71 (log 9). -/
  inputs : List Input
  /-- MODEL: the delays of the words to be accepted, in inputs taken (U5, log 8); none left means 0. -/
  delays : List Nat
  /-- MODEL: what the last host access returned on the bus: `none` after a write (log 10). -/
  response : Option Word
  /-- MODEL: the counter that free values are taken at (log 2). -/
  tick : Nat
  deriving DecidableEq, Repr

/-- Why the machine stops with a fault. No command does: a fault of R220 is a next state with a result code. -/
inductive Fault where
  /-- Raised by `takeInput` for an access whose host address is at no offset of the window (R60, log 6). Safe: the model stops
  where the access would reach another device. -/
  | outsideWindow (addr : Nat)
  deriving DecidableEq, Repr

/-- Why a step is refused. -/
inductive Refusal where
  /-- Raised by an arm of `exec` for a command without a meaning. Safe. No arm is left that does. -/
  | notModelled (mnemonic : String)
  /-- Raised by `takeInput` for a host access while reset is asserted: P_RESET_ACCESS is OPEN and U9 lets a model refuse it
  (R250, log 5). Safe. -/
  | accessDuringReset
  deriving DecidableEq, Repr

/-- Nothing written since reset (R54). -/
def Memory.empty : Memory := { src := [], dst := [], bitbuf := [], canon := [] }

/-- The machine right after reset: the table of R54, the default parameters of R6, nothing pending. -/
def State.reset : State :=
  { params := Config.defaultParams
    ctrl := { irqEn := false, singleOnebit := false }
    done := false
    ovr := false
    accerr := false
    result := .ok
    srcLen := 0#32
    bitLen := 0#32
    bitCursor := 0#32
    canonN := 0#32
    dstLen := 0#32
    numSyms := 0#9
    nodeCount := 0#10
    treeRoot := none
    codeCount := 0#9
    dtRoot := .absent
    dtNodes := 0#17
    decBitpos := 0#32
    errInfo := 0#32
    freq := Vector.replicate 256 0#32
    list := []
    node := []
    code := Vector.replicate 256 none
    dt := []
    mem := Memory.empty
    engine := .idle
    resetLine := false
    inputs := []
    delays := []
    response := none
    tick := 0 }

end Sys2Proof.Machine
end

