-- ==== Sys2Proof/Machine/Ops.lean ====
section
/-! DEFINITION. The named operations over memories, tables and the engine. Taking an exception is `raise` and the step that ends
every command is `finish` (R10, R221); the return from one is `acknowledge` (R226). -/

namespace Sys2Proof.Machine

/-! ## Cells: memories as sparse lists with strictly rising indices -/

/-- The value of cell `a`, or none if nothing was written there since reset (R55). -/
def cellRead {α : Type} : List (Nat × α) → Nat → Option α
  | [], _ => none
  | (k, x) :: m, a => if a = k then some x else cellRead m a

/-- Write `v` to cell `a`, keeping the indices strictly rising. -/
def cellWrite {α : Type} : List (Nat × α) → Nat → α → List (Nat × α)
  | [], a, v => [(a, v)]
  | (k, x) :: m, a, v =>
    if a < k then (a, v) :: (k, x) :: m
    else if a = k then (a, v) :: m
    else (k, x) :: cellWrite m a v

/-- Write the values of a list to the cells from `a` upward. -/
def cellsWrite {α : Type} : List (Nat × α) → Nat → List α → List (Nat × α)
  | m, _, [] => m
  | m, a, v :: vs => cellsWrite (cellWrite m a v) (a + 1) vs

/-- The canonical form of a memory: indices strictly rising. An unlisted cell has no value, so no entry can equal it. -/
abbrev cellsWf {α : Type} (m : List (Nat × α)) : Prop := (m.map Prod.fst).Pairwise (· < ·)

/-- The four memories are in canonical form. -/
abbrev Memory.wf (m : Memory) : Prop :=
  cellsWf m.src ∧ cellsWf m.dst ∧ cellsWf m.bitbuf ∧ cellsWf m.canon

/-- What SRC[i] reads as: its value, or a free one if it was never written (R55, U2, log 1). -/
def State.srcByte (s : State) (i : Nat) : Byte :=
  (cellRead s.mem.src i).getD (Config.freeSrcByte s.tick i)

/-- What DST[i] reads as (R55, U2, log 1). -/
def State.dstByte (s : State) (i : Nat) : Byte :=
  (cellRead s.mem.dst i).getD (Config.freeDstByte s.tick i)

/-- What BITBUF[i] reads as (R55, U2, log 1). -/
def State.bit (s : State) (i : Nat) : Bool :=
  (cellRead s.mem.bitbuf i).getD (Config.freeBit s.tick i)

/-- What CANON[i] reads as (R55, U2, log 1). -/
def State.canonEntry (s : State) (i : Nat) : Word :=
  (cellRead s.mem.canon i).getD (Config.freeCanonWord s.tick i)

/-! ## Tables -/

/-- The slot of symbol `s`. -/
def SymTable.get {α : Type} (t : SymTable α) (s : Byte) : α := t[s.toNat]'s.isLt

/-- The table with `x` in the slot of symbol `s`. -/
def SymTable.set {α : Type} (t : SymTable α) (s : Byte) (x : α) : SymTable α := Vector.set t s.toNat x s.isLt

/-- The table that holds `f s` for each symbol `s`. -/
def SymTable.tabulate {α : Type} (f : Byte → α) : SymTable α := Vector.ofFn fun i => f (BitVec.ofNat 8 i.val)

/-- The symbols 0 to 255 in ascending order. -/
def symbols : List Byte := (List.range 256).map (BitVec.ofNat 8)

/-- A code table with every entry absent (R45). -/
def noCodes : SymTable (Option Code) := Vector.replicate 256 none

/-- The number of present entries of a code table (R36). -/
def presentCount (c : SymTable (Option Code)) : Nat := symbols.countP fun s => (SymTable.get c s).isSome

/-- Write the entries `new` from index 0 and leave those above as they were. -/
def overlay {α : Type} (new old : List α) : List α := new ++ old.drop new.length

/-! ## The engine: acceptance, completion, exceptions -/

/-- STATUS.BUSY, the engine's phase (R27, R51). -/
def State.busy (s : State) : Bool :=
  match s.engine with
  | .idle => false
  | .busy _ _ _ => true

/-- The CTRL value a command uses: the one sampled when it was accepted (R25, R51). In an IDLE state, where no command runs, it
is the live one, which acceptance would sample (log 12). -/
def State.sampledCtrl (s : State) : Ctrl :=
  match s.engine with
  | .idle => s.ctrl
  | .busy _ c _ => c

/-- How many inputs are taken before the accepted word completes: the next of the model's `delays` for a command (U5, log 8),
none for an illegal word, which finishes at once (R92, R221). -/
def State.latency (s : State) (w : Word) : Nat :=
  match decode w with
  | .command _ => s.delays.headD 0
  | .illegalCmd _ => 0

/-- Accepting a CMD write of `w` while IDLE, in one step: CTRL is sampled, the engine is BUSY with `w`, ERR_INFO becomes 0
(R26, R40, R221). DONE is not cleared (R226). Each acceptance uses up one of the model's `delays` (log 8). -/
def accept (w : Word) (s : State) : State :=
  { s with
    engine := .busy w s.ctrl (s.latency w)
    delays := s.delays.tail
    errInfo := 0#32 }

/-- The completion step (R221): RESULT, DONE, BUSY and the engine's phase, all at once; OVR and ACCERR and ERR_INFO stay. The
tick moves on, so that no later read meets this command's free values (log 2). -/
def finish (code : ResultCode) (s : State) : State :=
  { s with
    result := code
    done := true
    engine := .idle
    tick := s.tick + 1 }

/-- Taking an exception, `raise E(info)`: ERR_INFO gets the detail and the command finishes with the fault's code (R10, R222).
HUFF saves no processor state and goes to no handler (R226). -/
def raise (code : ResultCode) (info : Word) (s : State) : State :=
  finish code { s with errInfo := info }

/-- A write of `v` to STATUS: 1 clears DONE [1], OVR [2], ACCERR [3]; 0 leaves the bit; every other bit is ignored (R27). With
0x0000000E it is the host's return from a completion or a fault (R226). -/
def acknowledge (v : Word) (s : State) : State :=
  { s with
    done := s.done && !v.getLsbD 1
    ovr := s.ovr && !v.getLsbD 2
    accerr := s.accerr && !v.getLsbD 3 }

/-- How the body of a command's pseudocode ends, before its completion step. -/
inductive Ended where
  /-- At `finish(code)`. -/
  | finished (code : ResultCode) (s : State)
  /-- At `raise code(info)`. -/
  | raised (code : ResultCode) (info : Word) (s : State)

/-- The completion step of a body. -/
def Ended.complete : Ended → State
  | .finished code s => finish code s
  | .raised code info s => raise code info s

/-- Go on with the next body unless this one met a fault: the sequence of ENCODE's steps (R192). -/
def Ended.andThen : Ended → (State → Ended) → Ended
  | .finished _ s, next => next s
  | .raised code info s, _ => .raised code info s

/-- An illegal command word `w` finishes at once: ILLEGAL_CMD, ERR_INFO = `w`, nothing else changes (R92). -/
def illegalCommand (w : Word) (s : State) : State := raise .illegalCmd w s

/-- The reset event, in one step: a running command ends without completion, every piece of state takes its value of R54, and
IRQ is low (R250). What the spec does not give the machine stays: the parameters, the inputs and delays to come. The tick moves
on, so a cell that becomes unspecified reads as a fresh free value (log 2). -/
def resetEvent (s : State) : State :=
  { State.reset with
    params := s.params
    inputs := s.inputs
    delays := s.delays
    tick := s.tick + 1
    resetLine := true }

end Sys2Proof.Machine
end

