-- ==== Sys2Proof/Machine/Flags.lean ====
section
/-! DEFINITION. The status flags and their word forms: STATUS (R27, R53), CTRL (R25), the result codes (R220), the IRQ (R225). -/

namespace Sys2Proof.Machine

/-- A flag in bit `i` of a word. -/
def bitAt (i : Nat) (b : Bool) : Word := if b then BitVec.ofNat 32 (2 ^ i) else 0#32

/-- The word CTRL reads as: [0] IRQ_EN, [1] SINGLE_ONEBIT, the rest 0 (R25). -/
def Ctrl.toWord (c : Ctrl) : Word := bitAt 0 c.irqEn ||| bitAt 1 c.singleOnebit

/-- What CTRL stores of a written word: bits [1:0] (R25, R64). -/
def Ctrl.ofWord (v : Word) : Ctrl := { irqEn := v.getLsbD 0, singleOnebit := v.getLsbD 1 }

/-- The numeric code of a result (R220). -/
def ResultCode.toByte : ResultCode → Byte
  | .ok => 0x00#8
  | .okTruncated => 0x01#8
  | .illegalCmd => 0x10#8
  | .lenRange => 0x11#8
  | .canonZeroLen => 0x12#8
  | .canonLenTooLong => 0x13#8
  | .canonDupSymbol => 0x14#8
  | .canonOversub => 0x15#8
  | .collision => 0x16#8
  | .encNoCode => 0x17#8
  | .bitbufOvf => 0x18#8
  | .decInvalid => 0x19#8
  | .dstOvf => 0x1A#8

/-- A fault is a result code at or above 0x10 (R12, R220). -/
def ResultCode.isFault (r : ResultCode) : Bool := decide (0x10 ≤ r.toByte.toNat)

/-- The word STATUS reads as: [0] BUSY, [1] DONE, [2] OVR, [3] ACCERR, [15:8] RESULT, the rest 0 (R27). -/
def State.statusWord (s : State) : Word :=
  bitAt 0 s.busy ||| bitAt 1 s.done ||| bitAt 2 s.ovr ||| bitAt 3 s.accerr |||
    (s.result.toByte.setWidth 32 <<< 8)

/-- The interrupt output, a level: DONE and the live IRQ_EN (R225). -/
def State.irq (s : State) : Bool := s.done && s.ctrl.irqEn

end Sys2Proof.Machine
end

