-- ==== Sys2Proof/Machine/Operands.lean ====
section
/-! DEFINITION. The operand forms: what a command reads (R93, R94) and the word formats of the table entries (R95 to R99),
with the byte and bit order of the windows (R65 to R67). -/

namespace Sys2Proof.Machine

/-! ## What commands read -/

/-- SRC[0..SRC_LEN-1], the input of COUNT, SERIALIZE and ENCODE (R47). A never-written byte has one value for the whole
command (U2). -/
def State.source (s : State) : List Byte := (List.range s.srcLen.toNat).map s.srcByte

/-- BITBUF[0..BIT_LEN-1] in buffer order, the input of DECODE (R49, R196). -/
def State.stream (s : State) : List Bool := (List.range s.bitLen.toNat).map s.bit

/-- CANON[0..CANON_N-1], the input of CANON (R50). -/
def State.canonInput (s : State) : List Word := (List.range s.canonN.toNat).map s.canonEntry

/-- LIST[0..NUM_SYMS-1], the valid entries of LIST (R43). -/
def State.listed (s : State) : List Byte := s.list.take s.numSyms.toNat

/-- NODE[0..NODE_COUNT-1], the valid entries of NODE (R44). -/
def State.arena (s : State) : List Node := s.node.take s.nodeCount.toNat

/-- SYM of a CANON entry, bits [7:0] (R94, R95). -/
def canonSym (e : Word) : Byte := e.extractLsb' 0 8

/-- LEN of a CANON entry, bits [15:8], zero-extended; bits [31:16] are ignored (R94, R95). -/
def canonLen (e : Word) : Nat := (e.extractLsb' 8 8).toNat

/-- The child a bit selects (R46). -/
def Branch.child (b : Branch) (bit : Bool) : Desc := if bit then b.child1 else b.child0

/-- The branch with the child of one bit replaced. -/
def Branch.setChild (b : Branch) (bit : Bool) (d : Desc) : Branch :=
  if bit then { b with child1 := d } else { b with child0 := d }

/-- A branch with no child, `(ABSENT, ABSENT)`. -/
def emptyBranch : Branch := { child0 := .absent, child1 := .absent }

/-- The entry `i` of a decode-tree arena. Every index a command follows is in range (R55); outside it the entry is empty, which
no run reaches (log 11). -/
def branchAt (t : List Branch) (i : Nat) : Branch := (t[i]?).getD emptyBranch

/-! ## Entry formats -/

/-- A CANON entry from its two fields (R95). -/
def canonWord (sym len : Byte) : Word := sym.setWidth 32 ||| (len.setWidth 32 <<< 8)

/-- A LIST entry, the symbol zero-extended (R96). -/
def listWord (s : Byte) : Word := s.setWidth 32

/-- Word 0 of a NODE entry (R97). -/
def Node.word0 : Node → Word
  | .leaf sym _ => sym.setWidth 32
  | .internal left right _ =>
    0x80000000#32 ||| (BitVec.ofNat 9 left).setWidth 32 ||| ((BitVec.ofNat 9 right).setWidth 32 <<< 16)

/-- The priority of a node, word 1 of a NODE entry (R97). -/
def Node.prio : Node → Word
  | .leaf _ p => p
  | .internal _ _ p => p

/-- The code read as a binary number, its first bit most significant: VALUE of R98. -/
def codeValue (c : Code) : Nat := c.foldl (fun v b => 2 * v + b.toNat) 0

/-- The code of length `len` whose value is `v`, most significant bit first: `bits(v, L)` of R170. -/
def bitsOf (v len : Nat) : Code := (List.range len).map fun j => v.testBit (len - 1 - j)

/-- Word `k` of a CODE entry: PRESENT and LEN in word 0, VALUE in words 1 to 8 with the least significant first, 0 above
(R67, R98). -/
def codeWord (c : Option Code) (k : Nat) : Word :=
  match c with
  | none => 0#32
  | some c =>
    if k = 0 then 0x80000000#32 ||| (BitVec.ofNat 8 c.length).setWidth 32
    else if k ≤ 8 then BitVec.ofNat 32 (codeValue c >>> (32 * (k - 1)))
    else 0#32

/-- A descriptor as a word: KIND [17:16], VALUE [15:0] (R99). -/
def Desc.toWord : Desc → Word
  | .absent => 0#32
  | .branch i => 0x00010000#32 ||| (BitVec.ofNat 16 i).setWidth 32
  | .leaf s => 0x00020000#32 ||| s.setWidth 32

/-- TREE_ROOT as a word: VALID [31], INDEX [8:0]; 0 when there is no tree (R35). -/
def treeRootWord : Option (BitVec 9) → Word
  | none => 0#32
  | some i => 0x80000000#32 ||| i.setWidth 32

/-! ## Byte and bit lanes -/

/-- Four bytes as a little-endian word (R65). -/
def wordOfBytes (b0 b1 b2 b3 : Byte) : Word := b3 ++ b2 ++ b1 ++ b0

/-- The four bytes of a word, the low lane first (R65). -/
def bytesOfWord (v : Word) : List Byte :=
  [v.extractLsb' 0 8, v.extractLsb' 8 8, v.extractLsb' 16 8, v.extractLsb' 24 8]

/-- Bits as a number, the first bit least significant. -/
def natOfBits : List Bool → Nat
  | [] => 0
  | b :: bs => b.toNat + 2 * natOfBits bs

/-- Up to 32 bits as a word, the first bit in bit 0 (R66). -/
def wordOfBits (bs : List Bool) : Word := BitVec.ofNat 32 (natOfBits bs)

/-- The 32 bits of a word, bit 0 first (R66). -/
def bitsOfWord (v : Word) : List Bool := (List.range 32).map v.getLsbD

end Sys2Proof.Machine
end

