-- ==== Sys2Proof/Machine/Canonical.lean ====
section
/-! DEFINITION. The canonical code-table reconstructor CANON (43_canonical.md). -/

namespace Sys2Proof.Machine

/-- The running state of CANON: the code and length of the previous entry, and the shadow table (R170). -/
structure CanonRun where
  /-- The running code. -/
  code : Nat
  /-- The previous entry's length. -/
  prev : Nat
  /-- The shadow table C. -/
  table : SymTable (Option Code)

/-- The running code when entry `i` of length `len` is reached: incremented for the entry before it, and shifted only when the
length grows (R170, R173). -/
def nextCode (i len : Nat) (r : CanonRun) : Nat :=
  if i = 0 then r.code
  else if r.prev < len then (r.code + 1) <<< (len - r.prev)
  else r.code + 1

/-- One entry: the checks in the order of R171, then the code of R172. -/
def canonStep (i : Nat) (e : Word) (r : CanonRun) : Except ResultCode CanonRun :=
  if canonLen e = 0 then .error .canonZeroLen
  else if Config.canonLmax < canonLen e then .error .canonLenTooLong
  else if (SymTable.get r.table (canonSym e)).isSome then .error .canonDupSymbol
  else if 2 ^ canonLen e ≤ nextCode i (canonLen e) r then .error .canonOversub
  else
    .ok
      { code := nextCode i (canonLen e) r
        prev := canonLen e
        table := SymTable.set r.table (canonSym e) (some (bitsOf (nextCode i (canonLen e) r) (canonLen e))) }

/-- The entries from index `i` on, in entry order; the error is the first bad entry's code and index (R171). -/
def canonRun : Nat → List Word → CanonRun → Except (ResultCode × Nat) CanonRun
  | _, [], r => .ok r
  | i, e :: es, r =>
    match canonStep i e r with
    | .error c => .error (c, i)
    | .ok r' => canonRun (i + 1) es r'

/-- The canonical table of a list of entries, or the first fault and its entry (R170). -/
def canonTable (entries : List Word) : Except (ResultCode × Nat) (SymTable (Option Code)) :=
  (canonRun 0 entries { code := 0, prev := 0, table := noCodes }).map CanonRun.table

/-- CANON's body (R170). LEN_RANGE changes nothing else; a bad entry leaves CODE all absent (R222, C8). -/
def canonBody (s : State) : Ended :=
  if 256 < s.canonN.toNat then .raised .lenRange 0x01C#32 s
  else
    match canonTable s.canonInput with
    | .error (c, i) => .raised c (BitVec.ofNat 32 i) { s with code := noCodes, codeCount := 0#9 }
    | .ok t => .finished .ok { s with code := t, codeCount := s.canonN.setWidth 9 }

/-- CANON (R170). -/
def execCanon (s : State) : Host.Outcome State Fault Refusal :=
  .next (canonBody s).complete

end Sys2Proof.Machine
end

