-- ==== Sys2Proof/Machine/Control.lean ====
section
/-! DEFINITION. The control commands NOP and CLEAR (40_control.md). -/

namespace Sys2Proof.Machine

/-- NOP: only the completion (R120). -/
def execNop (s : State) : Host.Outcome State Fault Refusal :=
  .next (finish .ok s)

/-- CLEAR's body: every table and count of derived state to its reset value; the entries of LIST, NODE and DT keep what they
held but no count makes them valid (R121). -/
def clearBody (s : State) : Ended :=
  .finished .ok
    { s with
      freq := Vector.replicate 256 0#32
      code := noCodes
      numSyms := 0#9
      nodeCount := 0#10
      treeRoot := none
      codeCount := 0#9
      dtRoot := .absent
      dtNodes := 0#17
      dstLen := 0#32
      decBitpos := 0#32 }

/-- CLEAR (R121). -/
def execClear (s : State) : Host.Outcome State Fault Refusal :=
  .next (clearBody s).complete

end Sys2Proof.Machine
end

