-- ==== Sys2Proof/Machine/CountBuild.lean ====
section
/-! DEFINITION. The frequency counter COUNT and the tree builder BUILD (41_count_build.md). -/

namespace Sys2Proof.Machine

/-! ## COUNT -/

/-- How often each symbol occurs in the input, in 32 bits (R42, R130). -/
def frequencies (input : List Byte) : SymTable Word :=
  SymTable.tabulate fun s => BitVec.ofNat 32 (input.count s)

/-- The sort key of LIST: ascending count, then ascending symbol (R131). -/
def listBefore (f : SymTable Word) (a b : Byte) : Bool :=
  decide ((SymTable.get f a).toNat < (SymTable.get f b).toNat) ||
    (SymTable.get f a == SymTable.get f b && decide (a.toNat ≤ b.toNat))

/-- The symbols with a count above 0, in the order of R131. -/
def countedSymbols (f : SymTable Word) : List Byte :=
  (symbols.filter fun s => SymTable.get f s != 0#32).insertionSort fun a b => listBefore f a b = true

/-- COUNT's body (R130). The range check comes before any write. -/
def countBody (s : State) : Ended :=
  if s.params.srcBytes < s.srcLen.toNat then .raised .lenRange 0x010#32 s
  else
    .finished .ok
      { s with
        freq := frequencies s.source
        list := overlay (countedSymbols (frequencies s.source)) s.list
        numSyms := BitVec.ofNat 9 (countedSymbols (frequencies s.source)).length }

/-- COUNT (R130). -/
def execCount (s : State) : Host.Outcome State Fault Refusal :=
  .next (countBody s).complete

/-! ## BUILD -/

/-- An item of the priority queue: a priority and a NODE index (R132). -/
structure QItem where
  /-- Its priority. -/
  prio : Word
  /-- Its node, which is also its insertion number (R133). -/
  node : Nat
  deriving DecidableEq, Repr

/-- Insert an item after every item whose priority is at most its own: first in, first out among equals (R133). -/
def enqueue (x : QItem) : List QItem → List QItem
  | [] => [x]
  | y :: q => if x.prio.toNat < y.prio.toNat then x :: y :: q else y :: enqueue x q

/-- The merge loop of R132: take the first two items, the first as the 0-child (R134), append their parent to the arena (R135)
and insert it. Each turn shortens the queue by one, so the queue's length is fuel enough. -/
def mergeQueue : Nat → List QItem → List Node → List QItem × List Node
  | fuel + 1, a :: b :: q, nodes =>
    mergeQueue fuel (enqueue { prio := a.prio + b.prio, node := nodes.length } q)
      (nodes ++ [.internal a.node b.node (a.prio + b.prio)])
  | _, q, nodes => (q, nodes)

/-- The leaves NODE[0..M-1], in LIST order (R132, R135). -/
def leavesOf (f : SymTable Word) (l : List Byte) : List Node :=
  l.map fun sym => .leaf sym (SymTable.get f sym)

/-- The first queue: the leaves with their indices, in LIST order (R132). -/
def initialQueue (f : SymTable Word) (l : List Byte) : List QItem :=
  l.zipIdx.map fun p => { prio := SymTable.get f p.1, node := p.2 }

/-- The queue and the arena when at most one item is left (R132). -/
def builtTree (f : SymTable Word) (l : List Byte) : List QItem × List Node :=
  mergeQueue l.length (initialQueue f l) (leavesOf f l)

/-- BUILD's body (R132), over the NUM_SYMS valid entries of LIST. It reads LIST and FREQ as the last COUNT left them (R255). -/
def buildBody (s : State) : Ended :=
  match builtTree s.freq s.listed with
  | ([], _) => .finished .ok { s with nodeCount := 0#10, treeRoot := none }
  | (root :: _, nodes) =>
    .finished .ok
      { s with
        node := overlay nodes s.node
        nodeCount := BitVec.ofNat 10 nodes.length
        treeRoot := some (BitVec.ofNat 9 root.node) }

/-- BUILD (R132). -/
def execBuild (s : State) : Host.Outcome State Fault Refusal :=
  .next (buildBody s).complete

end Sys2Proof.Machine
end

