-- ==== Sys2Proof/Machine/DeriveMaterialize.lean ====
section
/-! DEFINITION. The code-table deriver DERIVE and the code-tree materializer MATERIALIZE (42_derive_materialize.md). -/

namespace Sys2Proof.Machine

/-! ## DERIVE -/

/-- The leaves below node `n` with their codes, depth first, the 0-child first: `walk` of R150. A child's index is below its
parent's (R136), so the arena's size is fuel enough; an index outside the arena, which no run reaches, gives no leaf (log 11). -/
def walk (nodes : List Node) : Nat → Nat → Code → List (Byte × Code)
  | 0, _, _ => []
  | fuel + 1, n, path =>
    match nodes[n]? with
    | some (.leaf sym _) => [(sym, path)]
    | some (.internal a b _) =>
      walk nodes fuel a (path ++ [false]) ++ walk nodes fuel b (path ++ [true])
    | none => []

/-- The code table with the given entries present, placed in order. -/
def tableOf (entries : List (Byte × Code)) : SymTable (Option Code) :=
  entries.foldl (fun c e => SymTable.set c e.1 (some e.2)) noCodes

/-- The single-symbol code: empty, or the one bit `0` when SINGLE_ONEBIT is set (R151). -/
def singleCode (c : Ctrl) : Code := if c.singleOnebit then [false] else []

/-- The entries DERIVE makes present: none without a tree, one for a single leaf (R151), else the walk from the root (R150). -/
def derivedEntries (s : State) : List (Byte × Code) :=
  match s.treeRoot with
  | none => []
  | some r =>
    match s.arena[r.toNat]? with
    | some (.leaf sym _) => [(sym, singleCode s.sampledCtrl)]
    | _ => walk s.arena s.arena.length r.toNat []

/-- DERIVE's body (R150). -/
def deriveBody (s : State) : Ended :=
  .finished .ok
    { s with
      code := tableOf (derivedEntries s)
      codeCount := BitVec.ofNat 9 (presentCount (tableOf (derivedEntries s))) }

/-- DERIVE (R150). -/
def execDerive (s : State) : Host.Outcome State Fault Refusal :=
  .next (deriveBody s).complete

/-! ## MATERIALIZE -/

/-- Place the terminal of symbol `sym` below `node`, following the code's bits and allocating branches; none is the COLLISION
exit (R153). The code is not empty (R155). -/
def placeBits (sym : Byte) : Code → Nat → List Branch → Option (List Branch)
  | [], _, t => some t
  | [b], node, t =>
    match (branchAt t node).child b with
    | .absent => some (t.set node ((branchAt t node).setChild b (.leaf sym)))
    | _ => none
  | b :: b' :: c, node, t =>
    match (branchAt t node).child b with
    | .leaf _ => none
    | .branch i => placeBits sym (b' :: c) i t
    | .absent =>
      placeBits sym (b' :: c) t.length
        (t.set node ((branchAt t node).setChild b (.branch t.length)) ++ [emptyBranch])

/-- The shadow decode tree: its root and its arena (R153). -/
structure Shadow where
  /-- The root descriptor. -/
  root : Desc
  /-- The arena T. -/
  nodes : List Branch
  deriving DecidableEq, Repr

/-- Place one symbol's code: the empty code makes the root a terminal (R155); any other code starts at DT[0] (R153). None is
the COLLISION exit (R154). -/
def placeCode (sym : Byte) (c : Code) (t : Shadow) : Option Shadow :=
  match c with
  | [] =>
    match t.root with
    | .absent => some { t with root := .leaf sym }
    | _ => none
  | b :: c =>
    match t.root with
    | .leaf _ => none
    | .absent => (placeBits sym (b :: c) 0 [emptyBranch]).map fun n => { root := .branch 0, nodes := n }
    | .branch _ => (placeBits sym (b :: c) 0 t.nodes).map fun n => { root := .branch 0, nodes := n }

/-- Place the codes of the listed symbols in order; the error is the symbol whose code collides (R153). -/
def placeAll (codes : SymTable (Option Code)) : List Byte → Shadow → Except Byte Shadow
  | [], t => .ok t
  | sym :: rest, t =>
    match SymTable.get codes sym with
    | none => placeAll codes rest t
    | some c =>
      match placeCode sym c t with
      | none => .error sym
      | some t' => placeAll codes rest t'

/-- The decode tree of a code table, the symbols in ascending order (R153, R156). -/
def shadowTree (codes : SymTable (Option Code)) : Except Byte Shadow :=
  placeAll codes symbols { root := .absent, nodes := [] }

/-- MATERIALIZE's body (R153). A collision leaves no decode tree (R154, R222). -/
def materializeBody (s : State) : Ended :=
  match shadowTree s.code with
  | .error sym => .raised .collision (sym.setWidth 32) { s with dtRoot := .absent, dtNodes := 0#17 }
  | .ok t =>
    .finished .ok
      { s with
        dt := overlay t.nodes s.dt
        dtRoot := t.root
        dtNodes := BitVec.ofNat 17 t.nodes.length }

/-- MATERIALIZE (R153). -/
def execMaterialize (s : State) : Host.Outcome State Fault Refusal :=
  .next (materializeBody s).complete

end Sys2Proof.Machine
end

