-- ==== Sys2Proof/Machine/EncodeDecode.lean ====
section
/-! DEFINITION. The encoder SERIALIZE and ENCODE, and the decoder DECODE (44_encode_decode.md). -/

namespace Sys2Proof.Machine

/-! ## SERIALIZE -/

/-- What the emission of SRC's codes leaves: the bit memory, and the final position or the fault with its byte index. -/
structure Emission where
  /-- BITBUF after it. -/
  bits : List (Nat × Bool)
  /-- The final position, or the fault's code and byte index. -/
  outcome : Except (ResultCode × Nat) Nat

/-- Emit the codes of the bytes from SRC index `i` on at bit position `pos` (R190): an absent code comes before an overflow
(R224), the first code bit goes first, and the bits of the bytes before a fault stay. -/
def emit (codes : SymTable (Option Code)) (cap : Nat) : List Byte → Nat → Nat → List (Nat × Bool) → Emission
  | [], _, pos, m => { bits := m, outcome := .ok pos }
  | b :: bs, i, pos, m =>
    match SymTable.get codes b with
    | none => { bits := m, outcome := .error (.encNoCode, i) }
    | some c =>
      if cap < pos + c.length then { bits := m, outcome := .error (.bitbufOvf, i) }
      else emit codes cap bs (i + 1) (pos + c.length) (cellsWrite m pos c)

/-- SERIALIZE's body (R190): always a fresh buffer from bit 0. After a fault BIT_LEN is 0 and BIT_CURSOR is unchanged. -/
def serializeBody (s : State) : Ended :=
  if s.params.srcBytes < s.srcLen.toNat then .raised .lenRange 0x010#32 s
  else
    match emit s.code s.params.bitbufBits s.source 0 0 s.mem.bitbuf with
    | { bits := m, outcome := .ok pos } =>
      .finished .ok
        { s with
          mem := { s.mem with bitbuf := m }
          bitLen := BitVec.ofNat 32 pos
          bitCursor := 0#32 }
    | { bits := m, outcome := .error (c, i) } =>
      .raised c (BitVec.ofNat 32 i)
        { s with
          mem := { s.mem with bitbuf := m }
          bitLen := 0#32 }

/-- SERIALIZE (R190). -/
def execSerialize (s : State) : Host.Outcome State Fault Refusal :=
  .next (serializeBody s).complete

/-! ## ENCODE -/

/-- ENCODE's body: the bodies of COUNT, BUILD, DERIVE, MATERIALIZE and SERIALIZE in turn, without their completions; the first
fault ends it (R192). -/
def encodeBody (s : State) : Ended :=
  ((((countBody s).andThen buildBody).andThen deriveBody).andThen materializeBody).andThen serializeBody

/-- ENCODE (R192). -/
def execEncode (s : State) : Host.Outcome State Fault Refusal :=
  .next (encodeBody s).complete

/-! ## DECODE -/

/-- Where a traversal stands: the node, the bytes emitted, the index after the last terminal, and DST (R193). -/
structure Traversal where
  /-- The current DT index. -/
  node : Nat
  /-- The bytes emitted. -/
  out : Nat
  /-- The bit index just after the last terminal. -/
  last : Nat
  /-- DST so far. -/
  dst : List Host.Cell
  deriving DecidableEq, Repr

/-- How a traversal ends: the buffer is exhausted, or a fault at a bit index. -/
inductive TraversalEnd where
  /-- No bit is left. -/
  | exhausted (t : Traversal)
  /-- A fault at bit `pos`. -/
  | fault (code : ResultCode) (pos : Nat) (t : Traversal)
  deriving DecidableEq, Repr

/-- Follow the bits from position `pos` on (R193): ABSENT comes before an overflow of DST (R224); a terminal emits its symbol
and the traversal restarts at DT[0]. -/
def traverse (dt : List Branch) (cap : Nat) : List Bool → Nat → Traversal → TraversalEnd
  | [], _, t => .exhausted t
  | b :: bs, pos, t =>
    match (branchAt dt t.node).child b with
    | .absent => .fault .decInvalid pos t
    | .branch i => traverse dt cap bs (pos + 1) { t with node := i }
    | .leaf sym =>
      if t.out = cap then .fault .dstOvf pos t
      else
        traverse dt cap bs (pos + 1)
          { node := 0, out := t.out + 1, last := pos + 1, dst := cellWrite t.dst t.out sym }

/-- Write the outputs of a traversal: DST, DST_LEN and DEC_BITPOS (R193). -/
def State.withTraversal (s : State) (t : Traversal) : State :=
  { s with
    mem := { s.mem with dst := t.dst }
    dstLen := BitVec.ofNat 32 t.out
    decBitpos := BitVec.ofNat 32 t.last }

/-- DECODE without a branch root: nothing is emitted, and any bit is invalid (R195). -/
def decodeRootless (s : State) : Ended :=
  if s.bitLen = 0#32 then .finished .ok { s with dstLen := 0#32, decBitpos := 0#32 }
  else .raised .decInvalid 0#32 { s with dstLen := 0#32, decBitpos := 0#32 }

/-- DECODE's body (R193 to R196): from bit 0 whatever BIT_CURSOR is; a truncated tail is a success of its own (R194). -/
def decodeBody (s : State) : Ended :=
  if s.params.bitbufBits < s.bitLen.toNat then .raised .lenRange 0x014#32 s
  else
    match s.dtRoot with
    | .absent => decodeRootless s
    | .leaf _ => decodeRootless s
    | .branch _ =>
      match traverse s.dt s.params.dstBytes s.stream 0 { node := 0, out := 0, last := 0, dst := s.mem.dst } with
      | .fault c pos t => .raised c (BitVec.ofNat 32 pos) (s.withTraversal t)
      | .exhausted t =>
        .finished (if t.last < s.bitLen.toNat then .okTruncated else .ok) (s.withTraversal t)

/-- DECODE (R193). -/
def execDecode (s : State) : Host.Outcome State Fault Refusal :=
  .next (decodeBody s).complete

end Sys2Proof.Machine
end

