-- ==== Sys2Proof/Machine/Engine.lean ====
section
/-! DEFINITION. The engine's turn: the accepted command word is decoded and run whole, from acceptance to completion
(R52, R71; log 7). -/

namespace Sys2Proof.Machine

/-- Run the accepted word `w`: the command it decodes to, or ILLEGAL_CMD (R26, R92). -/
def runCommand (w : Word) (s : State) : Host.Outcome State Fault Refusal :=
  match decode w with
  | .command i => exec i s
  | .illegalCmd w => .next (illegalCommand w s)

end Sys2Proof.Machine
end

