-- ==== Sys2Proof/Machine/Window.lean ====
section
/-! DEFINITION. The host window: its map, and what a host access and the reset line do (20_memory.md; R23 of 10_state.md;
R225 to R227 of 60_exceptions.md; R250 of 70_reset_and_hazards.md). -/

namespace Sys2Proof.Machine

/-! ## The map -/

/-- The registers of R23. -/
inductive Reg where
  /-- 0x000, RO. -/
  | id
  /-- 0x004, RW. -/
  | ctrl
  /-- 0x008, WO. -/
  | cmd
  /-- 0x00C, RO and W1C. -/
  | status
  /-- 0x010, RW. -/
  | srcLen
  /-- 0x014, RW. -/
  | bitLen
  /-- 0x018, RW. -/
  | bitCursor
  /-- 0x01C, RW. -/
  | canonN
  /-- 0x020, RO. -/
  | dstLen
  /-- 0x024, RO. -/
  | numSyms
  /-- 0x028, RO. -/
  | nodeCount
  /-- 0x02C, RO. -/
  | treeRoot
  /-- 0x030, RO. -/
  | codeCount
  /-- 0x034, RO. -/
  | dtRoot
  /-- 0x038, RO. -/
  | dtNodes
  /-- 0x03C, RO. -/
  | decBitpos
  /-- 0x040, RO. -/
  | errInfo
  /-- 0x044, RO. -/
  | cfgSrcBytes
  /-- 0x048, RO. -/
  | cfgDstBytes
  /-- 0x04C, RO. -/
  | cfgBitbufBits
  /-- 0x050, RO. -/
  | cfgCanonLmax
  deriving DecidableEq, Repr

/-- The offset of a register (R23). -/
def Reg.offset : Reg → Nat
  | .id => 0x000
  | .ctrl => 0x004
  | .cmd => 0x008
  | .status => 0x00C
  | .srcLen => 0x010
  | .bitLen => 0x014
  | .bitCursor => 0x018
  | .canonN => 0x01C
  | .dstLen => 0x020
  | .numSyms => 0x024
  | .nodeCount => 0x028
  | .treeRoot => 0x02C
  | .codeCount => 0x030
  | .dtRoot => 0x034
  | .dtNodes => 0x038
  | .decBitpos => 0x03C
  | .errInfo => 0x040
  | .cfgSrcBytes => 0x044
  | .cfgDstBytes => 0x048
  | .cfgBitbufBits => 0x04C
  | .cfgCanonLmax => 0x050

/-- The registers in the order of their offsets (R23). -/
def Reg.all : List Reg :=
  [.id, .ctrl, .cmd, .status, .srcLen, .bitLen, .bitCursor, .canonN, .dstLen, .numSyms, .nodeCount,
   .treeRoot, .codeCount, .dtRoot, .dtNodes, .decBitpos, .errInfo, .cfgSrcBytes, .cfgDstBytes,
   .cfgBitbufBits, .cfgCanonLmax]

/-- What an aligned offset names (R61). -/
inductive Target where
  /-- A register. -/
  | reg (r : Reg)
  /-- FREQ[s]. -/
  | freq (s : Byte)
  /-- LIST[i]. -/
  | list (i : Nat)
  /-- CANON[i]. -/
  | canon (i : Nat)
  /-- Word 0 or (`high`) word 1 of NODE[i]. -/
  | node (i : Nat) (high : Bool)
  /-- Word `k` of CODE[s]. -/
  | code (s : Byte) (k : Nat)
  /-- child0 or (`high`) child1 of DT[i]. -/
  | dt (i : Nat) (high : Bool)
  /-- SRC bytes `i` to `i + 3`. -/
  | src (i : Nat)
  /-- DST bytes `i` to `i + 3`. -/
  | dst (i : Nat)
  /-- BITBUF bits `i` to `i + 31`. -/
  | bitbuf (i : Nat)
  /-- A reserved offset, or one inside a region that names no entry (R61, R63). -/
  | unnamed
  deriving DecidableEq, Repr

/-- The register block, 0x000 to 0xFFF (R23). -/
def registerTarget (off : Nat) : Target :=
  match Reg.all.find? (fun r => r.offset == off) with
  | some r => .reg r
  | none => .unnamed

/-- The window's map (R61), at an aligned offset. Each region is aligned to its size (D7), so a remainder is the place in it. -/
def target (p : Params) (off : Nat) : Target :=
  if off < 0x0001000 then registerTarget off
  else if off < 0x0001400 then .freq (BitVec.ofNat 8 (off % 0x400 / 4))
  else if off < 0x0001800 then .list (off % 0x400 / 4)
  else if off < 0x0001C00 then .canon (off % 0x400 / 4)
  else if off < 0x0002000 then .unnamed
  else if off < 0x0002FF8 then .node (off % 0x1000 / 8) (off % 8 == 4)
  else if off < 0x0004000 then .unnamed
  else if off < 0x0008000 then .code (BitVec.ofNat 8 (off % 0x4000 / 64)) (off % 64 / 4)
  else if off < 0x0100000 then .unnamed
  else if off < 0x0180000 then .dt (off % 0x80000 / 8) (off % 8 == 4)
  else if off < 0x0200000 then .unnamed
  else if off < 0x0300000 then
    if off % 0x100000 < p.srcBytes then .src (off % 0x100000) else .unnamed
  else if off < 0x0400000 then
    if off % 0x100000 < p.dstBytes then .dst (off % 0x100000) else .unnamed
  else if off < 0x1000000 then .unnamed
  else if off < 0x2000000 then
    if 8 * (off % 0x1000000) < p.bitbufBits then .bitbuf (8 * (off % 0x1000000)) else .unnamed
  else .unnamed

/-! ## Reads -/

/-- The value of a register, by R23 to R41. CMD reads 0 (R26). -/
def State.readReg (s : State) : Reg → Word
  | .id => Config.idWord
  | .ctrl => s.ctrl.toWord
  | .cmd => 0#32
  | .status => s.statusWord
  | .srcLen => s.srcLen
  | .bitLen => s.bitLen
  | .bitCursor => s.bitCursor
  | .canonN => s.canonN
  | .dstLen => s.dstLen
  | .numSyms => s.numSyms.setWidth 32
  | .nodeCount => s.nodeCount.setWidth 32
  | .treeRoot => treeRootWord s.treeRoot
  | .codeCount => s.codeCount.setWidth 32
  | .dtRoot => s.dtRoot.toWord
  | .dtNodes => s.dtNodes.setWidth 32
  | .decBitpos => s.decBitpos
  | .errInfo => s.errInfo
  | .cfgSrcBytes => BitVec.ofNat 32 s.params.srcBytes
  | .cfgDstBytes => BitVec.ofNat 32 s.params.dstBytes
  | .cfgBitbufBits => BitVec.ofNat 32 s.params.bitbufBits
  | .cfgCanonLmax => BitVec.ofNat 32 Config.canonLmax

/-- Entry `i` of a table of which the first `n` entries are valid (R55). -/
def validEntry {α : Type} (l : List α) (n i : Nat) : Option α := if i < n then l[i]? else none

/-- The word at a target while no command runs: none where it is unspecified (R55). -/
def State.readTarget (s : State) : Target → Option Word
  | .reg r => some (s.readReg r)
  | .freq sym => some (SymTable.get s.freq sym)
  | .list i => (validEntry s.list s.numSyms.toNat i).map listWord
  | .canon i => some (s.canonEntry i)
  | .node i high =>
    (validEntry s.node s.nodeCount.toNat i).map fun n => if high then n.prio else n.word0
  | .code sym k => some (codeWord (SymTable.get s.code sym) k)
  | .dt i high =>
    (validEntry s.dt s.dtNodes.toNat i).map fun b => if high then b.child1.toWord else b.child0.toWord
  | .src i => some (wordOfBytes (s.srcByte i) (s.srcByte (i + 1)) (s.srcByte (i + 2)) (s.srcByte (i + 3)))
  | .dst i => some (wordOfBytes (s.dstByte i) (s.dstByte (i + 1)) (s.dstByte (i + 2)) (s.dstByte (i + 3)))
  | .bitbuf i => some (wordOfBits ((List.range 32).map fun j => s.bit (i + j)))
  | .unnamed => some 0#32

/-- Whether a register is state a command may write, so that a read while BUSY is unspecified (R70). CMD, which R70 lists
nowhere, reads 0 as always (log 14). -/
def Reg.isOutput : Reg → Bool
  | .id => false
  | .ctrl => false
  | .cmd => false
  | .status => false
  | .srcLen => false
  | .bitLen => true
  | .bitCursor => true
  | .canonN => false
  | .dstLen => true
  | .numSyms => true
  | .nodeCount => true
  | .treeRoot => true
  | .codeCount => true
  | .dtRoot => true
  | .dtNodes => true
  | .decBitpos => true
  | .errInfo => true
  | .cfgSrcBytes => false
  | .cfgDstBytes => false
  | .cfgBitbufBits => false
  | .cfgCanonLmax => false

/-- Whether a read of the target is unspecified while BUSY (R70). -/
def Target.isOutput : Target → Bool
  | .reg r => r.isOutput
  | .freq _ => true
  | .list _ => true
  | .canon _ => false
  | .node _ _ => true
  | .code _ _ => true
  | .dt _ _ => true
  | .src _ => false
  | .dst _ => true
  | .bitbuf _ => true
  | .unnamed => false

/-- The bits of a register that its rule names; every other bit reads as 0, also while BUSY (R23 to R41, R99, U11). -/
def Reg.namedBits : Reg → Word
  | .id => 0xFFFFFFFF#32
  | .ctrl => 0x00000003#32
  | .cmd => 0xFFFFFFFF#32
  | .status => 0x0000FF0F#32
  | .srcLen => 0xFFFFFFFF#32
  | .bitLen => 0xFFFFFFFF#32
  | .bitCursor => 0xFFFFFFFF#32
  | .canonN => 0xFFFFFFFF#32
  | .dstLen => 0xFFFFFFFF#32
  | .numSyms => 0x000001FF#32
  | .nodeCount => 0x000003FF#32
  | .treeRoot => 0x800001FF#32
  | .codeCount => 0x000001FF#32
  | .dtRoot => 0x0003FFFF#32
  | .dtNodes => 0x0001FFFF#32
  | .decBitpos => 0xFFFFFFFF#32
  | .errInfo => 0xFFFFFFFF#32
  | .cfgSrcBytes => 0xFFFFFFFF#32
  | .cfgDstBytes => 0xFFFFFFFF#32
  | .cfgBitbufBits => 0xFFFFFFFF#32
  | .cfgCanonLmax => 0xFFFFFFFF#32

/-- The bits an unspecified read of a target may show: a register's named bits (R23), and every bit of a window's word (log 18). -/
def Target.openBits : Target → Word
  | .reg r => r.namedBits
  | .freq _ => 0xFFFFFFFF#32
  | .list _ => 0xFFFFFFFF#32
  | .canon _ => 0xFFFFFFFF#32
  | .node _ _ => 0xFFFFFFFF#32
  | .code _ _ => 0xFFFFFFFF#32
  | .dt _ _ => 0xFFFFFFFF#32
  | .src _ => 0xFFFFFFFF#32
  | .dst _ => 0xFFFFFFFF#32
  | .bitbuf _ => 0xFFFFFFFF#32
  | .unnamed => 0xFFFFFFFF#32

/-- What an aligned 32-bit read at an offset returns (R63, R64, R70). An unspecified value is free in every bit that can be other
than 0 (log 3): of a register, the bits it names (R23, U11); of an entry, all 32 (log 18). -/
def State.hostRead (s : State) (off : Nat) : Word :=
  if s.busy && (target s.params off).isOutput then Config.freeWord s.tick off &&& (target s.params off).openBits
  else (s.readTarget (target s.params off)).getD (Config.freeWord s.tick off)

/-! ## Writes -/

/-- Whether a write to the target is dropped while BUSY: CMD and the commands' inputs (R70). -/
def Target.isInput : Target → Bool
  | .reg .cmd => true
  | .reg .srcLen => true
  | .reg .bitLen => true
  | .reg .bitCursor => true
  | .reg .canonN => true
  | .reg _ => false
  | .freq _ => false
  | .list _ => false
  | .canon _ => true
  | .node _ _ => false
  | .code _ _ => false
  | .dt _ _ => false
  | .src _ => true
  | .dst _ => false
  | .bitbuf _ => true
  | .unnamed => false

/-- A write to a register (R64): RW registers store, CMD starts a command, STATUS clears flags, RO registers ignore it. -/
def writeReg (v : Word) (s : State) : Reg → State
  | .id => s
  | .ctrl => { s with ctrl := Ctrl.ofWord v }
  | .cmd => accept v s
  | .status => acknowledge v s
  | .srcLen => { s with srcLen := v }
  | .bitLen => { s with bitLen := v }
  | .bitCursor => { s with bitCursor := v }
  | .canonN => { s with canonN := v }
  | .dstLen => s
  | .numSyms => s
  | .nodeCount => s
  | .treeRoot => s
  | .codeCount => s
  | .dtRoot => s
  | .dtNodes => s
  | .decBitpos => s
  | .errInfo => s
  | .cfgSrcBytes => s
  | .cfgDstBytes => s
  | .cfgBitbufBits => s
  | .cfgCanonLmax => s

/-- A write to a target that is performed (R64): CANON, SRC (R65) and BITBUF (R66) store; the read-only tables and unnamed
offsets ignore it (R63). -/
def writeTarget (v : Word) (s : State) : Target → State
  | .reg r => writeReg v s r
  | .freq _ => s
  | .list _ => s
  | .canon i => { s with mem := { s.mem with canon := cellWrite s.mem.canon i v } }
  | .node _ _ => s
  | .code _ _ => s
  | .dt _ _ => s
  | .src i => { s with mem := { s.mem with src := cellsWrite s.mem.src i (bytesOfWord v) } }
  | .dst _ => s
  | .bitbuf i => { s with mem := { s.mem with bitbuf := cellsWrite s.mem.bitbuf i (bitsOfWord v) } }
  | .unnamed => s

/-- An aligned 32-bit write at an offset: dropped with OVR where R70 says so, else performed (R64). -/
def hostWrite (off : Nat) (v : Word) (s : State) : State :=
  if s.busy && (target s.params off).isInput then { s with ovr := true }
  else writeTarget v s (target s.params off)

/-! ## Accesses -/

/-- Whether an access is the one kind the window supports (R62). -/
def supported (w : Width) (off : Nat) : Bool := w == .word && off % 4 == 0

/-- A host access at an offset of the window. An unsupported one sets ACCERR and does nothing else; it reads 0 (R62). A read has
no side effect (R69): only the model's tick moves on, since two reads of an unspecified entry may differ (R55, log 2). That two
reads while BUSY of the same state a command may write may differ too is the model's choice (log 19). -/
def hostAccess (a : Access) (off : Nat) (s : State) : State :=
  match a with
  | .read w _ =>
    if supported w off then { s with response := some (s.hostRead off), tick := s.tick + 1 }
    else { s with accerr := true, response := some 0#32 }
  | .write w _ v =>
    if supported w off then { hostWrite off v s with response := none }
    else { s with accerr := true, response := none }

/-- The host address of an access. -/
def Access.addr : Access → Nat
  | .read _ a => a
  | .write _ a _ => a

/-- The offset a host address reaches, `a - P_BASE`, if it lies in the window (R60). -/
def windowOffset (p : Params) (a : Nat) : Option Nat :=
  if p.base ≤ a ∧ a < p.base + Config.windowBytes then some (a - p.base) else none

/-- One input from outside. An access while reset is asserted is refused (U9, log 5); one that reaches no offset of the window
faults (log 6). Releasing reset changes nothing but the line (log 13). -/
def takeInput (i : Input) (s : State) : Host.Outcome State Fault Refusal :=
  match i with
  | .reset true => .next (resetEvent s)
  | .reset false => .next { s with resetLine := false }
  | .access a =>
    if s.resetLine then .refused .accessDuringReset
    else
      match windowOffset s.params a.addr with
      | none => .fault (.outsideWindow a.addr)
      | some off => .next (hostAccess a off s)

end Sys2Proof.Machine
end

