-- ==== Sys2Proof/Machine/Step.lean ====
section
/-! DEFINITION. One step of the machine: the engine's turn or one input (R20, R71). -/

namespace Sys2Proof.Machine

/-- BUSY: the accepted command runs when its delay is over or no input is left, else one input comes first (R71, U5, log 8).
IDLE: one input, or nothing, and the machine holds all its state (R233, log 9). -/
def step (s : State) : Host.Outcome State Fault Refusal :=
  match s.engine, s.inputs with
  | .busy w _ 0, _ => runCommand w s
  | .busy w _ (_ + 1), [] => runCommand w s
  | .busy w c (d + 1), i :: rest => takeInput i { s with engine := .busy w c d, inputs := rest }
  | .idle, [] => .next s
  | .idle, i :: rest => takeInput i { s with inputs := rest }

/-- `s` with the command word `w` accepted (R26, R221) and due at once, so that the very next step runs it. HUFF fetches no
instruction (R22, R75): the word a command is run from is the one the engine accepted (log 9, log 16). -/
def State.withFetchWord (s : State) (_nbits w : Nat) : State :=
  { s with engine := .busy (BitVec.ofNat 32 w) s.ctrl 0, errInfo := 0#32 }

end Sys2Proof.Machine
end

