-- ==== Sys2Proof/Machine/HostProgram.lean ====
section
/-! DEFINITION. Host programs (R101 to R104, 30_encoding.md): their transactions as inputs, the loop `wait`, and how a program
runs against the machine (log 17). -/

namespace Sys2Proof.Machine

/-! ## Transactions and what they expand to -/

/-- `rd OFF`: an aligned 32-bit read at an offset (R101). -/
def rd (p : Params) (off : Nat) : Input := .access (.read .word (p.base + off))

/-- `wr OFF, VAL` (R101). -/
def wr (p : Params) (off : Nat) (v : Word) : Input := .access (.write .word (p.base + off) v)

/-- `ack`: clears DONE, OVR and ACCERR (R104). -/
def ack (p : Params) : List Input := [wr p Reg.status.offset 0x0000000E#32]

/-- `cmd X` (R104). -/
def cmd (p : Params) (i : Instr) : List Input := [wr p Reg.cmd.offset (encode i)]

/-- Byte `i` of a list, 0 where the list has none: `ldsrc` pads with 0 (R104). -/
def paddedByte (bs : List Byte) (i : Nat) : Byte := (bs[i]?).getD 0#8

/-- `ldsrc` (R104): the words of SRC, then SRC_LEN. -/
def ldsrc (p : Params) (bs : List Byte) : List Input :=
  ((List.range ((bs.length + 3) / 4)).map fun k =>
    wr p (0x200000 + 4 * k)
      (wordOfBytes (paddedByte bs (4 * k)) (paddedByte bs (4 * k + 1)) (paddedByte bs (4 * k + 2))
        (paddedByte bs (4 * k + 3)))) ++
  [wr p Reg.srcLen.offset (BitVec.ofNat 32 bs.length)]

/-- `ldbits` (R104): the words of BITBUF, then BIT_LEN. -/
def ldbits (p : Params) (bs : List Bool) : List Input :=
  ((List.range ((bs.length + 31) / 32)).map fun k =>
    wr p (0x1000000 + 4 * k) (wordOfBits ((bs.drop (32 * k)).take 32))) ++
  [wr p Reg.bitLen.offset (BitVec.ofNat 32 bs.length)]

/-- `ldcanon` (R104): the entries of CANON, then CANON_N. -/
def ldcanon (p : Params) (es : List (Byte × Byte)) : List Input :=
  (es.zipIdx.map fun e => wr p (0x1800 + 4 * e.2) (canonWord e.1.1 e.1.2)) ++
  [wr p Reg.canonN.offset (BitVec.ofNat 32 es.length)]

/-- One line of a host program: a transaction, or the loop `wait`, its only control flow (R104). -/
inductive HostOp where
  /-- `rd` or `wr`. -/
  | bus (i : Input)
  /-- `wait`. -/
  | wait
  deriving DecidableEq, Repr

/-- `run X`: `ack`, `cmd X`, `wait` (R104). -/
def run (p : Params) (i : Instr) : List HostOp := (ack p ++ cmd p i).map .bus ++ [.wait]

/-! ## Running a program -/

/-- Go on from a next state; a fault or a refusal of the machine ends the program. -/
def onNext {σ τ : Type} (o : Host.Outcome σ Fault Refusal) (f : σ → Host.Outcome τ Fault Refusal) :
    Host.Outcome τ Fault Refusal :=
  match o with
  | .next s => f s
  | .fault r => .fault r
  | .refused r => .refused r

/-- One transaction (R102): it is the machine's next input, and the machine steps until it has taken it. A command that is due
completes first (R71), so that is one step or two. -/
def transact (i : Input) (s : State) : Host.Outcome State Fault Refusal :=
  match s.engine with
  | .idle => step { s with inputs := i :: s.inputs }
  | .busy _ _ (_ + 1) => step { s with inputs := i :: s.inputs }
  | .busy _ _ 0 => onNext (step { s with inputs := i :: s.inputs }) step

/-- `rd STATUS -> t` (R104): `t` is in `response`. -/
def readStatus (s : State) : Host.Outcome State Fault Refusal := transact (rd s.params Reg.status.offset) s

/-- How many more inputs the running command lets pass (log 8). -/
def State.pendingDelay (s : State) : Nat :=
  match s.engine with
  | .idle => 0
  | .busy _ _ d => d

/-- Repeat `rd STATUS -> t` until `t[0] = 0`, at most `fuel` times (R104). -/
def waitWithin : Nat → State → Host.Outcome State Fault Refusal
  | 0, s => .next s
  | fuel + 1, s =>
    onNext (readStatus s) fun t =>
      match t.response with
      | some w => if w.getLsbD 0 then waitWithin fuel t else .next t
      | none => .next t

/-- `wait` (R104). Each read uses up one of the delay, so the loop has ended when the fuel has (R260). -/
def wait (s : State) : Host.Outcome State Fault Refusal := waitWithin (s.pendingDelay + 1) s

/-- One line of a host program. -/
def perform (s : State) : HostOp → Host.Outcome State Fault Refusal
  | .bus i => transact i s
  | .wait => wait s

/-- A host program, line by line (R102). -/
def performAll (s : State) : List HostOp → Host.Outcome State Fault Refusal
  | [] => .next s
  | op :: ops => onNext (perform s op) fun t => performAll t ops

/-- What `check` tests of the STATUS word it reads: `t[15:8] ≤ 0x01` and `t[2] = 0` (R104). -/
def checkSucceeded (t : Word) : Bool := decide ((t.extractLsb' 8 8).toNat ≤ 1) && !t.getLsbD 2

/-- `check`: `rd STATUS -> t`, and whether the command succeeded (R104). -/
def check (s : State) : Host.Outcome (State × Bool) Fault Refusal :=
  onNext (readStatus s) fun t => .next (t, t.response.any checkSucceeded)

end Sys2Proof.Machine
end

