-- ==== Sys2Proof/WellFormed.lean ====
section
/-! DEFINITION. Which commands and which parameter choices are well formed. -/

namespace Sys2Proof

/-- A command has no operand fields (R90), so there is nothing in one that could be out of range: each is well formed. -/
def Instr.wf : Instr → Bool
  | .nop => true
  | .clear => true
  | .count => true
  | .build => true
  | .derive => true
  | .materialize => true
  | .serialize => true
  | .encode => true
  | .canon => true
  | .decode => true

/-- A byte capacity in R6's range: a multiple of 4 from 4 to 2^20 (also 90_conflicts.md C7). -/
def byteCapacityOk (n : Nat) : Bool := n % 4 == 0 && decide (4 ≤ n) && decide (n ≤ 1048576)

/-- A bit capacity in R6's range: a multiple of 32 from 32 to 2^27. -/
def bitCapacityOk (n : Nat) : Bool := n % 32 == 0 && decide (32 ≤ n) && decide (n ≤ 134217728)

/-- P_BASE is aligned to 2^25 bytes (R6, R60). -/
def baseOk (n : Nat) : Bool := n % Config.windowBytes == 0

/-- The parameters stand in the ranges of R6. -/
def Params.wf (p : Params) : Bool :=
  byteCapacityOk p.srcBytes && byteCapacityOk p.dstBytes && bitCapacityOk p.bitbufBits && baseOk p.base

end Sys2Proof
end

