-- ==== Sys2Proof/Safety.lean ====
section
/-! DEFINITION. What counts as a good state of HUFF, and the notions the statements are made in: prefix-free tables, what a
decode tree spells, paths of the construction tree, the operands of each command (R93). -/

namespace Sys2Proof.Machine

/-! ## Codes and trees -/

/-- No present code is a prefix of another symbol's present code (R152, R154). -/
def PrefixFree (codes : SymTable (Option Code)) : Prop :=
  ∀ x y cx cy, x ≠ y → SymTable.get codes x = some cx → SymTable.get codes y = some cy → ¬ cx <+: cy

/-- What is reached from a descriptor by following bits: nothing lies beyond a terminal or an absent child (R46). -/
def follow (dt : List Branch) : Desc → Code → Desc
  | d, [] => d
  | .branch i, b :: c => follow dt ((branchAt dt i).child b) c
  | .absent, _ :: _ => .absent
  | .leaf _, _ :: _ => .absent

/-- The proper prefixes of a code, shortest first (R157). -/
def properPrefixes (c : Code) : List Code := (List.range c.length).map fun n => c.take n

/-- Append to `ps` those of the listed paths it does not hold yet, in order. -/
def appendNew : List Code → List Code → List Code
  | ps, [] => ps
  | ps, q :: qs => if q ∈ ps then appendNew ps qs else appendNew (ps ++ [q]) qs

/-- The paths of the branches MATERIALIZE allocates, in allocation order: the proper prefixes of the present codes, the symbols
ascending and each code's prefixes by length, each path where it is first met (R153, R157). -/
def branchPaths (codes : SymTable (Option Code)) : List Code :=
  appendNew [] (symbols.flatMap fun x => ((SymTable.get codes x).map properPrefixes).getD [])

/-- The node reached from node `n` by descending left on 0 and right on 1 (R150). -/
def nodeAt (nodes : List Node) : Nat → Code → Option Nat
  | n, [] => some n
  | n, b :: c =>
    match nodes[n]? with
    | some (.internal left right _) => nodeAt nodes (if b then right else left) c
    | _ => none

/-- The children of a node (R44). -/
def Node.children : Node → List Nat
  | .leaf _ _ => []
  | .internal left right _ => [left, right]

/-- The symbol of a leaf. -/
def Node.symbols : Node → List Byte
  | .leaf sym _ => [sym]
  | .internal _ _ _ => []

/-- The priority of node `i` of an arena, as a number (R136). -/
def prioOf (nodes : List Node) (i : Nat) : Nat := ((nodes[i]?).map fun n => n.prio.toNat).getD 0

/-- Node `i` comes before node `j` in the queue's order: ascending by priority, then by node index (R133). -/
def queuedBefore (nodes : List Node) (i j : Nat) : Prop :=
  prioOf nodes i < prioOf nodes j ∨ (prioOf nodes i = prioOf nodes j ∧ i < j)

/-- The bits SERIALIZE emits for bytes that have codes: their codes in order (R190). -/
def emittedBits (codes : SymTable (Option Code)) (bs : List Byte) : Code :=
  bs.flatMap fun b => (SymTable.get codes b).getD []

/-- The running code of CANON's entry `i`, whose length is `len i`: 0 for the first; then one more than the last, shifted left
by the growth of the length if it grows (R170, R173). -/
def canonCode (len : Nat → Nat) : Nat → Nat
  | 0 => 0
  | i + 1 => (canonCode len i + 1) * 2 ^ (len (i + 1) - len i)

/-! ## Good states -/

/-- The memories are in canonical form and list no cell beyond their capacities (R6, R47 to R50). -/
structure MemoryOk (s : State) : Prop where
  wf : s.mem.wf
  src : ∀ c ∈ s.mem.src, c.1 < s.params.srcBytes
  dst : ∀ c ∈ s.mem.dst, c.1 < s.params.dstBytes
  bitbuf : ∀ c ∈ s.mem.bitbuf, c.1 < s.params.bitbufBits
  canon : ∀ c ∈ s.mem.canon, c.1 < 256

/-- LIST's valid entries are the symbols that occur, each once, ascending by `(FREQ[s], s)` (R33, R43, R131), and the counts
sum to at most the capacity of SRC (R136). -/
structure ListOk (s : State) : Prop where
  atMost : s.numSyms.toNat ≤ 256
  stored : s.numSyms.toNat ≤ s.list.length
  occurs : ∀ x, x ∈ s.listed ↔ SymTable.get s.freq x ≠ 0#32
  order : s.listed.Pairwise fun a b =>
    (SymTable.get s.freq a).toNat < (SymTable.get s.freq b).toNat ∨
      (SymTable.get s.freq a = SymTable.get s.freq b ∧ a.toNat < b.toNat)
  total : (symbols.map fun x => (SymTable.get s.freq x).toNat).sum ≤ s.params.srcBytes

/-- The arena of a construction tree with `m` leaves: the leaves first, each with its own symbol, then `m - 1` internal nodes
whose children have smaller indices and whose priority is the sum of theirs; each node but the root, the last, is a child exactly
once (R44, R135, R136). -/
structure TreeOf (nodes : List Node) (m : Nat) : Prop where
  nonempty : 1 ≤ m
  atMost : m ≤ 256
  size : nodes.length = 2 * m - 1
  leaves : ∀ i, i < m → ∃ x p, nodes[i]? = some (.leaf x p)
  internals : ∀ i, m ≤ i → i < 2 * m - 1 → ∃ a b p, nodes[i]? = some (.internal a b p) ∧ a < i ∧ b < i ∧
    p.toNat = prioOf nodes a + prioOf nodes b
  parents : (nodes.flatMap Node.children).Perm (List.range (2 * m - 2))
  symbols : (nodes.flatMap Node.symbols).Nodup

/-- Without a tree the arena is empty; with one, TREE_ROOT is its last node (R35, R136). -/
structure TreeOk (s : State) : Prop where
  stored : s.nodeCount.toNat ≤ s.node.length
  without : s.treeRoot = none → s.nodeCount = 0#10
  tree : ∀ r, s.treeRoot = some r → ∃ m, TreeOf s.arena m ∧ r.toNat = 2 * m - 2

/-- The code table is prefix-free, its codes have at most 255 bits, and CODE_COUNT counts them (R36, R45, R152, R175). -/
structure CodesOk (s : State) : Prop where
  prefixFree : PrefixFree s.code
  short : ∀ x c, SymTable.get s.code x = some c → c.length ≤ 255
  counted : s.codeCount.toNat = presentCount s.code

/-- DT_ROOT is absent, a terminal, or the branch DT[0]; every branch of a valid entry leads to a later valid entry (R37, R38,
R46), and the arena does not overflow (R157). -/
structure DecodeTreeOk (s : State) : Prop where
  stored : s.dtNodes.toNat ≤ s.dt.length
  fits : s.dtNodes.toNat < 65536
  root : (∃ n, s.dtRoot = .branch n) ↔ 0 < s.dtNodes.toNat
  first : ∀ n, s.dtRoot = .branch n → n = 0
  closed : ∀ i b n, i < s.dtNodes.toNat → (branchAt s.dt i).child b = .branch n → i < n ∧ n < s.dtNodes.toNat

/-- DST_LEN and DEC_BITPOS stay within the capacities (R32, R39). -/
structure OutputsOk (s : State) : Prop where
  dstLen : s.dstLen.toNat ≤ s.params.dstBytes
  decBitpos : s.decBitpos.toNat ≤ s.params.bitbufBits

/-- ERR_INFO is 0 while a command runs and after a success (R40, R221); no command runs while reset is asserted
(the model refuses accesses then: log 5, log 13). -/
structure EngineOk (s : State) : Prop where
  running : s.busy = true → s.errInfo = 0#32
  success : s.result.isFault = false → s.errInfo = 0#32
  inReset : s.resetLine = true → s.engine = .idle

/-- A good state. -/
structure Good (s : State) : Prop where
  params : s.params.wf = true
  memory : MemoryOk s
  list : ListOk s
  tree : TreeOk s
  codes : CodesOk s
  decodeTree : DecodeTreeOk s
  outputs : OutputsOk s
  engine : EngineOk s

/-! ## The operands of the commands (R93) -/

/-- `s` with what every command writes, as `t` has it: STATUS, the phase, ERR_INFO (R93, R221), and the model's tick. -/
def State.completedAs (s t : State) : State :=
  { s with result := t.result, done := true, engine := .idle, errInfo := t.errInfo, tick := s.tick + 1 }

/-- `t` differs from `s` at most in what R93 says the command writes. -/
def WritesOnly : Instr → State → State → Prop
  | .nop, s, t => t = s.completedAs t
  | .clear, s, t =>
    t = { s.completedAs t with
          freq := t.freq, numSyms := t.numSyms, nodeCount := t.nodeCount, treeRoot := t.treeRoot, code := t.code,
          codeCount := t.codeCount, dtRoot := t.dtRoot, dtNodes := t.dtNodes, dstLen := t.dstLen,
          decBitpos := t.decBitpos }
  | .count, s, t => t = { s.completedAs t with freq := t.freq, list := t.list, numSyms := t.numSyms }
  | .build, s, t => t = { s.completedAs t with node := t.node, nodeCount := t.nodeCount, treeRoot := t.treeRoot }
  | .derive, s, t => t = { s.completedAs t with code := t.code, codeCount := t.codeCount }
  | .materialize, s, t => t = { s.completedAs t with dt := t.dt, dtRoot := t.dtRoot, dtNodes := t.dtNodes }
  | .serialize, s, t =>
    t = { s.completedAs t with
          mem := { s.mem with bitbuf := t.mem.bitbuf }, bitLen := t.bitLen, bitCursor := t.bitCursor }
  | .encode, s, t =>
    t = { s.completedAs t with
          freq := t.freq, list := t.list, numSyms := t.numSyms, node := t.node, nodeCount := t.nodeCount,
          treeRoot := t.treeRoot, code := t.code, codeCount := t.codeCount, dt := t.dt, dtRoot := t.dtRoot,
          dtNodes := t.dtNodes, mem := { s.mem with bitbuf := t.mem.bitbuf }, bitLen := t.bitLen,
          bitCursor := t.bitCursor }
  | .canon, s, t => t = { s.completedAs t with code := t.code, codeCount := t.codeCount }
  | .decode, s, t =>
    t = { s.completedAs t with
          mem := { s.mem with dst := t.mem.dst }, dstLen := t.dstLen, decBitpos := t.decBitpos }

/-- Two states agree on what R93 says the command reads, the parameters and the sampled SINGLE_ONEBIT among it. -/
def SameOperands : Instr → State → State → Prop
  | .nop, _, _ => True
  | .clear, _, _ => True
  | .count, s, s' => s.params = s'.params ∧ s.srcLen = s'.srcLen ∧ s.source = s'.source
  | .build, s, s' => s.listed = s'.listed ∧ s.freq = s'.freq
  | .derive, s, s' =>
    s.treeRoot = s'.treeRoot ∧ s.arena = s'.arena ∧ s.sampledCtrl.singleOnebit = s'.sampledCtrl.singleOnebit
  | .materialize, s, s' => s.code = s'.code
  | .serialize, s, s' =>
    s.params = s'.params ∧ s.srcLen = s'.srcLen ∧ s.source = s'.source ∧ s.code = s'.code
  | .encode, s, s' =>
    s.params = s'.params ∧ s.srcLen = s'.srcLen ∧ s.source = s'.source ∧
      s.sampledCtrl.singleOnebit = s'.sampledCtrl.singleOnebit
  | .canon, s, s' => s.canonN = s'.canonN ∧ s.canonInput = s'.canonInput
  | .decode, s, s' =>
    s.params = s'.params ∧ s.bitLen = s'.bitLen ∧ s.stream = s'.stream ∧ s.dtRoot = s'.dtRoot ∧ s.dt = s'.dt

/-- The code tables, trees and frequencies two states hold as valid agree. -/
def SameDerived (t t' : State) : Prop :=
  t.freq = t'.freq ∧ t.numSyms = t'.numSyms ∧ t.listed = t'.listed ∧ t.treeRoot = t'.treeRoot ∧ t.nodeCount = t'.nodeCount ∧
    t.arena = t'.arena ∧ t.code = t'.code ∧ t.codeCount = t'.codeCount

/-- The decode trees two states hold as valid agree (R156). -/
def SameDecodeTree (t t' : State) : Prop :=
  t.dtRoot = t'.dtRoot ∧ t.dtNodes = t'.dtNodes ∧ t.dt.take t.dtNodes.toNat = t'.dt.take t'.dtNodes.toNat

/-- Two runs `s` to `t` and `s'` to `t'` write the same to the bit buffer and its registers: BIT_LEN agrees, BIT_CURSOR agrees
or both keep theirs, and each bit agrees (each one below BIT_LEN does) or both keep theirs. -/
def SameBuffer (s s' t t' : State) : Prop :=
  t.bitLen = t'.bitLen ∧
    (t.bitCursor = t'.bitCursor ∨ (t.bitCursor = s.bitCursor ∧ t'.bitCursor = s'.bitCursor)) ∧
    (∀ p, p < t.bitLen.toNat → cellRead t.mem.bitbuf p = cellRead t'.mem.bitbuf p) ∧
    ∀ p, cellRead t.mem.bitbuf p = cellRead t'.mem.bitbuf p ∨
      (cellRead t.mem.bitbuf p = cellRead s.mem.bitbuf p ∧ cellRead t'.mem.bitbuf p = cellRead s'.mem.bitbuf p)

/-- Two runs `s` to `t` and `s'` to `t'` of a command that was not turned away by its range check agree on what R93 says it
writes. -/
def SameResults (i : Instr) (s s' t t' : State) : Prop :=
  match i, t, t' with
  | .nop, _, _ => True
  | .clear, t, t' =>
    t.freq = t'.freq ∧ t.numSyms = t'.numSyms ∧ t.treeRoot = t'.treeRoot ∧ t.nodeCount = t'.nodeCount ∧ t.code = t'.code ∧
      t.codeCount = t'.codeCount ∧ t.dtRoot = t'.dtRoot ∧ t.dtNodes = t'.dtNodes ∧ t.dstLen = t'.dstLen ∧
      t.decBitpos = t'.decBitpos
  | .count, t, t' => t.freq = t'.freq ∧ t.numSyms = t'.numSyms ∧ t.listed = t'.listed
  | .build, t, t' => t.treeRoot = t'.treeRoot ∧ t.nodeCount = t'.nodeCount ∧ t.arena = t'.arena
  | .derive, t, t' => t.code = t'.code ∧ t.codeCount = t'.codeCount
  | .materialize, t, t' => SameDecodeTree t t'
  | .serialize, t, t' => SameBuffer s s' t t'
  | .encode, t, t' => SameDerived t t' ∧ SameDecodeTree t t' ∧ SameBuffer s s' t t'
  | .canon, t, t' => t.code = t'.code ∧ t.codeCount = t'.codeCount
  | .decode, t, t' =>
    t.dstLen = t'.dstLen ∧ t.decBitpos = t'.decBitpos ∧
      (∀ p, p < t.dstLen.toNat → cellRead t.mem.dst p = cellRead t'.mem.dst p) ∧
      ∀ p, t.dstLen.toNat ≤ p →
        cellRead t.mem.dst p = cellRead s.mem.dst p ∧ cellRead t'.mem.dst p = cellRead s'.mem.dst p

/-! ## Accesses and runs -/

/-- An offset at which a write is dropped while BUSY: CMD, SRC_LEN, BIT_LEN, BIT_CURSOR, CANON_N, or an entry of the CANON, SRC or
BITBUF window (R61, R70). -/
def NamesCommandInput (p : Params) (off : Nat) : Prop :=
  off ∈ [0x008, 0x010, 0x014, 0x018, 0x01C] ∨ (0x1800 ≤ off ∧ off < 0x1C00) ∨
    (0x200000 ≤ off ∧ off < 0x300000 ∧ off < 0x200000 + p.srcBytes) ∨
    (0x1000000 ≤ off ∧ off < 0x2000000 ∧ 8 * off < 8 * 0x1000000 + p.bitbufBits)

/-- The input the next step takes, if it takes one: none when the running command is due (R71, log 8). -/
def State.nextInput (s : State) : Option Input :=
  match s.engine with
  | .idle => s.inputs.head?
  | .busy _ _ 0 => none
  | .busy _ _ (_ + 1) => s.inputs.head?

/-- The next step takes a 32-bit write of `v` at an offset. -/
def State.takesWrite (s : State) (off : Nat) (v : Word) : Prop :=
  s.nextInput = some (.access (.write .word (s.params.base + off) v))

/-- The run of a state takes no reset and no access that misses the window: each input to come is an access at some offset. -/
def AccessesOnly (s : State) : Prop :=
  ∀ i ∈ s.inputs, ∃ a, i = .access a ∧ (windowOffset s.params a.addr).isSome = true

end Sys2Proof.Machine
end

