-- ==== Sys2Proof/Certificates/Slice0/Obligations.lean ====
section
/-! DEFINITION. The statements about the model, for the provers. Each docstring names the rule of spec/ it formalises; free
values (log 1, log 3) are constrained by none. -/

open Sys2Proof Sys2Proof.Machine

/-! ## Encoding -/

/-- R91: the ten command words, written out, decode to their commands. -/
def Obligations.OpcodeWordsDecodeToTheirCommands : Prop :=
  decode 0x00000000#32 = .command .nop ∧ decode 0x00000001#32 = .command .clear ∧
  decode 0x00000002#32 = .command .count ∧ decode 0x00000003#32 = .command .build ∧
  decode 0x00000004#32 = .command .derive ∧ decode 0x00000005#32 = .command .materialize ∧
  decode 0x00000006#32 = .command .serialize ∧ decode 0x00000007#32 = .command .encode ∧
  decode 0x00000008#32 = .command .canon ∧ decode 0x00000009#32 = .command .decode

/-- R90, R91: decoding the word of a command gives the command back, and no other word gives it. -/
def Obligations.CommandWordsAreUnique : Prop :=
  ∀ (i : Instr) (w : Word), decode w = .command i ↔ w = encode i

/-- R92: OP at or above 0x0A, or a bit above OP set, decodes to no command. The engine accepts such a word like any other and
finishes it at once: ILLEGAL_CMD, ERR_INFO = w, and no other state of the spec changes. -/
def Obligations.IllegalWordFinishesAtOnce : Prop :=
  ∀ (s : State) (addr : Nat) (w : Word), (0x0A ≤ (w.extractLsb' 0 8).toNat ∨ w.extractLsb' 8 24 ≠ 0#24) →
    decode w = .illegalCmd w ∧
    (s.engine = .idle →
      (hostAccess (.write .word addr w) 0x008 s).engine = .busy w s.ctrl 0 ∧
      step (hostAccess (.write .word addr w) 0x008 s) = .next { s with
        result := .illegalCmd, errInfo := w, done := true, delays := s.delays.tail, response := none,
        tick := s.tick + 1 })

/-- R98: the sixteen words of a CODE entry, at 0x4000 + 64x: PRESENT and LEN, the code as a number with its first bit most
significant, zeros. -/
def Obligations.CodeEntryWordsHoldTheCode : Prop :=
  (∀ (s : State) (addr : Nat) (x : Byte) (k : Nat), s.engine = .idle → k < 16 →
    (hostAccess (.read .word addr) (0x4000 + 64 * x.toNat + 4 * k) s).response =
      some (codeWord (SymTable.get s.code x) k)) ∧
  (∀ k, codeWord none k = 0#32) ∧
  ∀ c : Code, c.length ≤ 255 →
    codeWord (some c) 0 = 0x80000000#32 ||| BitVec.ofNat 32 c.length ∧
    (∀ j, j < c.length →
      (codeWord (some c) (1 + (c.length - 1 - j) / 32)).getLsbD ((c.length - 1 - j) % 32) = c.getD j false) ∧
    (∀ i, c.length ≤ i → i < 256 → (codeWord (some c) (1 + i / 32)).getLsbD (i % 32) = false) ∧
    (∀ k, 9 ≤ k → codeWord (some c) k = 0#32)

/-- R96, R97, R99: the words of FREQ, LIST, NODE and descriptor entries, field by field, and zeros in every other bit; each at
its offset (R61), read while IDLE, for the valid entries. -/
def Obligations.TableEntriesReadThroughTheWindow : Prop :=
  (∀ (s : State) (addr : Nat), s.engine = .idle →
    (∀ x : Byte, (hostAccess (.read .word addr) (0x1000 + 4 * x.toNat) s).response = some (SymTable.get s.freq x)) ∧
    (∀ i y, i < 256 → i < s.numSyms.toNat → s.list[i]? = some y →
      (hostAccess (.read .word addr) (0x1400 + 4 * i) s).response = some (listWord y)) ∧
    (∀ i n, i < 511 → i < s.nodeCount.toNat → s.node[i]? = some n →
      (hostAccess (.read .word addr) (0x2000 + 8 * i) s).response = some n.word0 ∧
      (hostAccess (.read .word addr) (0x2000 + 8 * i + 4) s).response = some n.prio) ∧
    (∀ i b, i < 65536 → i < s.dtNodes.toNat → s.dt[i]? = some b →
      (hostAccess (.read .word addr) (0x100000 + 8 * i) s).response = some b.child0.toWord ∧
      (hostAccess (.read .word addr) (0x100000 + 8 * i + 4) s).response = some b.child1.toWord)) ∧
  (∀ x : Byte, (listWord x).extractLsb' 0 8 = x ∧ (listWord x).extractLsb' 8 24 = 0#24) ∧
  (∀ (x : Byte) (p : Word), (Node.leaf x p).word0.extractLsb' 0 8 = x ∧
    (Node.leaf x p).word0.extractLsb' 8 24 = 0#24 ∧ (Node.leaf x p).prio = p) ∧
  (∀ (a b : Nat) (p : Word), a < 512 → b < 512 →
    (Node.internal a b p).word0.extractLsb' 31 1 = 1#1 ∧
    ((Node.internal a b p).word0.extractLsb' 0 9).toNat = a ∧
    ((Node.internal a b p).word0.extractLsb' 16 9).toNat = b ∧
    (Node.internal a b p).word0.extractLsb' 9 7 = 0#7 ∧ (Node.internal a b p).word0.extractLsb' 25 6 = 0#6 ∧
    (Node.internal a b p).prio = p) ∧
  Desc.absent.toWord = 0#32 ∧
  (∀ i, i < 65536 → ((Desc.branch i).toWord.extractLsb' 0 16).toNat = i ∧
    (Desc.branch i).toWord.extractLsb' 16 16 = 1#16) ∧
  (∀ x : Byte, (Desc.leaf x).toWord.extractLsb' 0 16 = x.setWidth 16 ∧ (Desc.leaf x).toWord.extractLsb' 16 16 = 2#16)

/-! ## The step -/

/-- A step runs the decoded instruction: R22, R71; the model's delay is log 8. -/
def Obligations.StepRunsTheAcceptedCommand : Prop :=
  (∀ (s : State) (w : Word) (c : Ctrl) (d : Nat) (i : Instr), s.engine = .busy w c d → (d = 0 ∨ s.inputs = []) →
    decode w = .command i → step s = exec i s) ∧
  ∀ (s : State) (w : Nat) (i : Instr), decode (BitVec.ofNat 32 w) = .command i →
    step (s.withFetchWord 32 w) = exec i (s.withFetchWord 32 w)

/-- R71, R233: otherwise a step performs the host's next access, IDLE or BUSY, and nothing else; while BUSY that uses up one of the
model's delay (log 8). An IDLE machine without an input keeps its whole state. That releasing reset changes only the line is the
model's choice (log 13). -/
def Obligations.StepPerformsTheNextAccess : Prop :=
  (∀ (s : State) (a : Access) (off : Nat) (rest : List Input), s.inputs = .access a :: rest → s.resetLine = false →
    windowOffset s.params a.addr = some off →
    (s.engine = .idle → step s = .next (hostAccess a off { s with inputs := rest })) ∧
    ∀ (w : Word) (c : Ctrl) (d : Nat), s.engine = .busy w c (d + 1) →
      step s = .next (hostAccess a off { s with inputs := rest, engine := .busy w c d })) ∧
  (∀ s : State, s.engine = .idle → s.inputs = [] → step s = .next s) ∧
  ∀ (s : State) (rest : List Input), s.inputs = .reset false :: rest →
    (s.engine = .idle → step s = .next { s with inputs := rest, resetLine := false }) ∧
    ∀ (w : Word) (c : Ctrl) (d : Nat), s.engine = .busy w c (d + 1) →
      step s = .next { s with inputs := rest, engine := .busy w c d, resetLine := false }

/-- R26: CMD reads 0, in BUSY states too (that BUSY does not make the read unspecified is log 14); a write while IDLE is accepted, which samples CTRL, makes the engine BUSY with the word and clears
ERR_INFO; a write while BUSY is dropped and sets OVR. DONE is not cleared (R226). The latency is the model's (log 8). -/
def Obligations.CmdWriteStartsACommandOrIsDropped : Prop :=
  ∀ (s : State) (addr : Nat) (v : Word),
    (hostAccess (.read .word addr) 0x008 s).response = some 0#32 ∧
    (s.engine = .idle → hostAccess (.write .word addr v) 0x008 s =
      { s with engine := .busy v s.ctrl (s.latency v), delays := s.delays.tail, errInfo := 0#32, response := none }) ∧
    (s.busy = true → hostAccess (.write .word addr v) 0x008 s = { s with ovr := true, response := none })

/-- R70, R72: while BUSY, a host access changes no state but CTRL, the flags DONE, OVR and ACCERR, and the bus, so a command's
inputs stay as they were at acceptance; an aligned word write to CMD, SRC_LEN, BIT_LEN, BIT_CURSOR or CANON_N, or to the CANON,
SRC or BITBUF window, is dropped: it sets OVR and nothing else. -/
def Obligations.BusyAccessesKeepEveryCommandInput : Prop :=
  (∀ (s : State) (a : Access) (off : Nat), s.busy = true →
    hostAccess a off s =
      { s with
        ctrl := (hostAccess a off s).ctrl, done := (hostAccess a off s).done, ovr := (hostAccess a off s).ovr,
        accerr := (hostAccess a off s).accerr, response := (hostAccess a off s).response,
        tick := (hostAccess a off s).tick }) ∧
  ∀ (s : State) (addr off : Nat) (v : Word), s.busy = true → off % 4 = 0 →
    NamesCommandInput s.params off →
    hostAccess (.write .word addr v) off s = { s with ovr := true, response := none }

/-- R27, R64, R70, R226, R257: writes to CTRL and STATUS are performed in either phase: CTRL stores bits [1:0]; STATUS clears the
flags DONE, OVR and ACCERR whose bit is written 1 and ignores every other bit. -/
def Obligations.CtrlAndStatusWritesAreAlwaysPerformed : Prop :=
  ∀ (s : State) (addr : Nat) (v : Word),
    hostAccess (.write .word addr v) 0x004 s =
      { s with ctrl := { irqEn := v.getLsbD 0, singleOnebit := v.getLsbD 1 }, response := none } ∧
    hostAccess (.write .word addr v) 0x00C s =
      { s with
        done := s.done && !v.getLsbD 1, ovr := s.ovr && !v.getLsbD 2, accerr := s.accerr && !v.getLsbD 3,
        response := none }

/-- R62: an access that is not an aligned 32-bit access sets ACCERR, performs no write, has no other effect and reads 0. -/
def Obligations.UnsupportedAccessOnlySetsAccerr : Prop :=
  ∀ (s : State) (w : Width) (addr off : Nat) (v : Word), (w ≠ .word ∨ off % 4 ≠ 0) →
    hostAccess (.read w addr) off s = { s with accerr := true, response := some 0#32 } ∧
    hostAccess (.write w addr v) off s = { s with accerr := true, response := none }

/-- R63: an aligned 32-bit access at a reserved offset, or at one that names no entry, reads 0 and ignores writes. It is said of
BUSY states too: that such an offset of the NODE, DST or BITBUF window reads 0 also while BUSY is log 14 (DEDUCED). -/
def Obligations.UnnamedOffsetsReadZeroAndIgnoreWrites : Prop :=
  ∀ (s : State) (addr off : Nat) (v : Word), s.params.wf = true → off % 4 = 0 →
    ((0x054 ≤ off ∧ off < 0x1000) ∨ (0x1C00 ≤ off ∧ off < 0x2000) ∨ (0x2FF8 ≤ off ∧ off < 0x4000) ∨
      (0x8000 ≤ off ∧ off < 0x100000) ∨ (0x180000 ≤ off ∧ off < 0x200000) ∨
      (0x200000 + s.params.srcBytes ≤ off ∧ off < 0x300000) ∨
      (0x300000 + s.params.dstBytes ≤ off ∧ off < 0x1000000) ∨
      (0x1000000 + s.params.bitbufBits / 8 ≤ off ∧ off < 0x2000000)) →
    hostAccess (.read .word addr) off s = { s with response := some 0#32, tick := s.tick + 1 } ∧
    hostAccess (.write .word addr v) off s = { s with response := none }

/-- R24: ID reads 0x48554631 in every state, at reset and after; writes are ignored. -/
def Obligations.IdRegisterIsConstant : Prop :=
  ∀ (s : State) (addr : Nat) (v : Word),
    (hostAccess (.read .word addr) 0x000 s).response = some 0x48554631#32 ∧
    hostAccess (.write .word addr v) 0x000 s = { s with response := none }

/-- R23, R25, R27 to R41, R64, R69, R70. In either phase: an aligned word read at any offset changes only the bus, and the model's
tick; CTRL, STATUS (BUSY being the phase), SRC_LEN, CANON_N and the CFG registers read as they are; in NUM_SYMS, NODE_COUNT,
TREE_ROOT, CODE_COUNT, DT_ROOT and DT_NODES the bits their rules do not name read as 0; a write of an RO register, of a table or of
a DST word is ignored. While IDLE: every other readable register reads as it is, and a write of an RW register stores
the word and changes nothing else. And R220: the thirteen result codes, which STATUS shows in bits 15 to 8. -/
def Obligations.RegistersReadAndWriteWhileIdle : Prop :=
  (ResultCode.ok.toByte = 0x00#8 ∧ ResultCode.okTruncated.toByte = 0x01#8 ∧ ResultCode.illegalCmd.toByte = 0x10#8 ∧
    ResultCode.lenRange.toByte = 0x11#8 ∧ ResultCode.canonZeroLen.toByte = 0x12#8 ∧
    ResultCode.canonLenTooLong.toByte = 0x13#8 ∧ ResultCode.canonDupSymbol.toByte = 0x14#8 ∧
    ResultCode.canonOversub.toByte = 0x15#8 ∧ ResultCode.collision.toByte = 0x16#8 ∧
    ResultCode.encNoCode.toByte = 0x17#8 ∧ ResultCode.bitbufOvf.toByte = 0x18#8 ∧
    ResultCode.decInvalid.toByte = 0x19#8 ∧ ResultCode.dstOvf.toByte = 0x1A#8) ∧
  ∀ (s : State) (addr : Nat),
    (∀ off, off % 4 = 0 →
      ∃ v, hostAccess (.read .word addr) off s = { s with response := some v, tick := s.tick + 1 }) ∧
    (∀ off v, (off, v) ∈
      [ (0x010, s.srcLen), (0x01C, s.canonN), (0x044, BitVec.ofNat 32 s.params.srcBytes),
        (0x048, BitVec.ofNat 32 s.params.dstBytes), (0x04C, BitVec.ofNat 32 s.params.bitbufBits), (0x050, 31#32) ] →
      (hostAccess (.read .word addr) off s).response = some v) ∧
    (∃ w, (hostAccess (.read .word addr) 0x004 s).response = some w ∧ w.getLsbD 0 = s.ctrl.irqEn ∧
      w.getLsbD 1 = s.ctrl.singleOnebit ∧ w.extractLsb' 2 30 = 0#30) ∧
    (∃ w, (hostAccess (.read .word addr) 0x00C s).response = some w ∧ w.getLsbD 0 = s.busy ∧ w.getLsbD 1 = s.done ∧
      w.getLsbD 2 = s.ovr ∧ w.getLsbD 3 = s.accerr ∧ w.extractLsb' 4 4 = 0#4 ∧
      w.extractLsb' 8 8 = s.result.toByte ∧ w.extractLsb' 16 16 = 0#16) ∧
    (∀ (off : Nat) (named : Word), (off, named) ∈
      [ (0x024, 0x000001FF#32), (0x028, 0x000003FF#32), (0x02C, 0x800001FF#32), (0x030, 0x000001FF#32),
        (0x034, 0x0003FFFF#32), (0x038, 0x0001FFFF#32) ] →
      ∃ w, (hostAccess (.read .word addr) off s).response = some w ∧ w &&& ~~~named = 0#32) ∧
    (∀ off, off % 4 = 0 →
      ((0x020 ≤ off ∧ off < 0x054) ∨ (0x1000 ≤ off ∧ off < 0x1800) ∨ (0x2000 ≤ off ∧ off < 0x2FF8) ∨
        (0x4000 ≤ off ∧ off < 0x8000) ∨ (0x100000 ≤ off ∧ off < 0x180000) ∨ (0x300000 ≤ off ∧ off < 0x400000)) →
      ∀ v : Word, hostAccess (.write .word addr v) off s = { s with response := none }) ∧
    (s.engine = .idle →
      (∀ off v, (off, v) ∈
        [ (0x014, s.bitLen), (0x018, s.bitCursor), (0x020, s.dstLen), (0x024, s.numSyms.setWidth 32),
          (0x028, s.nodeCount.setWidth 32), (0x030, s.codeCount.setWidth 32), (0x034, s.dtRoot.toWord),
          (0x038, s.dtNodes.setWidth 32), (0x03C, s.decBitpos), (0x040, s.errInfo) ] →
        (hostAccess (.read .word addr) off s).response = some v) ∧
      (∃ w, (hostAccess (.read .word addr) 0x02C s).response = some w ∧ w.extractLsb' 9 22 = 0#22 ∧
        w.getLsbD 31 = s.treeRoot.isSome ∧ w.extractLsb' 0 9 = s.treeRoot.getD 0#9) ∧
      ∀ v : Word,
        hostAccess (.write .word addr v) 0x010 s = { s with srcLen := v, response := none } ∧
        hostAccess (.write .word addr v) 0x014 s = { s with bitLen := v, response := none } ∧
        hostAccess (.write .word addr v) 0x018 s = { s with bitCursor := v, response := none } ∧
        hostAccess (.write .word addr v) 0x01C s = { s with canonN := v, response := none })

/-- R65: little-endian byte lanes. A write of SRC word `k` while IDLE sets its four bytes and nothing else; a read of SRC or DST
word `k` returns its four bytes, of SRC in either phase (R70). And R64, R95: a CANON entry is stored whole while IDLE, and read whole in
either phase (R70). -/
def Obligations.MemoryWindowsStoreTheirLanes : Prop :=
  (∀ (s : State) (addr k : Nat) (v : Word), s.params.wf = true → s.engine = .idle → 4 * k < s.params.srcBytes →
    (∀ j, j < 4 → cellRead (hostAccess (.write .word addr v) (0x200000 + 4 * k) s).mem.src (4 * k + j) =
      some (v.extractLsb' (8 * j) 8)) ∧
    (∀ i, (i < 4 * k ∨ 4 * k + 4 ≤ i) →
      cellRead (hostAccess (.write .word addr v) (0x200000 + 4 * k) s).mem.src i = cellRead s.mem.src i) ∧
    hostAccess (.write .word addr v) (0x200000 + 4 * k) s =
      { s with
        mem := { s.mem with src := (hostAccess (.write .word addr v) (0x200000 + 4 * k) s).mem.src }
        response := none }) ∧
  (∀ (s : State) (addr k : Nat), s.params.wf = true → 4 * k < s.params.srcBytes →
    ∃ w, (hostAccess (.read .word addr) (0x200000 + 4 * k) s).response = some w ∧
      ∀ j, j < 4 → w.extractLsb' (8 * j) 8 = s.srcByte (4 * k + j)) ∧
  (∀ (s : State) (addr k : Nat), s.params.wf = true → s.engine = .idle → 4 * k < s.params.dstBytes →
    ∃ w, (hostAccess (.read .word addr) (0x300000 + 4 * k) s).response = some w ∧
      ∀ j, j < 4 → w.extractLsb' (8 * j) 8 = s.dstByte (4 * k + j)) ∧
  (∀ (s : State) (addr i : Nat), i < 256 →
    (hostAccess (.read .word addr) (0x1800 + 4 * i) s).response = some (s.canonEntry i)) ∧
  ∀ (s : State) (addr i : Nat) (v : Word), s.engine = .idle → i < 256 →
    cellRead (hostAccess (.write .word addr v) (0x1800 + 4 * i) s).mem.canon i = some v ∧
    (∀ j, j ≠ i → cellRead (hostAccess (.write .word addr v) (0x1800 + 4 * i) s).mem.canon j = cellRead s.mem.canon j) ∧
    hostAccess (.write .word addr v) (0x1800 + 4 * i) s =
      { s with
        mem := { s.mem with canon := (hostAccess (.write .word addr v) (0x1800 + 4 * i) s).mem.canon }
        response := none }

/-- R66: BITBUF words, least significant bit first. A write of word `k` while IDLE sets its 32 bits and nothing else; a read
returns them. -/
def Obligations.BitbufWordsAreLeastSignificantBitFirst : Prop :=
  ∀ (s : State) (addr k : Nat), s.params.wf = true → s.engine = .idle → 32 * k < s.params.bitbufBits →
    (∃ w, (hostAccess (.read .word addr) (0x1000000 + 4 * k) s).response = some w ∧
      ∀ j, j < 32 → w.getLsbD j = s.bit (32 * k + j)) ∧
    ∀ v : Word,
      (∀ j, j < 32 → cellRead (hostAccess (.write .word addr v) (0x1000000 + 4 * k) s).mem.bitbuf (32 * k + j) =
        some (v.getLsbD j)) ∧
      (∀ i, (i < 32 * k ∨ 32 * k + 32 ≤ i) →
        cellRead (hostAccess (.write .word addr v) (0x1000000 + 4 * k) s).mem.bitbuf i = cellRead s.mem.bitbuf i) ∧
      hostAccess (.write .word addr v) (0x1000000 + 4 * k) s =
        { s with
          mem := { s.mem with bitbuf := (hostAccess (.write .word addr v) (0x1000000 + 4 * k) s).mem.bitbuf }
          response := none }

/-- R54: the value of every piece of state after reset. Memory cells hold no value: a read of one is a free value (R55, log 1).
Nothing is said of the parameters, which are no state (log 4). -/
def Obligations.ResetTableHolds : Prop :=
  State.reset.engine = .idle ∧ State.reset.ctrl.toWord = 0#32 ∧ State.reset.statusWord = 0#32 ∧
  State.reset.srcLen = 0#32 ∧ State.reset.bitLen = 0#32 ∧ State.reset.bitCursor = 0#32 ∧ State.reset.canonN = 0#32 ∧
  State.reset.dstLen = 0#32 ∧ State.reset.numSyms = 0#9 ∧ State.reset.nodeCount = 0#10 ∧ State.reset.codeCount = 0#9 ∧
  State.reset.dtNodes = 0#17 ∧ State.reset.decBitpos = 0#32 ∧ State.reset.errInfo = 0#32 ∧
  treeRootWord State.reset.treeRoot = 0#32 ∧ State.reset.dtRoot.toWord = 0#32 ∧
  (∀ x, SymTable.get State.reset.freq x = 0#32 ∧ SymTable.get State.reset.code x = none) ∧ State.reset.irq = false ∧
  (∀ i, cellRead State.reset.mem.src i = none ∧ cellRead State.reset.mem.dst i = none ∧
    cellRead State.reset.mem.bitbuf i = none ∧ cellRead State.reset.mem.canon i = none) ∧
  State.reset.readReg .id = 0x48554631#32 ∧
  State.reset.readReg .cfgSrcBytes = BitVec.ofNat 32 State.reset.params.srcBytes ∧
  State.reset.readReg .cfgDstBytes = BitVec.ofNat 32 State.reset.params.dstBytes ∧
  State.reset.readReg .cfgBitbufBits = BitVec.ofNat 32 State.reset.params.bitbufBits ∧
  State.reset.readReg .cfgCanonLmax = 31#32

/-- R250: asserting reset ends a running command without completion, gives every piece of state its reset value (R54) and drives
IRQ low. What is not the spec's state (the parameters, the inputs and delays to come, the tick) is kept or moves on. -/
def Obligations.ResetEventGivesResetValues : Prop :=
  ∀ (s : State) (rest : List Input), s.inputs = .reset true :: rest →
    (s.engine = .idle ∨ ∃ w c d, s.engine = .busy w c (d + 1)) →
    ∃ t, step s = .next t ∧ t.irq = false ∧
      t = { State.reset with
            params := s.params, inputs := rest, delays := s.delays, tick := s.tick + 1, resetLine := true }

/-- R225: IRQ is high after a completion if and only if IRQ_EN is 1 then; a write of 1 to DONE, or of 0 to IRQ_EN, leaves it low; a
write of 1 to IRQ_EN makes it what DONE is. It goes high only by the completion of a command or by a host access that leaves DONE
as it was (a write of CTRL that enables it). -/
def Obligations.IrqRisesOnlyByCompletionOrEnable : Prop :=
  (∀ s t : State, s.nextInput ≠ some (.reset true) → step s = .next t → s.busy = true → t.busy = false →
    t.irq = s.ctrl.irqEn) ∧
  (∀ (i : Instr) (s t : State), exec i s = .next t → t.irq = s.ctrl.irqEn) ∧
  (∀ (s : State) (addr : Nat) (v : Word),
    (v.getLsbD 1 = true → (hostAccess (.write .word addr v) 0x00C s).irq = false) ∧
    (v.getLsbD 0 = false → (hostAccess (.write .word addr v) 0x004 s).irq = false) ∧
    (v.getLsbD 0 = true → (hostAccess (.write .word addr v) 0x004 s).irq = s.done)) ∧
  ∀ s t : State, step s = .next t → s.irq = false → t.irq = true →
    (s.busy = true ∧ t.busy = false ∧ t.ctrl = s.ctrl) ∨
    (s.done = true ∧ t.done = true ∧ s.ctrl.irqEn = false ∧ t.ctrl.irqEn = true ∧ t.result = s.result)

/-- R26, R53, R62, R70, R221, R227, for a step that takes no reset. DONE rises and RESULT changes only by a completion, which changes
neither OVR nor ACCERR nor CTRL; OVR rises only while BUSY, by an aligned write to a command's input; ACCERR rises only by an
access that is not an aligned 32-bit access; each of the three falls only by a write of 1 to its bit of STATUS. BUSY rises only by
a write of CMD, which starts the command written (with the model's latency, log 8), clears ERR_INFO and keeps DONE (R226). -/
def Obligations.FlagsChangeOnlyAsStated : Prop :=
  ∀ s t : State, s.nextInput ≠ some (.reset true) → step s = .next t →
    (s.done = false → t.done = true → s.busy = true ∧ t.busy = false) ∧
    (s.done = true → t.done = false → ∃ v, s.takesWrite 0x00C v ∧ v.getLsbD 1 = true) ∧
    (s.ovr = false → t.ovr = true → s.busy = true ∧ t.busy = true ∧
      ∃ off v, s.takesWrite off v ∧ off % 4 = 0 ∧ NamesCommandInput s.params off) ∧
    (s.ovr = true → t.ovr = false → ∃ v, s.takesWrite 0x00C v ∧ v.getLsbD 2 = true) ∧
    (s.accerr = false → t.accerr = true →
      ∃ w off, (w ≠ .word ∨ off % 4 ≠ 0) ∧ off < 0x2000000 ∧
        (s.nextInput = some (.access (.read w (s.params.base + off))) ∨
          ∃ v, s.nextInput = some (.access (.write w (s.params.base + off) v)))) ∧
    (s.accerr = true → t.accerr = false → ∃ v, s.takesWrite 0x00C v ∧ v.getLsbD 3 = true) ∧
    (s.busy = false → t.busy = true → ∃ w, s.takesWrite 0x008 w ∧ t.engine = .busy w s.ctrl (s.latency w) ∧
      t.errInfo = 0#32 ∧ t.done = s.done ∧ t.result = s.result) ∧
    (s.busy = true → t.busy = false → t.done = true ∧ t.ovr = s.ovr ∧ t.accerr = s.accerr ∧ t.ctrl = s.ctrl) ∧
    (t.result ≠ s.result → s.busy = true ∧ t.busy = false ∧ t.done = true)

/-- R260: every accepted command reaches its completion step after boundedly many steps, whatever accesses the host makes
meanwhile; so the host's loop `wait` ends with BUSY read as 0, and `run X` ends with the command done (R104). The bound counts the
model's delay (log 8), and how a host program runs is log 17. -/
def Obligations.AcceptedCommandsComplete : Prop :=
  (∀ (s : State) (w : Word) (c : Ctrl) (d : Nat), s.engine = .busy w c d → s.resetLine = false → AccessesOnly s →
    ∃ k t, k ≤ d + 1 ∧ Host.Core.run Sys2Proof.core k s = .next t ∧ t.busy = false ∧ t.done = true) ∧
  (∀ s : State, s.resetLine = false →
    ∃ t w, wait s = .next t ∧ t.response = some w ∧ w.getLsbD 0 = false ∧ t.busy = false ∧
      (s.busy = true → t.done = true)) ∧
  ∀ (s : State) (i : Instr), s.resetLine = false → s.engine = .idle →
    ∃ t, performAll s (run s.params i) = .next t ∧ t.busy = false ∧ t.done = true

/-! ## All commands -/

/-- R93: each command changes nothing but what it is said to write, STATUS and ERR_INFO. -/
def Obligations.CommandsWriteOnlyTheirOutputs : Prop :=
  ∀ (i : Instr) (s t : State), exec i s = .next t → WritesOnly i s t

/-- R223: a command's result, ERR_INFO and written state are a function of what it reads and of the CTRL value sampled. (ERR_INFO
is 0 in every state a command runs from, R221; a LEN_RANGE fault writes nothing, R222.) -/
def Obligations.CommandsAreFunctionsOfWhatTheyRead : Prop :=
  ∀ (i : Instr) (s s' t t' : State), SameOperands i s s' → s.errInfo = s'.errInfo →
    exec i s = .next t → exec i s' = .next t' →
    t.result = t'.result ∧ t.errInfo = t'.errInfo ∧ (t.result ≠ .lenRange → SameResults i s s' t t')

/-- R221: each command, in every state, reaches the completion step: DONE, IDLE, OVR, ACCERR and CTRL unchanged; and after a
success ERR_INFO is as acceptance left it, 0 (R40). -/
def Obligations.EveryCommandReachesItsCompletionStep : Prop :=
  ∀ (i : Instr) (s : State), ∃ t : State, exec i s = .next t ∧ t.done = true ∧ t.busy = false ∧ t.ovr = s.ovr ∧
    t.accerr = s.accerr ∧ t.ctrl = s.ctrl ∧ (t.result.isFault = false → t.errInfo = s.errInfo)

/-- R222, R224 item 1: a length register above its capacity faults LEN_RANGE with the register's offset, before any other step,
and nothing else changes. -/
def Obligations.OverlongInputsFaultAndChangeNothing : Prop :=
  ∀ s : State,
    (s.params.srcBytes < s.srcLen.toNat → ∀ i, (i = .count ∨ i = .serialize ∨ i = .encode) →
      exec i s = .next { s with
        result := .lenRange, errInfo := 0x010#32, done := true, engine := .idle, tick := s.tick + 1 }) ∧
    (s.params.bitbufBits < s.bitLen.toNat →
      exec .decode s = .next { s with
        result := .lenRange, errInfo := 0x014#32, done := true, engine := .idle, tick := s.tick + 1 }) ∧
    (256 < s.canonN.toNat →
      exec .canon s = .next { s with
        result := .lenRange, errInfo := 0x01C#32, done := true, engine := .idle, tick := s.tick + 1 })

/-! ## NOP, CLEAR -/

/-- R120: NOP, word 0x00000000, completes with OK and changes nothing else. -/
def Obligations.NopOnlyCompletes : Prop :=
  decode 0x00000000#32 = .command .nop ∧
  ∀ s : State, exec .nop s = .next { s with result := .ok, done := true, engine := .idle, tick := s.tick + 1 }

/-- R121, R252: CLEAR, word 0x00000001, sets every table and count of derived state to its reset value and keeps everything else;
the entries of LIST, NODE and DT keep what they held. -/
def Obligations.ClearDiscardsDerivedState : Prop :=
  decode 0x00000001#32 = .command .clear ∧
  ∀ s : State, ∃ t : State, exec .clear s = .next t ∧ t.result = .ok ∧ t.done = true ∧ t.errInfo = s.errInfo ∧
    (∀ x, SymTable.get t.freq x = 0#32 ∧ SymTable.get t.code x = none) ∧ t.numSyms = 0#9 ∧ t.nodeCount = 0#10 ∧
    t.treeRoot = none ∧ t.codeCount = 0#9 ∧ t.dtRoot = .absent ∧ t.dtNodes = 0#17 ∧ t.dstLen = 0#32 ∧
    t.decBitpos = 0#32 ∧ t.mem = s.mem ∧ t.srcLen = s.srcLen ∧ t.bitLen = s.bitLen ∧ t.bitCursor = s.bitCursor ∧
    t.canonN = s.canonN ∧ t.ctrl = s.ctrl ∧ t.ovr = s.ovr ∧ t.accerr = s.accerr ∧ t.list = s.list ∧ t.node = s.node ∧
    t.dt = s.dt

/-! ## COUNT, BUILD -/

/-- R130: COUNT counts SRC[0..SRC_LEN-1] for all 256 symbols; NUM_SYMS is how many occur. -/
def Obligations.CountCountsTheSource : Prop :=
  ∀ s : State, s.params.wf = true → s.srcLen.toNat ≤ s.params.srcBytes →
    ∃ t : State, exec .count s = .next t ∧ t.result = .ok ∧ t.errInfo = s.errInfo ∧
      (∀ x, (SymTable.get t.freq x).toNat = (List.range s.srcLen.toNat).countP fun i => s.srcByte i == x) ∧
      t.numSyms.toNat = symbols.countP fun x => SymTable.get t.freq x != 0#32

/-- R131: after COUNT, LIST holds the symbols with a count above 0, each once, ascending by `(FREQ[s], s)`. -/
def Obligations.CountOrdersListByCountThenSymbol : Prop :=
  ∀ s t : State, exec .count s = .next t → t.result = .ok → ListOk t

/-- R132, R135, R136: without symbols BUILD produces no tree. With M symbols its arena holds the leaves in LIST order, then the
internal nodes; it is a tree whose root is the last node, with the sum of the counts as its priority, and no node is deeper than
M - 1. -/
def Obligations.BuildGivesATreeOverTheListedSymbols : Prop :=
  (∀ s : State, s.numSyms = 0#9 →
    exec .build s = .next { s with
      nodeCount := 0#10, treeRoot := none, result := .ok, done := true, engine := .idle, tick := s.tick + 1 }) ∧
  ∀ s : State, s.params.wf = true → ListOk s → 0 < s.numSyms.toNat →
    ∃ (t : State) (r : BitVec 9), exec .build s = .next t ∧ t.result = .ok ∧ t.errInfo = s.errInfo ∧
      TreeOf t.arena s.numSyms.toNat ∧
      t.nodeCount.toNat = 2 * s.numSyms.toNat - 1 ∧ t.treeRoot = some r ∧ r.toNat = 2 * s.numSyms.toNat - 2 ∧
      (∀ (i : Nat) (x : Byte), s.listed[i]? = some x → t.arena[i]? = some (Node.leaf x (SymTable.get s.freq x))) ∧
      prioOf t.arena r.toNat = (s.listed.map fun x => (SymTable.get s.freq x).toNat).sum ∧
      ∀ c n, nodeAt t.arena r.toNat c = some n → c.length ≤ s.numSyms.toNat - 1

/-- R133, R134: the internal node NODE[k] merges the two first of the nodes not merged before it, ordered by (priority, node
index); the first is its 0-child, the second its 1-child. -/
def Obligations.BuildMergesTheTwoFirstInTheQueue : Prop :=
  ∀ s t : State, s.params.wf = true → ListOk s → exec .build s = .next t →
    ∀ k a b p, s.numSyms.toNat ≤ k → t.arena[k]? = some (.internal a b p) →
      queuedBefore t.arena a b ∧ a < k ∧ b < k ∧
      a ∉ (t.arena.take k).flatMap Node.children ∧ b ∉ (t.arena.take k).flatMap Node.children ∧
      ∀ j, j < k → j ∉ (t.arena.take k).flatMap Node.children → j ≠ a → j ≠ b → queuedBefore t.arena b j

/-! ## DERIVE -/

/-- R150: for a tree of two or more leaves, a symbol's code is the path from the root to its leaf, 0 for left and 1 for right;
without a tree no code is present; CODE_COUNT is the number of leaves. -/
def Obligations.DeriveRecordsThePathToEachLeaf : Prop :=
  ∀ s : State, TreeOk s →
    ∃ t : State, exec .derive s = .next t ∧ t.result = .ok ∧ t.errInfo = s.errInfo ∧
      (s.treeRoot = none → t.codeCount = 0#9 ∧ ∀ x, SymTable.get t.code x = none) ∧
      ∀ r m, s.treeRoot = some r → TreeOf s.arena m → 2 ≤ m →
        t.codeCount.toNat = m ∧
        ∀ x c, SymTable.get t.code x = some c ↔
          ∃ n p, nodeAt s.arena r.toNat c = some n ∧ s.arena[n]? = some (Node.leaf x p)

/-- R151: a tree that is one leaf gives the empty code, or the one-bit code `0` when SINGLE_ONEBIT was 1 at acceptance; the bit
changes nothing for a tree of two or more leaves. -/
def Obligations.DeriveSingleSymbolFollowsSingleOnebit : Prop :=
  (∀ (s : State) (r : BitVec 9) (x : Byte) (p : Word), s.treeRoot = some r →
    s.arena[r.toNat]? = some (Node.leaf x p) →
    ∃ t : State, exec .derive s = .next t ∧ t.result = .ok ∧ t.codeCount = 1#9 ∧
      SymTable.get t.code x = some (if s.sampledCtrl.singleOnebit then [false] else []) ∧
      ∀ y, y ≠ x → SymTable.get t.code y = none) ∧
  ∀ (s : State) (r : BitVec 9) (a b : Nat) (p w : Word) (c c' : Ctrl) (d : Nat), s.treeRoot = some r →
    s.arena[r.toNat]? = some (.internal a b p) →
    exec .derive { s with engine := .busy w c d } = exec .derive { s with engine := .busy w c' d }

/-- R152: a table DERIVE writes is prefix-free, has an empty code only for a single leaf with SINGLE_ONEBIT = 0, and MATERIALIZE
never faults COLLISION on it. -/
def Obligations.DerivedTablesArePrefixFree : Prop :=
  ∀ s t : State, exec .derive s = .next t →
    PrefixFree t.code ∧
    (∀ x, SymTable.get t.code x = some [] →
      s.sampledCtrl.singleOnebit = false ∧ ∃ r p, s.treeRoot = some r ∧ s.arena[r.toNat]? = some (Node.leaf x p)) ∧
    ∀ u : State, exec .materialize t = .next u → u.result ≠ .collision

/-- R138: on a tree BUILD made, a more frequent symbol never has the longer code. -/
def Obligations.MoreFrequentSymbolsHaveNoLongerCodes : Prop :=
  ∀ s t u : State, s.params.wf = true → ListOk s → exec .build s = .next t → exec .derive t = .next u →
    ∀ x y cx cy, SymTable.get u.code x = some cx → SymTable.get u.code y = some cy →
      0 < (SymTable.get s.freq y).toNat → (SymTable.get s.freq y).toNat < (SymTable.get s.freq x).toNat →
      cx.length ≤ cy.length

/-! ## MATERIALIZE -/

/-- R154, R224 item 3: MATERIALIZE succeeds exactly when the present codes are prefix-free; otherwise it faults COLLISION with the
first symbol, in ascending order, whose code collides with a smaller symbol's, and leaves no decode tree. -/
def Obligations.MaterializeSucceedsExactlyOnPrefixFreeTables : Prop :=
  ∀ s : State, ∃ t : State, exec .materialize s = .next t ∧ (PrefixFree s.code → t.result = .ok) ∧
    (¬ PrefixFree s.code →
      t.result = .collision ∧ t.dtRoot = .absent ∧ t.dtNodes = 0#17 ∧
      ∃ (x y : Byte) (cx cy : Code), y.toNat < x.toNat ∧ t.errInfo = x.setWidth 32 ∧
        SymTable.get s.code x = some cx ∧ SymTable.get s.code y = some cy ∧ (cx <+: cy ∨ cy <+: cx) ∧
        ∀ (a b : Byte) (ca cb : Code), a.toNat < x.toNat → b.toNat < x.toNat → a ≠ b → SymTable.get s.code a = some ca →
          SymTable.get s.code b = some cb → ¬ ca <+: cb)

/-- R153, R157: the decode tree of a prefix-free table spells exactly the table's codes. Its branches are the proper prefixes of the
codes, and each lies at the DT index that is the number of other ones met before it, the symbols ascending and each code's
prefixes by length; DT_NODES counts them (codes have at most 255 bits, R45). -/
def Obligations.MaterializedTreeSpellsTheCodes : Prop :=
  ∀ s : State, PrefixFree s.code →
    ∃ t : State, exec .materialize s = .next t ∧ t.result = .ok ∧ t.errInfo = s.errInfo ∧
      (∀ x c, follow t.dt t.dtRoot c = Desc.leaf x ↔ SymTable.get s.code x = some c) ∧
      (∀ i q, follow t.dt t.dtRoot q = Desc.branch i ↔ (branchPaths s.code)[i]? = some q) ∧
      ((∀ x c, SymTable.get s.code x = some c → c.length ≤ 255) → t.dtNodes.toNat = (branchPaths s.code).length)

/-- R155: a zero-length code makes the root a terminal; it is legal only as the table's sole present code. -/
def Obligations.MaterializeEmptyCodeAtTheRoot : Prop :=
  ∀ (s : State) (x : Byte), SymTable.get s.code x = some [] →
    ((∀ y, y ≠ x → SymTable.get s.code y = none) →
      ∃ t : State, exec .materialize s = .next t ∧ t.result = .ok ∧ t.dtRoot = .leaf x ∧ t.dtNodes = 0#17) ∧
    ((∃ y c, y ≠ x ∧ SymTable.get s.code y = some c) →
      ∃ t : State, exec .materialize s = .next t ∧ t.result = .collision)

/-- R156: MATERIALIZE is a function of CODE alone, whatever else the two states hold; so running it twice gives the same decode
tree. -/
def Obligations.MaterializeIsAFunctionOfCode : Prop :=
  ∀ s s' t t' : State, s.code = s'.code → exec .materialize s = .next t → exec .materialize s' = .next t' →
    SameDecodeTree t t' ∧ t.result = t'.result ∧
    ∀ u : State, exec .materialize t = .next u → SameDecodeTree t u

/-! ## CANON -/

/-- R170, R172, R173: on a list whose entries all pass their checks, entry i's code has the entry's length and, read as a number
with its first bit most significant, is the running code; every other symbol is absent. -/
def Obligations.CanonAssignsTheRunningCodes : Prop :=
  ∀ s : State, s.canonN.toNat ≤ 256 → (s.canonInput.map canonSym).Nodup →
    (∀ i, i < s.canonN.toNat →
      1 ≤ canonLen (s.canonInput.getD i 0#32) ∧ canonLen (s.canonInput.getD i 0#32) ≤ 31 ∧
      canonCode (fun i => canonLen (s.canonInput.getD i 0#32)) i < 2 ^ canonLen (s.canonInput.getD i 0#32)) →
    ∃ t : State, exec .canon s = .next t ∧ t.result = .ok ∧ t.errInfo = s.errInfo ∧ t.codeCount.toNat = s.canonN.toNat ∧
      (∀ i e, s.canonInput[i]? = some e → ∃ c, SymTable.get t.code (canonSym e) = some c ∧ c.length = canonLen e ∧
        codeValue c = canonCode (fun i => canonLen (s.canonInput.getD i 0#32)) i) ∧
      ∀ x, x ∉ s.canonInput.map canonSym → SymTable.get t.code x = none

/-- R171, R222, R224 item 2: the first entry that fails a check ends CANON with the code of the first check it fails, in the
order zero length, too long, duplicate, fit; ERR_INFO is the entry's index and CODE is all absent. -/
def Obligations.CanonFaultsAtTheFirstBadEntry : Prop :=
  ∀ (s : State) (i : Nat) (e : Word), s.canonN.toNat ≤ 256 → s.canonInput[i]? = some e →
    ((s.canonInput.take i).map canonSym).Nodup →
    (∀ j, j < i →
      1 ≤ canonLen (s.canonInput.getD j 0#32) ∧ canonLen (s.canonInput.getD j 0#32) ≤ 31 ∧
      canonCode (fun i => canonLen (s.canonInput.getD i 0#32)) j < 2 ^ canonLen (s.canonInput.getD j 0#32)) →
    (canonLen e = 0 ∨ 31 < canonLen e ∨ canonSym e ∈ (s.canonInput.take i).map canonSym ∨
      2 ^ canonLen e ≤ canonCode (fun i => canonLen (s.canonInput.getD i 0#32)) i) →
    ∃ t : State, exec .canon s = .next t ∧ t.errInfo = BitVec.ofNat 32 i ∧ t.codeCount = 0#9 ∧
      (∀ x, SymTable.get t.code x = none) ∧
      t.result =
        (if canonLen e = 0 then .canonZeroLen
         else if 31 < canonLen e then .canonLenTooLong
         else if canonSym e ∈ (s.canonInput.take i).map canonSym then .canonDupSymbol
         else .canonOversub)

/-- R175: every table CANON writes is prefix-free, and MATERIALIZE never faults COLLISION on it. -/
def Obligations.CanonTablesArePrefixFree : Prop :=
  ∀ s t : State, exec .canon s = .next t → t.result ≠ .lenRange →
    PrefixFree t.code ∧ ∀ u : State, exec .materialize t = .next u → u.result ≠ .collision

/-- R176, R177: the empty list succeeds with an all-absent table, and DLC's four conformance vectors. -/
def Obligations.CanonConformanceVectors : Prop :=
  ∀ s : State,
    (s.canonN = 0#32 → ∃ t : State, exec .canon s = .next t ∧ t.result = .ok ∧ t.codeCount = 0#9 ∧
      ∀ x, SymTable.get t.code x = none) ∧
    (s.canonN = 2#32 → s.canonInput = [0x103#32, 0x202#32] → ∃ t : State, exec .canon s = .next t ∧ t.result = .ok ∧
      SymTable.get t.code 3#8 = some [false] ∧ SymTable.get t.code 2#8 = some [true, false]) ∧
    (s.canonN = 2#32 → s.canonInput = [0x100#32, 0x201#32] → ∃ t : State, exec .canon s = .next t ∧ t.result = .ok ∧
      SymTable.get t.code 0#8 = some [false] ∧ SymTable.get t.code 1#8 = some [true, false]) ∧
    (s.canonN = 3#32 → s.canonInput = [0x10B#32, 0x200#32, 0x301#32] → ∃ t : State, exec .canon s = .next t ∧ t.result = .ok ∧
      SymTable.get t.code 11#8 = some [false] ∧ SymTable.get t.code 0#8 = some [true, false] ∧
      SymTable.get t.code 1#8 = some [true, true, false]) ∧
    (s.canonN = 7#32 →
      s.canonInput = [0x101#32, 0x300#32, 0x30C#32, 0x402#32, 0x40B#32, 0x41F#32, 0x515#32] →
      ∃ t : State, exec .canon s = .next t ∧ t.result = .ok ∧ t.codeCount = 7#9 ∧
        SymTable.get t.code 1#8 = some [false] ∧ SymTable.get t.code 0#8 = some [true, false, false] ∧
        SymTable.get t.code 12#8 = some [true, false, true] ∧ SymTable.get t.code 2#8 = some [true, true, false, false] ∧
        SymTable.get t.code 11#8 = some [true, true, false, true] ∧
        SymTable.get t.code 31#8 = some [true, true, true, false] ∧
        SymTable.get t.code 21#8 = some [true, true, true, true, false])

/-! ## SERIALIZE, ENCODE -/

/-- R190: when every byte of SRC has a code and the codes fit, SERIALIZE emits them in order from bit 0, sets BIT_LEN and resets
BIT_CURSOR; every bit at or above BIT_LEN, and every other memory, is as before. -/
def Obligations.SerializeEmitsTheCodesInOrder : Prop :=
  ∀ s : State, s.params.wf = true → s.srcLen.toNat ≤ s.params.srcBytes →
    (∀ b ∈ s.source, (SymTable.get s.code b).isSome = true) →
    (emittedBits s.code s.source).length ≤ s.params.bitbufBits →
    ∃ t : State, exec .serialize s = .next t ∧ t.result = .ok ∧ t.errInfo = s.errInfo ∧ t.bitCursor = 0#32 ∧
      t.bitLen.toNat = (emittedBits s.code s.source).length ∧
      (∀ p, p < (emittedBits s.code s.source).length →
        cellRead t.mem.bitbuf p = (emittedBits s.code s.source)[p]?) ∧
      (∀ p, (emittedBits s.code s.source).length ≤ p → cellRead t.mem.bitbuf p = cellRead s.mem.bitbuf p) ∧
      ∀ p, cellRead t.mem.src p = cellRead s.mem.src p ∧ cellRead t.mem.dst p = cellRead s.mem.dst p ∧
        cellRead t.mem.canon p = cellRead s.mem.canon p

/-- R190, R222, R224 item 4: SERIALIZE stops at the first byte that has no code or whose code does not fit; BIT_LEN is 0,
BIT_CURSOR unchanged, and the bits of the bytes before it stay, with every bit above them as before. -/
def Obligations.SerializeFaultsAtTheFirstBadByte : Prop :=
  ∀ (s : State) (i : Nat) (b : Byte), s.params.wf = true → s.srcLen.toNat ≤ s.params.srcBytes →
    s.source[i]? = some b → (∀ x ∈ s.source.take i, (SymTable.get s.code x).isSome = true) →
    (emittedBits s.code (s.source.take i)).length ≤ s.params.bitbufBits →
    (SymTable.get s.code b = none ∨ ∃ c, SymTable.get s.code b = some c ∧
      s.params.bitbufBits < (emittedBits s.code (s.source.take i)).length + c.length) →
    ∃ t : State, exec .serialize s = .next t ∧
      t.result = (if (SymTable.get s.code b).isSome then .bitbufOvf else .encNoCode) ∧
      t.errInfo = BitVec.ofNat 32 i ∧ t.bitLen = 0#32 ∧ t.bitCursor = s.bitCursor ∧
      (∀ p, p < (emittedBits s.code (s.source.take i)).length →
        cellRead t.mem.bitbuf p = (emittedBits s.code (s.source.take i))[p]?) ∧
      ∀ p, (emittedBits s.code (s.source.take i)).length ≤ p → cellRead t.mem.bitbuf p = cellRead s.mem.bitbuf p

/-- R191: the bit count of a successful SERIALIZE or ENCODE is the sum of the code lengths over the input. -/
def Obligations.BitCountIsTheSumOfCodeLengths : Prop :=
  ∀ (i : Instr) (s t : State), (i = .serialize ∨ i = .encode) → s.params.wf = true → exec i s = .next t →
    t.result = .ok →
    t.bitLen.toNat = (s.source.map fun b => ((SymTable.get t.code b).map List.length).getD 0).sum

/-- R192: ENCODE of an input within capacity ends with OK, or with BITBUF_OVF when the codes do not fit (they fit if 255 bits a
byte do); COLLISION and ENC_NO_CODE do not occur. The table has a code for exactly the bytes that occur; the decode tree spells
it; after OK the buffer holds the input's codes, after BITBUF_OVF BIT_LEN is 0; every bit above the codes is as before. -/
def Obligations.EncodeGivesTableTreeAndBits : Prop :=
  ∀ s : State, s.params.wf = true → s.srcLen.toNat ≤ s.params.srcBytes →
    ∃ t : State, exec .encode s = .next t ∧
      (t.result = .ok ∨ t.result = .bitbufOvf) ∧
      (t.result = .ok ↔ (emittedBits t.code s.source).length ≤ s.params.bitbufBits) ∧
      (255 * s.srcLen.toNat ≤ s.params.bitbufBits → t.result = .ok) ∧
      (∀ x, (SymTable.get t.freq x).toNat = s.source.count x) ∧
      (∀ x, (SymTable.get t.code x).isSome = true ↔ x ∈ s.source) ∧ PrefixFree t.code ∧
      (∀ x c, follow t.dt t.dtRoot c = Desc.leaf x ↔ SymTable.get t.code x = some c) ∧
      (t.result = .ok → t.errInfo = s.errInfo ∧ t.bitCursor = 0#32 ∧
        t.bitLen.toNat = (emittedBits t.code s.source).length ∧
        ∀ p, p < (emittedBits t.code s.source).length → cellRead t.mem.bitbuf p = (emittedBits t.code s.source)[p]?) ∧
      (t.result = .bitbufOvf → t.bitLen = 0#32 ∧ t.bitCursor = s.bitCursor) ∧
      ∀ p, (emittedBits t.code s.source).length ≤ p → cellRead t.mem.bitbuf p = cellRead s.mem.bitbuf p

/-- R192, R224 item 6: on an input the host has written, ENCODE leaves what COUNT, BUILD, DERIVE, MATERIALIZE and SERIALIZE leave
when run in turn, but for the model's tick. -/
def Obligations.EncodeIsItsFiveStepsInTurn : Prop :=
  ∀ s a b c d e : State, s.srcLen.toNat ≤ s.params.srcBytes → s.sampledCtrl = s.ctrl →
    (∀ i, i < s.srcLen.toNat → (cellRead s.mem.src i).isSome = true) →
    exec .count s = .next a → exec .build a = .next b → exec .derive b = .next c → exec .materialize c = .next d →
    exec .serialize d = .next e → exec .encode s = .next { e with tick := s.tick + 1 }

/-! ## DECODE -/

/-- R193, R194: DECODE of a stream that is the codes of some symbols and then a tail inside the tree emits the symbols; it
finishes with OK, or with OK_TRUNCATED when the tail is not empty, and DEC_BITPOS is the length before the tail. DST at and above
DST_LEN is as before. -/
def Obligations.DecodeEmitsTheSpelledSymbols : Prop :=
  ∀ (s : State) (n : Nat) (words : List (Code × Byte)) (tail : Code), s.params.wf = true →
    s.bitLen.toNat ≤ s.params.bitbufBits → s.dtRoot = .branch n → s.stream = words.flatMap Prod.fst ++ tail →
    (∀ w ∈ words, follow s.dt (.branch 0) w.1 = .leaf w.2) → (∃ j, follow s.dt (.branch 0) tail = .branch j) →
    words.length ≤ s.params.dstBytes →
    ∃ t : State, exec .decode s = .next t ∧ t.result = (if tail = [] then .ok else .okTruncated) ∧ t.errInfo = s.errInfo ∧
      t.dstLen.toNat = words.length ∧ t.decBitpos.toNat = (words.flatMap Prod.fst).length ∧
      (∀ p, p < words.length → cellRead t.mem.dst p = (words.map Prod.snd)[p]?) ∧
      (∀ p, words.length ≤ p → cellRead t.mem.dst p = cellRead s.mem.dst p) ∧
      ∀ p, cellRead t.mem.src p = cellRead s.mem.src p ∧ cellRead t.mem.bitbuf p = cellRead s.mem.bitbuf p ∧
        cellRead t.mem.canon p = cellRead s.mem.canon p

/-- R193, R222, R224 item 5: DECODE stops at the first bit that leads to no code (DEC_INVALID), or that completes a symbol DST has
no room for (DST_OVF); the symbols before it are in DST, and DST above them is as before. -/
def Obligations.DecodeFaultsAtTheFirstBadBit : Prop :=
  ∀ (s : State) (n j : Nat) (words : List (Code × Byte)) (part rest : Code) (b : Bool), s.params.wf = true →
    s.bitLen.toNat ≤ s.params.bitbufBits → s.dtRoot = .branch n →
    s.stream = words.flatMap Prod.fst ++ part ++ b :: rest →
    (∀ w ∈ words, follow s.dt (.branch 0) w.1 = .leaf w.2) → follow s.dt (.branch 0) part = .branch j →
    words.length ≤ s.params.dstBytes →
    ((branchAt s.dt j).child b = .absent ∨
      (words.length = s.params.dstBytes ∧ ∃ x, (branchAt s.dt j).child b = .leaf x)) →
    ∃ t : State, exec .decode s = .next t ∧
      t.result = (if (branchAt s.dt j).child b = .absent then .decInvalid else .dstOvf) ∧
      t.errInfo = BitVec.ofNat 32 (words.flatMap Prod.fst ++ part).length ∧
      t.dstLen.toNat = words.length ∧ t.decBitpos.toNat = (words.flatMap Prod.fst).length ∧
      (∀ p, p < words.length → cellRead t.mem.dst p = (words.map Prod.snd)[p]?) ∧
      ∀ p, words.length ≤ p → cellRead t.mem.dst p = cellRead s.mem.dst p

/-- R195: without a branch root DECODE emits nothing; it succeeds when BIT_LEN = 0 and faults DEC_INVALID at bit 0 otherwise. -/
def Obligations.DecodeWithoutABranchRoot : Prop :=
  ∀ s : State, s.bitLen.toNat ≤ s.params.bitbufBits → (s.dtRoot = .absent ∨ ∃ x, s.dtRoot = .leaf x) →
    exec .decode s = .next { s with
      dstLen := 0#32, decBitpos := 0#32, result := if s.bitLen = 0#32 then .ok else .decInvalid,
      errInfo := if s.bitLen = 0#32 then s.errInfo else 0#32, done := true, engine := .idle, tick := s.tick + 1 }

/-- R197: the round trip. After an ENCODE that ends with OK, DECODE gives the input back with OK, when the input has no or at
least two distinct symbols, or one with SINGLE_ONEBIT = 1 sampled; with one distinct symbol and SINGLE_ONEBIT = 0 it gives
DST_LEN = 0. -/
def Obligations.DecodeOfEncodeGivesTheSourceBack : Prop :=
  ∀ s t : State, s.params.wf = true → s.srcLen.toNat ≤ s.params.srcBytes → s.srcLen.toNat ≤ s.params.dstBytes →
    exec .encode s = .next t → t.result = .ok →
    ∃ u : State, exec .decode t = .next u ∧ u.result = .ok ∧
      ((¬ ∃ x, s.source ≠ [] ∧ ∀ y ∈ s.source, y = x) ∨ s.sampledCtrl.singleOnebit = true →
        u.dstLen = s.srcLen ∧ u.decBitpos = t.bitLen ∧
        ∀ i, i < s.srcLen.toNat → cellRead u.mem.dst i = some (s.srcByte i)) ∧
      ((∃ x, s.source ≠ [] ∧ ∀ y ∈ s.source, y = x) → s.sampledCtrl.singleOnebit = false → u.dstLen = 0#32)

/-! ## Invariants -/

/-- The state after reset is a good state. -/
def Obligations.ResetStateIsGood : Prop := Good State.reset

/-- R47 to R50, R6: every step keeps the memories canonical and within their capacities, and the parameters as they are. -/
def Obligations.StepKeepsMemoriesCanonical : Prop :=
  ∀ s t : State, s.params.wf = true → MemoryOk s → step s = .next t → MemoryOk t ∧ t.params = s.params

/-- R43, R131: every step keeps LIST in order and complete. -/
def Obligations.StepKeepsListOrdered : Prop :=
  ∀ s t : State, ListOk s → step s = .next t → ListOk t

/-- R35, R44, R136: every step keeps the construction tree a tree. -/
def Obligations.StepKeepsTheConstructionTree : Prop :=
  ∀ s t : State, s.params.wf = true → ListOk s → TreeOk s → step s = .next t → TreeOk t

/-- R36, R45, R152, R175: every step keeps the code table prefix-free, within 255 bits, and counted by CODE_COUNT. -/
def Obligations.StepKeepsCodesPrefixFree : Prop :=
  ∀ s t : State, s.params.wf = true → ListOk s → TreeOk s → CodesOk s → step s = .next t → CodesOk t

/-- R37, R38, R46, R157: every step keeps the decode tree closed under its branches and within the arena. -/
def Obligations.StepKeepsTheDecodeTreeClosed : Prop :=
  ∀ s t : State, s.params.wf = true → CodesOk s → ListOk s → TreeOk s → DecodeTreeOk s → step s = .next t →
    DecodeTreeOk t

/-- R32, R39, R40, R221: every step keeps the output counts within capacity, ERR_INFO 0 while a command runs and after a success, and
no command running while the reset line is asserted. The last is the model's choice: R250 leaves accesses in reset open, and the
model refuses them (log 5, log 13). -/
def Obligations.StepKeepsOutputsAndEngineOk : Prop :=
  ∀ s t : State, s.params.wf = true → OutputsOk s → EngineOk s → step s = .next t → OutputsOk t ∧ EngineOk t

/-- R154: from a good state no command ends with COLLISION, and ENCODE never with ENC_NO_CODE. -/
def Obligations.CollisionNeverOccurs : Prop :=
  ∀ (i : Instr) (s t : State), Good s → exec i s = .next t →
    t.result ≠ .collision ∧ (i = .encode → t.result ≠ .encNoCode)
end

