-- ==== Sys2Proof/Laws/Memory.lean ====
section
/-! SUPPORT. The laws of cells (read after write, canonical form) and of symbol tables. -/

namespace Sys2Proof.Machine

variable {α : Type}

/-! ## Cells -/

theorem cellRead_cellWrite_self (m : List (Nat × α)) (a : Nat) (v : α) : cellRead (cellWrite m a v) a = some v := by
  induction m with
  | nil => simp [cellWrite, cellRead]
  | cons c m ih =>
    obtain ⟨k, x⟩ := c
    by_cases h : a < k
    · simp [cellWrite, h, cellRead]
    · by_cases h' : a = k
      · simp [cellWrite, h', cellRead]
      · simp [cellWrite, h, h', cellRead, ih]

theorem cellRead_cellWrite_other (m : List (Nat × α)) {a b : Nat} (v : α) (hab : b ≠ a) :
    cellRead (cellWrite m a v) b = cellRead m b := by
  induction m with
  | nil => simp [cellWrite, cellRead, hab]
  | cons c m ih =>
    obtain ⟨k, x⟩ := c
    by_cases h : a < k
    · simp [cellWrite, h, cellRead, hab]
    · by_cases h' : a = k
      · subst h'; simp [cellWrite, cellRead, hab]
      · simp [cellWrite, h, h', cellRead, ih]

/-- Read after write, in one rule. -/
theorem cellRead_cellWrite (m : List (Nat × α)) (a b : Nat) (v : α) :
    cellRead (cellWrite m a v) b = if b = a then some v else cellRead m b := by
  split
  · next h => subst h; exact cellRead_cellWrite_self m b v
  · next h => exact cellRead_cellWrite_other m v h

/-- The cells after writing a list: the list's values on its range, the old ones elsewhere. -/
theorem cellRead_cellsWrite (vs : List α) (m : List (Nat × α)) (a b : Nat) :
    cellRead (cellsWrite m a vs) b = if a ≤ b ∧ b < a + vs.length then vs[b - a]? else cellRead m b := by
  induction vs generalizing m a with
  | nil => simp [cellsWrite]
  | cons v vs ih =>
    simp only [cellsWrite, ih, cellRead_cellWrite, List.length_cons]
    by_cases h : b = a
    · subst h; simp
    · by_cases h1 : a + 1 ≤ b ∧ b < a + 1 + vs.length
      · have h2 : a ≤ b ∧ b < a + (vs.length + 1) := by omega
        have h3 : b - a = (b - (a + 1)) + 1 := by omega
        simp [h1, h2, h3]
      · have h2 : ¬ (a ≤ b ∧ b < a + (vs.length + 1)) := by omega
        rw [if_neg h1, if_neg h2, if_neg h]

theorem cellsWrite_append (m : List (Nat × α)) (a : Nat) (u v : List α) :
    cellsWrite m a (u ++ v) = cellsWrite (cellsWrite m a u) (a + u.length) v := by
  induction u generalizing m a with
  | nil => rfl
  | cons x u ih => simp [cellsWrite, ih, Nat.add_assoc, Nat.add_comm 1]

theorem mem_keys_cellWrite (m : List (Nat × α)) (a : Nat) (v : α) {k : Nat}
    (h : k ∈ (cellWrite m a v).map Prod.fst) : k = a ∨ k ∈ m.map Prod.fst := by
  induction m with
  | nil => simpa [cellWrite] using h
  | cons c m ih =>
    obtain ⟨k', x⟩ := c
    unfold cellWrite at h
    split at h
    · simpa using h
    · split at h
      · next h' => subst h'; simp at h ⊢; tauto
      · simp only [List.map_cons, List.mem_cons] at h ⊢
        rcases h with h | h
        · exact .inr (.inl h)
        · rcases ih h with h | h
          · exact .inl h
          · exact .inr (.inr h)

/-- A write keeps the canonical form. -/
theorem cellsWf_cellWrite (m : List (Nat × α)) (a : Nat) (v : α) (h : cellsWf m) : cellsWf (cellWrite m a v) := by
  induction m with
  | nil => simp [cellWrite, cellsWf]
  | cons c m ih =>
    obtain ⟨k, x⟩ := c
    have hk : ∀ j ∈ m.map Prod.fst, k < j := by
      intro j hj; exact (List.pairwise_cons.mp h).1 j hj
    have hm : cellsWf m := (List.pairwise_cons.mp h).2
    unfold cellWrite
    split
    · next hlt =>
      refine List.pairwise_cons.mpr ⟨?_, h⟩
      intro j hj
      simp only [List.map_cons, List.mem_cons] at hj
      rcases hj with rfl | hj
      · exact hlt
      · exact Nat.lt_trans hlt (hk j hj)
    · split
      · next he => subst he; exact List.pairwise_cons.mpr ⟨hk, hm⟩
      · next h1 h2 =>
        refine List.pairwise_cons.mpr ⟨?_, ih hm⟩
        intro j hj
        rcases mem_keys_cellWrite m a v hj with rfl | hj
        · simp only; omega
        · exact hk j hj

theorem cellsWf_cellsWrite (vs : List α) (m : List (Nat × α)) (a : Nat) (h : cellsWf m) :
    cellsWf (cellsWrite m a vs) := by
  induction vs generalizing m a with
  | nil => exact h
  | cons v vs ih => exact ih _ _ (cellsWf_cellWrite m a v h)

/-- A write lists no cell but the old ones and its own. -/
theorem cellWrite_bound (m : List (Nat × α)) (a : Nat) (v : α) (n : Nat) (h : ∀ c ∈ m, c.1 < n) (ha : a < n) :
    ∀ c ∈ cellWrite m a v, c.1 < n := by
  intro c hc
  rcases mem_keys_cellWrite m a v (List.mem_map_of_mem (f := Prod.fst) hc) with h' | h'
  · rw [h']; exact ha
  · obtain ⟨d, hd, he⟩ := List.mem_map.mp h'
    rw [← he]; exact h d hd

theorem cellsWrite_bound (vs : List α) (m : List (Nat × α)) (a n : Nat) (h : ∀ c ∈ m, c.1 < n)
    (ha : a + vs.length ≤ n) : ∀ c ∈ cellsWrite m a vs, c.1 < n := by
  induction vs generalizing m a with
  | nil => exact h
  | cons v vs ih =>
    simp only [List.length_cons] at ha
    exact ih _ _ (cellWrite_bound m a v n h (by omega)) (by omega)

/-! ## Symbol tables -/

@[simp] theorem get_set_self (t : SymTable α) (s : Byte) (x : α) : SymTable.get (SymTable.set t s x) s = x := by
  simp [SymTable.get, SymTable.set]

theorem get_set_other (t : SymTable α) {s r : Byte} (x : α) (h : r ≠ s) :
    SymTable.get (SymTable.set t s x) r = SymTable.get t r := by
  have : s.toNat ≠ r.toNat := fun e => h (BitVec.eq_of_toNat_eq e.symm)
  simp [SymTable.get, SymTable.set, this]

theorem get_set (t : SymTable α) (s r : Byte) (x : α) :
    SymTable.get (SymTable.set t s x) r = if r = s then x else SymTable.get t r := by
  split
  · next h => subst h; exact get_set_self t r x
  · next h => exact get_set_other t x h

@[simp] theorem get_tabulate (f : Byte → α) (s : Byte) : SymTable.get (SymTable.tabulate f) s = f s := by
  simp [SymTable.get, SymTable.tabulate]

@[simp] theorem get_replicate (x : α) (s : Byte) : SymTable.get (Vector.replicate 256 x) s = x := by
  simp [SymTable.get]

@[simp] theorem get_noCodes (s : Byte) : SymTable.get noCodes s = none := by
  simp [noCodes]

theorem symTable_ext {t u : SymTable α} (h : ∀ s, SymTable.get t s = SymTable.get u s) : t = u := by
  apply Vector.ext
  intro i hi
  have := h (BitVec.ofNat 8 i)
  simpa [SymTable.get, Nat.mod_eq_of_lt hi] using this

theorem mem_symbols (s : Byte) : s ∈ symbols := by
  simp only [symbols, List.mem_map, List.mem_range]
  exact ⟨s.toNat, s.isLt, by simp⟩

theorem nodup_symbols : symbols.Nodup := by
  unfold symbols
  refine (List.nodup_range).map_on ?_
  intro a ha b hb h
  simp only [List.mem_range] at ha hb
  have := congrArg BitVec.toNat h
  simpa [Nat.mod_eq_of_lt ha, Nat.mod_eq_of_lt hb] using this

theorem length_symbols : symbols.length = 256 := by simp [symbols]

/-- The symbols come in ascending order. -/
theorem pairwise_symbols : symbols.Pairwise fun a b => a.toNat < b.toNat := by
  unfold symbols
  rw [List.pairwise_map]
  refine List.Pairwise.imp_of_mem ?_ (List.pairwise_lt_range (n := 256))
  intro a b ha hb h
  simp only [List.mem_range] at ha hb
  simpa [Nat.mod_eq_of_lt ha, Nat.mod_eq_of_lt hb] using h

theorem presentCount_le (c : SymTable (Option Code)) : presentCount c ≤ 256 := by
  unfold presentCount
  exact Nat.le_trans List.countP_le_length (le_of_eq length_symbols)

/-! ## Overlays -/

@[simp] theorem take_overlay (new old : List α) : (overlay new old).take new.length = new := by
  simp [overlay]

theorem length_overlay (new old : List α) : (overlay new old).length = max new.length old.length := by
  simp [overlay]; omega

theorem getElem?_overlay_lt (new old : List α) {i : Nat} (h : i < new.length) : (overlay new old)[i]? = new[i]? := by
  simp [overlay, List.getElem?_append_left h]

end Sys2Proof.Machine
end

