-- ==== Sys2Proof/Laws/BuildTree.lean ====
section
/-! SUPPORT. What BUILD's priority queue and merging give (R132 to R136). -/

namespace Sys2Proof.Machine

/-! ## The priority queue -/

/-- The order of queue items: by priority, then by node index (R133). -/
def QItem.before (x y : QItem) : Prop :=
  x.prio.toNat < y.prio.toNat ∨ (x.prio.toNat = y.prio.toNat ∧ x.node < y.node)

theorem perm_enqueue (x : QItem) (q : List QItem) : (enqueue x q).Perm (x :: q) := by
  induction q with
  | nil => exact List.Perm.refl _
  | cons y q ih =>
    unfold enqueue
    split
    · exact List.Perm.refl _
    · exact (ih.cons y).trans (List.Perm.swap x y q)

/-- A new item, newer than every other, keeps the queue sorted (R133). -/
theorem sorted_enqueue {x : QItem} {q : List QItem} (hs : q.Pairwise QItem.before) (hn : ∀ y ∈ q, y.node < x.node) :
    (enqueue x q).Pairwise QItem.before := by
  induction q with
  | nil => simp [enqueue]
  | cons y q ih =>
    have hq := List.pairwise_cons.mp hs
    unfold enqueue
    split
    · next h =>
      refine List.pairwise_cons.mpr ⟨?_, hs⟩
      intro z hz
      rcases List.mem_cons.mp hz with rfl | hz
      · exact .inl h
      · have := hq.1 z hz
        unfold QItem.before at this ⊢
        omega
    · next h =>
      refine List.pairwise_cons.mpr ⟨?_, ih hq.2 fun z hz => hn z (by simp [hz])⟩
      intro z hz
      rcases List.mem_cons.mp ((perm_enqueue x q).mem_iff.mp hz) with rfl | hz
      · have := hn y (by simp)
        unfold QItem.before
        omega
      · exact hq.1 z hz

/-! ## Arenas while BUILD merges -/

/-- The children of an arena's nodes in node order: the order in which BUILD takes nodes off the queue. -/
def kids (nodes : List Node) : List Nat := nodes.flatMap Node.children

theorem kids_append (a b : List Node) : kids (a ++ b) = kids a ++ kids b := by simp [kids]

theorem prioOf_append {nodes ext : List Node} {i : Nat} (h : i < nodes.length) : prioOf (nodes ++ ext) i = prioOf nodes i := by
  simp [prioOf, List.getElem?_append_left h]

theorem queuedBefore_append {nodes ext : List Node} {i j : Nat} (hi : i < nodes.length) (hj : j < nodes.length) :
    queuedBefore (nodes ++ ext) i j ↔ queuedBefore nodes i j := by
  simp [queuedBefore, prioOf_append hi, prioOf_append hj]

theorem queuedBefore_trans {nodes : List Node} {i j k : Nat} (h1 : queuedBefore nodes i j) (h2 : queuedBefore nodes j k) :
    queuedBefore nodes i k := by
  unfold queuedBefore at *; omega

/-- What holds between two merges (R132 to R136): the nodes taken off the queue so far, followed by the queue, are all the nodes
in the queue's order. -/
structure MergeInv (m total : Nat) (q : List QItem) (nodes : List Node) : Prop where
  length : nodes.length + q.length = 2 * m
  queue : q ≠ []
  items : ∀ x ∈ q, x.node < nodes.length ∧ x.prio.toNat = prioOf nodes x.node
  perm : (kids nodes ++ q.map QItem.node).Perm (List.range nodes.length)
  sorted : (kids nodes ++ q.map QItem.node).Pairwise (queuedBefore nodes)
  total : (q.map fun x => x.prio.toNat).sum = total
  leaves : ∀ i, i < m → ∃ x p, nodes[i]? = some (.leaf x p)
  internals : ∀ i, m ≤ i → i < nodes.length → ∃ a b p, nodes[i]? = some (.internal a b p) ∧ a < i ∧ b < i ∧
    p.toNat = prioOf nodes a + prioOf nodes b

theorem MergeInv.before {m total : Nat} {q : List QItem} {nodes : List Node} (h : MergeInv m total q nodes) :
    q.Pairwise QItem.before := by
  have := (List.pairwise_append.mp h.sorted).2.1
  rw [List.pairwise_map] at this
  refine this.imp_of_mem ?_
  intro x y hx hy hxy
  unfold QItem.before
  rw [(h.items x hx).2, (h.items y hy).2]
  exact hxy

/-- One merge keeps it (R132). -/
theorem MergeInv.merge {m total : Nat} {a b : QItem} {q : List QItem} {nodes : List Node} (hm : total < 2 ^ 32)
    (h : MergeInv m total (a :: b :: q) nodes) :
    MergeInv m total (enqueue { prio := a.prio + b.prio, node := nodes.length } q)
      (nodes ++ [.internal a.node b.node (a.prio + b.prio)]) := by
  have hlen := h.length
  simp only [List.length_cons] at hlen
  have hle : ∀ x ∈ a :: b :: q, x.prio.toNat ≤ total := by
    intro x hx
    rw [← h.total]
    exact List.le_sum_of_mem (List.mem_map_of_mem (f := fun x : QItem => x.prio.toNat) hx)
  have htot := h.total
  simp only [List.map_cons, List.sum_cons] at htot
  have hp : (a.prio + b.prio).toNat = a.prio.toNat + b.prio.toNat := by
    rw [BitVec.toNat_add, Nat.mod_eq_of_lt (by omega)]
  obtain ⟨ha1, ha2⟩ := h.items a (by simp)
  obtain ⟨hb1, hb2⟩ := h.items b (by simp)
  have hpn : prioOf (nodes ++ [.internal a.node b.node (a.prio + b.prio)]) nodes.length = a.prio.toNat + b.prio.toNat := by
    simp only [prioOf, List.getElem?_append_right (Nat.le_refl _), Nat.sub_self, List.getElem?_cons_zero, Option.map_some,
      Option.getD_some, Node.prio]
    exact hp
  have hmem : ∀ i ∈ kids nodes ++ (a :: b :: q).map QItem.node, i < nodes.length := by
    intro i hi
    exact List.mem_range.mp (h.perm.mem_iff.mp hi)
  have hbq : ∀ y ∈ q, y.node < nodes.length := fun y hy => (h.items y (by simp [hy])).1
  have hkids : kids (nodes ++ [.internal a.node b.node (a.prio + b.prio)]) = kids nodes ++ [a.node, b.node] := by
    rw [kids_append]; rfl
  have hfront : kids nodes ++ (a :: b :: q).map QItem.node = (kids nodes ++ [a.node, b.node]) ++ q.map QItem.node := by
    simp
  have henq := perm_enqueue { prio := a.prio + b.prio, node := nodes.length } q
  have hbefore := h.before
  have hsq : q.Pairwise QItem.before := (List.pairwise_cons.mp (List.pairwise_cons.mp hbefore).2).2
  have hsorted := h.sorted
  rw [hfront, List.pairwise_append] at hsorted
  have hmem' : ∀ i ∈ kids nodes ++ [a.node, b.node], i < nodes.length := fun i hi => hmem i (by
    rw [hfront]; exact List.mem_append_left _ hi)
  refine ⟨?_, ?_, ?_, ?_, ?_, ?_, ?_, ?_⟩
  · rw [List.length_append, henq.length_eq]; simp; omega
  · intro he
    have := henq.length_eq
    rw [he] at this; simp at this
  · intro x hx
    rcases List.mem_cons.mp (henq.mem_iff.mp hx) with rfl | hx
    · exact ⟨by simp, by rw [hpn]; exact hp⟩
    · obtain ⟨h1, h2⟩ := h.items x (by simp [hx])
      exact ⟨by rw [List.length_append]; omega, by rw [prioOf_append h1]; exact h2⟩
  · rw [hkids]
    have h1 : ((kids nodes ++ [a.node, b.node]) ++ (enqueue { prio := a.prio + b.prio, node := nodes.length } q).map QItem.node).Perm
        ((kids nodes ++ [a.node, b.node]) ++ (nodes.length :: q.map QItem.node)) := (henq.map QItem.node).append_left _
    refine h1.trans (List.perm_middle.trans ?_)
    rw [← hfront, List.length_append, List.length_singleton, List.range_succ]
    exact ((h.perm.cons nodes.length).trans (List.perm_append_singleton _ _).symm)
  · rw [hkids, List.pairwise_append]
    refine ⟨?_, ?_, ?_⟩
    · refine hsorted.1.imp_of_mem ?_
      intro i j hi hj hij
      exact (queuedBefore_append (hmem' i hi) (hmem' j hj)).mpr hij
    · rw [List.pairwise_map]
      refine (sorted_enqueue hsq fun y hy => hbq y hy).imp_of_mem ?_
      intro x y hx hy hxy
      have hprio : ∀ z ∈ enqueue { prio := a.prio + b.prio, node := nodes.length } q,
          prioOf (nodes ++ [.internal a.node b.node (a.prio + b.prio)]) z.node = z.prio.toNat := by
        intro z hz
        rcases List.mem_cons.mp (henq.mem_iff.mp hz) with rfl | hz
        · rw [hpn]; exact hp.symm
        · obtain ⟨h1, h2⟩ := h.items z (by simp [hz])
          rw [prioOf_append h1]; exact h2.symm
      unfold queuedBefore
      rw [hprio x hx, hprio y hy]
      exact hxy
    · intro i hi j hj
      obtain ⟨y, hy, rfl⟩ := List.mem_map.mp hj
      rcases List.mem_cons.mp (henq.mem_iff.mp hy) with rfl | hy
      · have hi' := hmem' i hi
        unfold queuedBefore
        rw [prioOf_append hi', hpn]
        have : prioOf nodes i ≤ a.prio.toNat ∨ i = b.node := by
          rcases List.mem_append.mp hi with hk | hk
          · have := (List.pairwise_append.mp hsorted.1).2.2 i hk a.node (by simp)
            unfold queuedBefore at this
            rw [← ha2] at this
            omega
          · simp only [List.mem_cons, List.not_mem_nil, or_false] at hk
            rcases hk with rfl | rfl
            · exact .inl (by rw [ha2])
            · exact .inr rfl
        rcases this with h1 | rfl
        · simp only; omega
        · rw [← hb2]; simp only; omega
      · exact (queuedBefore_append (hmem' i hi) (hbq y hy)).mpr
          (hsorted.2.2 i hi y.node (List.mem_map_of_mem (f := QItem.node) hy))
  · rw [(henq.map fun x : QItem => x.prio.toNat).sum_eq]
    simp only [List.map_cons, List.sum_cons, hp]
    omega
  · intro i hi
    obtain ⟨x, p, hx⟩ := h.leaves i hi
    have := (List.getElem?_eq_some_iff.mp hx).1
    exact ⟨x, p, by rw [List.getElem?_append_left this]; exact hx⟩
  · intro i h1 h2
    rw [List.length_append, List.length_singleton] at h2
    by_cases h3 : i < nodes.length
    · obtain ⟨c, d, p, hx, hc, hd, hpp⟩ := h.internals i h1 h3
      refine ⟨c, d, p, by rw [List.getElem?_append_left h3]; exact hx, hc, hd, ?_⟩
      rw [prioOf_append (by omega), prioOf_append (by omega)]; exact hpp
    · have h4 : i = nodes.length := by omega
      subst h4
      refine ⟨a.node, b.node, a.prio + b.prio, by simp, ha1, hb1, ?_⟩
      rw [prioOf_append ha1, prioOf_append hb1, ← ha2, ← hb2]; exact hp

/-- The merge loop runs to a single item, and only appends to the arena. -/
theorem mergeQueue_spec {m total : Nat} (hm : total < 2 ^ 32) : ∀ (fuel : Nat) (q : List QItem) (nodes : List Node),
    q.length ≤ fuel + 1 → MergeInv m total q nodes →
    ∃ root ext, mergeQueue fuel q nodes = ([root], nodes ++ ext) ∧ MergeInv m total [root] (nodes ++ ext) ∧
      ext.flatMap Node.symbols = [] := by
  intro fuel
  induction fuel with
  | zero =>
    intro q nodes hl h
    match q, hl, h with
    | [], _, h => exact absurd rfl h.queue
    | [x], _, h => exact ⟨x, [], by simp [mergeQueue], by simpa using h, rfl⟩
  | succ fuel ih =>
    intro q nodes hl h
    match q, hl, h with
    | [], _, h => exact absurd rfl h.queue
    | [x], _, h => exact ⟨x, [], by simp [mergeQueue], by simpa using h, rfl⟩
    | a :: b :: q, hl, h =>
      obtain ⟨root, ext, h1, h2, h3⟩ := ih (enqueue { prio := a.prio + b.prio, node := nodes.length } q)
        (nodes ++ [.internal a.node b.node (a.prio + b.prio)])
        (by rw [(perm_enqueue _ q).length_eq]; simp at hl ⊢; omega) (h.merge hm)
      refine ⟨root, .internal a.node b.node (a.prio + b.prio) :: ext, ?_, ?_, ?_⟩
      · unfold mergeQueue; rw [h1]; simp
      · simpa using h2
      · simpa [Node.symbols] using h3

/-- When one item is left the arena is a tree with that item's node at its root, the last (R136). -/
theorem MergeInv.tree {m total : Nat} {root : QItem} {nodes : List Node} (h : MergeInv m total [root] nodes) (hm : m ≤ 256)
    (hs : (nodes.flatMap Node.symbols).Nodup) :
    TreeOf nodes m ∧ root.node = 2 * m - 2 ∧ prioOf nodes root.node = total := by
  have hlen := h.length
  simp only [List.length_singleton] at hlen
  have hlast : nodes.length - 1 < nodes.length := by
    have := (h.items root (by simp)).1
    omega
  have hkid : ∀ i ∈ kids nodes, i < nodes.length - 1 := by
    intro i hi
    obtain ⟨n, hn, hin⟩ := List.mem_flatMap.mp hi
    obtain ⟨k, hk⟩ := List.mem_iff_getElem?.mp hn
    have hkl := (List.getElem?_eq_some_iff.mp hk).1
    by_cases hkm : k < m
    · obtain ⟨x, p, hx⟩ := h.leaves k hkm
      rw [hx] at hk; cases hk
      simp [Node.children] at hin
    · obtain ⟨a, b, p, hx, ha, hb, -⟩ := h.internals k (by omega) hkl
      rw [hx] at hk; cases hk
      simp only [Node.children, List.mem_cons, List.not_mem_nil, or_false] at hin
      omega
  have hroot : root.node = nodes.length - 1 := by
    have : nodes.length - 1 ∈ kids nodes ++ [root].map QItem.node := h.perm.mem_iff.mpr (List.mem_range.mpr hlast)
    rcases List.mem_append.mp this with h1 | h1
    · have := hkid _ h1; omega
    · simp at h1; exact h1.symm
  have hm1 : 1 ≤ m := by omega
  have hl : nodes.length = 2 * m - 1 := by omega
  refine ⟨⟨hm1, hm, hl, h.leaves, ?_, ?_, hs⟩, by omega, ?_⟩
  · intro i h1 h2
    exact h.internals i h1 (by omega)
  · have hp := h.perm
    have hr : List.range nodes.length = List.range (2 * m - 2) ++ [root.node] := by
      rw [show nodes.length = (2 * m - 2) + 1 by omega, List.range_succ]
      congr 2; omega
    rw [hr] at hp
    exact (List.perm_append_right_iff [root.node]).mp hp
  · have := h.total
    simp only [List.map_cons, List.map_nil, List.sum_cons, List.sum_nil, Nat.add_zero] at this
    rw [← (h.items root (by simp)).2]; exact this

/-- The arena and the queue BUILD starts from (R132). -/
theorem mergeInv_initial {f : SymTable Word} {l : List Byte} (h0 : l ≠ [])
    (hord : l.Pairwise fun a b => (SymTable.get f a).toNat < (SymTable.get f b).toNat ∨
      (SymTable.get f a = SymTable.get f b ∧ a.toNat < b.toNat)) :
    MergeInv l.length (l.map fun x => (SymTable.get f x).toNat).sum (initialQueue f l) (leavesOf f l) := by
  have hlq : (initialQueue f l).length = l.length := by simp [initialQueue]
  have hll : (leavesOf f l).length = l.length := by simp [leavesOf]
  have hkids : kids (leavesOf f l) = [] := by
    simp [kids, leavesOf, List.flatMap_eq_nil_iff, Node.children]
  have hnode : (initialQueue f l).map QItem.node = List.range l.length := by
    simp only [initialQueue, List.map_map]
    have : (QItem.node ∘ fun p : Byte × Nat => ({ prio := SymTable.get f p.1, node := p.2 } : QItem)) = Prod.snd := rfl
    rw [this, List.zipIdx_map_snd, List.range_eq_range']
  have hprio : ∀ i (hi : i < l.length), prioOf (leavesOf f l) i = (SymTable.get f l[i]).toNat := by
    intro i hi
    simp [prioOf, leavesOf, hi, Node.prio]
  refine ⟨by omega, ?_, ?_, ?_, ?_, ?_, ?_, ?_⟩
  · intro h; rw [h] at hlq; simp only [List.length_nil] at hlq; exact h0 (List.length_eq_zero_iff.mp hlq.symm)
  · intro x hx
    simp only [initialQueue, List.mem_map] at hx
    obtain ⟨⟨s, i⟩, hp, rfl⟩ := hx
    have := List.mem_zipIdx hp
    simp only [Nat.zero_add, Nat.sub_zero, Nat.zero_le, true_and] at this
    obtain ⟨hi, hsi⟩ := this
    exact ⟨by rw [hll]; exact hi, by rw [hprio i hi, ← hsi]⟩
  · rw [hkids, List.nil_append, hnode, hll]
  · rw [hkids, List.nil_append, hnode, List.pairwise_iff_getElem]
    intro i j hi hj hij
    simp only [List.length_range] at hi hj
    simp only [List.getElem_range]
    have := List.pairwise_iff_getElem.mp hord i j hi hj hij
    unfold queuedBefore
    rw [hprio i hi, hprio j hj]
    rcases this with h | ⟨h, -⟩
    · exact .inl h
    · exact .inr ⟨by rw [h], hij⟩
  · simp only [initialQueue, List.map_map]
    have : ((fun x : QItem => x.prio.toNat) ∘ fun p : Byte × Nat => ({ prio := SymTable.get f p.1, node := p.2 } : QItem)) =
        (fun x => (SymTable.get f x).toNat) ∘ Prod.fst := rfl
    rw [this, ← List.map_map, List.zipIdx_map_fst]
  · intro i hi
    exact ⟨l[i], SymTable.get f l[i], by simp [leavesOf, hi]⟩
  · intro i h1 h2
    omega

/-- Everything BUILD's merging gives, for a list in the order of R131 whose counts sum below 2^32 (R132 to R136). -/
theorem builtTree_spec {f : SymTable Word} {l : List Byte} (h0 : l ≠ []) (hl : l.length ≤ 256)
    (hord : l.Pairwise fun a b => (SymTable.get f a).toNat < (SymTable.get f b).toNat ∨
      (SymTable.get f a = SymTable.get f b ∧ a.toNat < b.toNat))
    (htot : (l.map fun x => (SymTable.get f x).toNat).sum < 2 ^ 32) :
    ∃ root nodes, builtTree f l = ([root], nodes) ∧ TreeOf nodes l.length ∧ root.node = 2 * l.length - 2 ∧
      (∀ (i : Nat) (x : Byte), l[i]? = some x → nodes[i]? = some (Node.leaf x (SymTable.get f x))) ∧
      prioOf nodes root.node = (l.map fun x => (SymTable.get f x).toNat).sum ∧
      (kids nodes).Pairwise (queuedBefore nodes) := by
  have hinit := mergeInv_initial h0 hord
  obtain ⟨root, ext, h1, h2, h3⟩ := mergeQueue_spec htot l.length (initialQueue f l) (leavesOf f l)
    (by simp [initialQueue]) hinit
  have hsym : (leavesOf f l ++ ext).flatMap Node.symbols = l := by
    rw [List.flatMap_append, h3, List.append_nil]
    simp only [leavesOf, List.flatMap_map]
    induction l with
    | nil => rfl
    | cons x l ih => simp [Node.symbols]
  have hnd : l.Nodup := by
    refine hord.imp ?_
    intro a b h e
    subst e
    omega
  obtain ⟨h4, h5, h6⟩ := h2.tree hl (by rw [hsym]; exact hnd)
  refine ⟨root, leavesOf f l ++ ext, h1, h4, h5, ?_, h6, (List.pairwise_append.mp h2.sorted).1⟩
  intro i x hx
  have hi := (List.getElem?_eq_some_iff.mp hx).1
  rw [List.getElem?_append_left (by simp [leavesOf, hi])]
  simp [leavesOf, hx]

end Sys2Proof.Machine
end

