-- ==== Sys2Proof/Laws/Codes.lean ====
section
/-! SUPPORT. Codes as binary numbers, tables of entries, and what SERIALIZE emits. -/

namespace Sys2Proof.Machine

/-! ## Codes as numbers -/

theorem codeValue_foldl (c : Code) (v : Nat) :
    c.foldl (fun v b => 2 * v + b.toNat) v = v * 2 ^ c.length + codeValue c := by
  induction c generalizing v with
  | nil => simp [codeValue]
  | cons b c ih =>
    simp only [List.foldl_cons, codeValue, List.length_cons]
    rw [ih, ih (2 * 0 + b.toNat)]
    ring

@[simp] theorem codeValue_nil : codeValue [] = 0 := rfl

theorem codeValue_cons (b : Bool) (c : Code) : codeValue (b :: c) = b.toNat * 2 ^ c.length + codeValue c := by
  have := codeValue_foldl c (2 * 0 + b.toNat)
  simpa [codeValue] using this

theorem codeValue_append (a c : Code) : codeValue (a ++ c) = codeValue a * 2 ^ c.length + codeValue c := by
  unfold codeValue
  rw [List.foldl_append, codeValue_foldl]; rfl

theorem codeValue_lt (c : Code) : codeValue c < 2 ^ c.length := by
  induction c with
  | nil => simp
  | cons b c ih =>
    rw [codeValue_cons, List.length_cons, pow_succ]
    cases b <;> simp <;> omega

/-- Bit `i` of a code's number is the code's bit `i` from its end. -/
theorem testBit_codeValue (c : Code) (i : Nat) :
    (codeValue c).testBit i = if i < c.length then c.getD (c.length - 1 - i) false else false := by
  induction c generalizing i with
  | nil => simp
  | cons b c ih =>
    rw [codeValue_cons]
    have hlt := codeValue_lt c
    by_cases h : i < c.length
    · have h1 : i < (b :: c).length := by simp; omega
      have h2 : (b :: c).length - 1 - i = (c.length - 1 - i) + 1 := by simp; omega
      rw [if_pos h1, h2, List.getD_cons_succ]
      rw [Nat.mul_comm, Nat.testBit_two_pow_mul_add _ hlt, if_pos h, ih, if_pos h]
    · rw [Nat.mul_comm, Nat.testBit_two_pow_mul_add _ hlt, if_neg h]
      by_cases h1 : i = c.length
      · subst h1; cases b <;> simp
      · have h2 : ¬ i < (b :: c).length := by simp; omega
        rw [if_neg h2]
        have h3 : i - c.length ≠ 0 := by omega
        cases b
        · simp
        · exact Nat.testBit_lt_two_pow (Nat.one_lt_two_pow h3)

@[simp] theorem length_bitsOf (v len : Nat) : (bitsOf v len).length = len := by simp [bitsOf]

theorem bitsOf_succ (v len : Nat) : bitsOf v (len + 1) = v.testBit len :: bitsOf v len := by
  unfold bitsOf
  rw [List.range_succ_eq_map]
  simp only [List.map_cons, List.map_map, List.cons.injEq]
  refine ⟨by simp, List.map_congr_left ?_⟩
  intro j _
  simp only [Function.comp]
  congr 1; omega

/-- The binary numeral of a number that fits, read back (R172). -/
theorem codeValue_bitsOf (v len : Nat) : codeValue (bitsOf v len) = v % 2 ^ len := by
  induction len with
  | zero => simp [bitsOf, Nat.mod_one]
  | succ len ih =>
    rw [bitsOf_succ, codeValue_cons, ih, length_bitsOf]
    rw [pow_succ, Nat.mod_mul, Nat.testBit_eq_decide_div_mod_eq]
    have : v / 2 ^ len % 2 = 0 ∨ v / 2 ^ len % 2 = 1 := by omega
    rcases this with h | h <;> simp [h] ; ring

/-- A code that begins with another one lies in the other's interval (R175). -/
theorem codeValue_of_prefix {a c : Code} (h : a <+: c) :
    codeValue a * 2 ^ (c.length - a.length) ≤ codeValue c ∧
      codeValue c < (codeValue a + 1) * 2 ^ (c.length - a.length) := by
  obtain ⟨r, rfl⟩ := h
  have := codeValue_lt r
  rw [codeValue_append, List.length_append, Nat.add_sub_cancel_left]
  constructor
  · omega
  · rw [Nat.add_mul]; omega

/-! ## Tables of entries -/

theorem get_foldl_set (es : List (Byte × Code)) (t : SymTable (Option Code)) (x : Byte) :
    SymTable.get (es.foldl (fun c e => SymTable.set c e.1 (some e.2)) t) x =
      match (es.reverse.find? fun e => e.1 = x) with
      | some e => some e.2
      | none => SymTable.get t x := by
  induction es generalizing t with
  | nil => simp
  | cons e es ih =>
    rw [List.foldl_cons, ih, List.reverse_cons, List.find?_append]
    cases h : es.reverse.find? (fun e => e.1 = x) with
    | some e' => simp
    | none =>
      by_cases h' : e.1 = x
      · subst h'; simp
      · simp [h', get_set_other _ _ (fun h'' => h' h''.symm)]

/-- A present entry of a table of entries is one of them. -/
theorem mem_of_get_tableOf {es : List (Byte × Code)} {x : Byte} {c : Code} (h : SymTable.get (tableOf es) x = some c) :
    (x, c) ∈ es := by
  unfold tableOf at h
  rw [get_foldl_set] at h
  cases hf : es.reverse.find? (fun e => e.1 = x) with
  | none => simp [hf] at h
  | some e =>
    rw [hf] at h
    have h1 := List.find?_some hf
    have h2 := List.mem_of_find?_eq_some hf
    simp at h h1 h2
    obtain ⟨e1, e2⟩ := e
    simp only at h h1; subst h h1; exact h2

theorem get_tableOf_isSome {es : List (Byte × Code)} {x : Byte} :
    (SymTable.get (tableOf es) x).isSome = true ↔ x ∈ es.map Prod.fst := by
  unfold tableOf
  rw [get_foldl_set]
  cases hf : es.reverse.find? (fun e => e.1 = x) with
  | none =>
    simp only [get_noCodes, Option.isSome_none, Bool.false_eq_true, false_iff]
    rw [List.find?_eq_none] at hf
    intro h
    obtain ⟨e, he, rfl⟩ := List.mem_map.mp h
    exact hf e (by simpa using he) (by simp)
  | some e =>
    simp only [Option.isSome_some, true_iff]
    have h1 := List.find?_some hf
    have h2 := List.mem_of_find?_eq_some hf
    simp at h1 h2
    exact List.mem_map.mpr ⟨e, h2, h1⟩

/-- With one entry a symbol, the table's present entries are exactly the entries. -/
theorem get_tableOf {es : List (Byte × Code)} (hn : (es.map Prod.fst).Nodup) (x : Byte) (c : Code) :
    SymTable.get (tableOf es) x = some c ↔ (x, c) ∈ es := by
  refine ⟨mem_of_get_tableOf, fun h => ?_⟩
  have h1 : (SymTable.get (tableOf es) x).isSome = true := get_tableOf_isSome.mpr (List.mem_map_of_mem (f := Prod.fst) h)
  obtain ⟨c', hc'⟩ := Option.isSome_iff_exists.mp h1
  have h2 := mem_of_get_tableOf hc'
  have := List.inj_on_of_nodup_map hn h h2 rfl
  simp only [Prod.mk.injEq, true_and] at this
  rw [hc', this]

/-- Pairwise prefix-free entries make a prefix-free table. -/
theorem prefixFree_tableOf {es : List (Byte × Code)}
    (h : es.Pairwise fun a b => ¬ a.2 <+: b.2 ∧ ¬ b.2 <+: a.2) : PrefixFree (tableOf es) := by
  intro x y cx cy hxy hx hy
  have : Std.Symm fun a b : Byte × Code => ¬ a.2 <+: b.2 ∧ ¬ b.2 <+: a.2 := ⟨fun a b h => ⟨h.2, h.1⟩⟩
  have hne : ((x, cx) : Byte × Code) ≠ (y, cy) := fun e => hxy (congrArg Prod.fst e)
  exact (List.Pairwise.forall h (mem_of_get_tableOf hx) (mem_of_get_tableOf hy) hne).1

theorem presentCount_eq (c : SymTable (Option Code)) (l : List Byte) (hn : l.Nodup)
    (h : ∀ x, (SymTable.get c x).isSome = true ↔ x ∈ l) : presentCount c = l.length := by
  unfold presentCount
  rw [List.countP_eq_length_filter]
  apply List.Perm.length_eq
  rw [List.perm_ext_iff_of_nodup (nodup_symbols.filter _) hn]
  intro x
  rw [List.mem_filter, ← h x]
  exact ⟨fun h => h.2, fun h => ⟨mem_symbols x, h⟩⟩

theorem presentCount_tableOf {es : List (Byte × Code)} (hn : (es.map Prod.fst).Nodup) :
    presentCount (tableOf es) = es.length := by
  rw [presentCount_eq _ (es.map Prod.fst) hn fun x => get_tableOf_isSome, List.length_map]

/-! ## What SERIALIZE emits -/

@[simp] theorem emittedBits_nil (codes : SymTable (Option Code)) : emittedBits codes [] = [] := rfl

theorem emittedBits_append (codes : SymTable (Option Code)) (a b : List Byte) :
    emittedBits codes (a ++ b) = emittedBits codes a ++ emittedBits codes b := by
  simp [emittedBits]

theorem length_emittedBits (codes : SymTable (Option Code)) (bs : List Byte) :
    (emittedBits codes bs).length = (bs.map fun b => ((SymTable.get codes b).map List.length).getD 0).sum := by
  induction bs with
  | nil => rfl
  | cons b bs ih =>
    have : emittedBits codes (b :: bs) = (SymTable.get codes b).getD [] ++ emittedBits codes bs := rfl
    rw [this, List.length_append, ih, List.map_cons, List.sum_cons]
    cases SymTable.get codes b <;> simp

/-- Bytes that all have codes, and codes that fit: they are emitted in order (R190). -/
theorem emit_ok {codes : SymTable (Option Code)} {cap : Nat} {bs : List Byte} {i pos : Nat} {m : List (Nat × Bool)}
    (hc : ∀ b ∈ bs, (SymTable.get codes b).isSome = true) (hf : pos + (emittedBits codes bs).length ≤ cap) :
    emit codes cap bs i pos m =
      { bits := cellsWrite m pos (emittedBits codes bs), outcome := .ok (pos + (emittedBits codes bs).length) } := by
  induction bs generalizing i pos m with
  | nil => simp [emit, cellsWrite]
  | cons b bs ih =>
    obtain ⟨c, hbc⟩ := Option.isSome_iff_exists.mp (hc b (by simp))
    have he : emittedBits codes (b :: bs) = c ++ emittedBits codes bs := by simp [emittedBits, hbc]
    rw [he] at hf ⊢
    simp only [List.length_append] at hf ⊢
    unfold emit
    rw [hbc]
    simp only
    rw [if_neg (by omega), ih (fun b hb => hc b (by simp [hb])) (by omega), cellsWrite_append]
    simp [Nat.add_assoc]

/-- The first byte without a code, or whose code does not fit, ends the emission; the bits before it stay (R190, R222). -/
theorem emit_error {codes : SymTable (Option Code)} {cap : Nat} {bs rest : List Byte} {b : Byte} {i pos : Nat}
    {m : List (Nat × Bool)} (hc : ∀ x ∈ bs, (SymTable.get codes x).isSome = true)
    (hf : pos + (emittedBits codes bs).length ≤ cap)
    (hb : SymTable.get codes b = none ∨ ∃ c, SymTable.get codes b = some c ∧
      cap < pos + (emittedBits codes bs).length + c.length) :
    emit codes cap (bs ++ b :: rest) i pos m =
      { bits := cellsWrite m pos (emittedBits codes bs)
        outcome := .error (if (SymTable.get codes b).isSome then .bitbufOvf else .encNoCode, i + bs.length) } := by
  induction bs generalizing i pos m with
  | nil =>
    simp only [List.nil_append, emit, emittedBits_nil, cellsWrite, List.length_nil, Nat.add_zero] at hb ⊢
    rcases hb with hb | ⟨c, hb, hl⟩
    · simp [hb]
    · simp [hb, hl]
  | cons a bs ih =>
    obtain ⟨c, hac⟩ := Option.isSome_iff_exists.mp (hc a (by simp))
    have he : emittedBits codes (a :: bs) = c ++ emittedBits codes bs := by simp [emittedBits, hac]
    rw [he] at hf hb ⊢
    simp only [List.length_append] at hf hb ⊢
    rw [List.cons_append]
    unfold emit
    rw [hac]
    simp only
    rw [if_neg (by omega), ih (fun b hb => hc b (by simp [hb])) (by omega) (by
      rcases hb with hb | ⟨c', hb, hl⟩
      · exact .inl hb
      · exact .inr ⟨c', hb, by omega⟩), cellsWrite_append]
    simp only [List.length_cons]
    congr 3; omega

/-- Either the emission succeeds, or there is a first bad byte. -/
theorem emit_split (codes : SymTable (Option Code)) (cap : Nat) (bs : List Byte) (pos : Nat) (hp : pos ≤ cap) :
    ((∀ b ∈ bs, (SymTable.get codes b).isSome = true) ∧ pos + (emittedBits codes bs).length ≤ cap) ∨
    ∃ pre b rest, bs = pre ++ b :: rest ∧ (∀ x ∈ pre, (SymTable.get codes x).isSome = true) ∧
      pos + (emittedBits codes pre).length ≤ cap ∧
      (SymTable.get codes b = none ∨ ∃ c, SymTable.get codes b = some c ∧
        cap < pos + (emittedBits codes pre).length + c.length) := by
  induction bs generalizing pos with
  | nil => exact .inl ⟨by simp, by simpa using hp⟩
  | cons b bs ih =>
    cases hb : SymTable.get codes b with
    | none => exact .inr ⟨[], b, bs, rfl, by simp, by simpa using hp, .inl hb⟩
    | some c =>
      by_cases hl : cap < pos + c.length
      · exact .inr ⟨[], b, bs, rfl, by simp, by simpa using hp, .inr ⟨c, hb, by simpa using hl⟩⟩
      · have he : ∀ l, emittedBits codes (b :: l) = c ++ emittedBits codes l := fun l => by simp [emittedBits, hb]
        rcases ih (pos + c.length) (by omega) with ⟨h1, h2⟩ | ⟨pre, b', rest, h1, h2, h3, h4⟩
        · refine .inl ⟨?_, by rw [he, List.length_append]; omega⟩
          intro x hx
          rcases List.mem_cons.mp hx with rfl | hx
          · simp [hb]
          · exact h1 x hx
        · refine .inr ⟨b :: pre, b', rest, by simp [h1], ?_, by rw [he, List.length_append]; omega, ?_⟩
          · intro x hx
            rcases List.mem_cons.mp hx with rfl | hx
            · simp [hb]
            · exact h2 x hx
          · rcases h4 with h4 | ⟨c', h4, h5⟩
            · exact .inl h4
            · exact .inr ⟨c', h4, by rw [he, List.length_append]; omega⟩

end Sys2Proof.Machine
end

