-- ==== Sys2Proof/Laws/Count.lean ====
section
/-! SUPPORT. What COUNT leaves (R130, R131), and what the range checks do. -/

namespace Sys2Proof.Machine

/-! ## Frequencies (R130) -/

theorem length_source (s : State) : s.source.length = s.srcLen.toNat := by simp [State.source]

theorem get_frequencies (input : List Byte) (h : input.length < 2 ^ 32) (x : Byte) :
    (SymTable.get (frequencies input) x).toNat = input.count x := by
  have : input.count x ≤ input.length := List.count_le_length
  simp only [frequencies, get_tabulate, BitVec.toNat_ofNat]
  exact Nat.mod_eq_of_lt (by omega)

/-- The counts of all symbols sum to the length of the input. -/
theorem sum_count (input : List Byte) : (symbols.map fun x => input.count x).sum = input.length := by
  induction input with
  | nil => exact List.sum_eq_zero (by simp)
  | cons b input ih =>
    have h1 : (symbols.map fun x => (b :: input).count x) =
        symbols.map fun x => input.count x + if b = x then 1 else 0 := by
      refine List.map_congr_left fun x _ => ?_
      rw [List.count_cons]; simp [beq_iff_eq]
    have : (symbols.map fun x => if b = x then 1 else 0).sum = symbols.count b := by
      generalize symbols = l
      induction l with
      | nil => rfl
      | cons y l ih =>
        rw [List.map_cons, List.sum_cons, ih, List.count_cons]
        by_cases h : b = y
        · subst h; simp [Nat.add_comm]
        · simp [h, Ne.symm h]
    rw [h1, List.sum_map_add, ih, List.length_cons, this, List.count_eq_one_of_mem nodup_symbols (mem_symbols b)]

/-! ## The order of LIST (R131) -/

theorem perm_countedSymbols (f : SymTable Word) :
    (countedSymbols f).Perm (symbols.filter fun s => SymTable.get f s != 0#32) := List.perm_insertionSort _ _

theorem mem_countedSymbols (f : SymTable Word) (x : Byte) : x ∈ countedSymbols f ↔ SymTable.get f x ≠ 0#32 := by
  rw [(perm_countedSymbols f).mem_iff, List.mem_filter]
  simp [mem_symbols]

theorem nodup_countedSymbols (f : SymTable Word) : (countedSymbols f).Nodup :=
  (perm_countedSymbols f).nodup_iff.mpr (nodup_symbols.filter _)

theorem length_countedSymbols (f : SymTable Word) :
    (countedSymbols f).length = symbols.countP fun s => SymTable.get f s != 0#32 := by
  rw [(perm_countedSymbols f).length_eq, List.countP_eq_length_filter]

theorem length_countedSymbols_le (f : SymTable Word) : (countedSymbols f).length ≤ 256 := by
  rw [length_countedSymbols]
  exact (List.countP_le_length).trans (le_of_eq length_symbols)

theorem pairwise_countedSymbols (f : SymTable Word) : (countedSymbols f).Pairwise fun a b =>
    (SymTable.get f a).toNat < (SymTable.get f b).toNat ∨ (SymTable.get f a = SymTable.get f b ∧ a.toNat < b.toNat) := by
  have hs : (countedSymbols f).Pairwise fun a b => listBefore f a b = true := by
    have : Std.Total fun (a b : Byte) => listBefore f a b = true := ⟨fun a b => by
      simp only [listBefore, Bool.or_eq_true, Bool.and_eq_true, decide_eq_true_eq, beq_iff_eq]
      rcases Nat.lt_trichotomy (SymTable.get f a).toNat (SymTable.get f b).toNat with h | h | h
      · exact .inl (.inl h)
      · have := BitVec.eq_of_toNat_eq h
        rcases Nat.le_total a.toNat b.toNat with h' | h'
        · exact .inl (.inr ⟨this, h'⟩)
        · exact .inr (.inr ⟨this.symm, h'⟩)
      · exact .inr (.inl h)⟩
    have : IsTrans Byte fun a b => listBefore f a b = true := ⟨fun a b c => by
      simp only [listBefore, Bool.or_eq_true, Bool.and_eq_true, decide_eq_true_eq, beq_iff_eq]
      intro h1 h2
      have e : ∀ {u v : Word}, u = v → u.toNat = v.toNat := fun h => by rw [h]
      rcases h1 with h1 | ⟨h1, h1'⟩ <;> rcases h2 with h2 | ⟨h2, h2'⟩
      · exact .inl (by omega)
      · exact .inl (by rw [← h2]; exact h1)
      · exact .inl (by rw [h1]; exact h2)
      · exact .inr ⟨h1.trans h2, by omega⟩⟩
    exact List.pairwise_insertionSort _ _
  refine (hs.and (nodup_countedSymbols f)).imp ?_
  rintro a b ⟨h, hne⟩
  simp only [listBefore, Bool.or_eq_true, Bool.and_eq_true, decide_eq_true_eq, beq_iff_eq] at h
  rcases h with h | ⟨h, h'⟩
  · exact .inl h
  · refine .inr ⟨h, ?_⟩
    have : a.toNat ≠ b.toNat := fun e => hne (BitVec.eq_of_toNat_eq e)
    omega

/-! ## What COUNT leaves -/

/-- What holds of LIST and FREQ after a COUNT that was not turned away. -/
structure Counted (s t : State) : Prop where
  freq : t.freq = frequencies s.source
  listed : t.listed = countedSymbols (frequencies s.source)
  numSyms : t.numSyms.toNat = (countedSymbols (frequencies s.source)).length
  stored : t.numSyms.toNat ≤ t.list.length
  params : t.params = s.params

/-- COUNT's body is turned away, or it counts (R130, R131). -/
theorem countBody_cases (s : State) :
    (s.params.srcBytes < s.srcLen.toNat ∧ countBody s = .raised .lenRange 0x010#32 s) ∨
    (s.srcLen.toNat ≤ s.params.srcBytes ∧ ∃ t, countBody s = .finished .ok t ∧ Counted s t ∧
      t = { s with freq := t.freq, list := t.list, numSyms := t.numSyms }) := by
  unfold countBody
  by_cases h : s.params.srcBytes < s.srcLen.toNat
  · exact .inl ⟨h, by rw [if_pos h]⟩
  · rw [if_neg h]
    have hn : (BitVec.ofNat 9 (countedSymbols (frequencies s.source)).length).toNat =
        (countedSymbols (frequencies s.source)).length := by
      rw [BitVec.toNat_ofNat]
      have := length_countedSymbols_le (frequencies s.source)
      exact Nat.mod_eq_of_lt (by omega)
    refine .inr ⟨by omega, _, rfl, ⟨rfl, ?_, hn, ?_, rfl⟩, rfl⟩
    · simp only [State.listed, hn, take_overlay]
    · simp only [hn, length_overlay]; omega

/-- After COUNT, LIST is in order and complete (R131, R136). -/
theorem Counted.listOk {s t : State} (h : Counted s t) (hl : s.srcLen.toNat ≤ s.params.srcBytes) : ListOk t := by
  have hlen : s.source.length < 2 ^ 32 := by rw [length_source]; exact s.srcLen.isLt
  refine ⟨?_, h.stored, ?_, ?_, ?_⟩
  · rw [h.numSyms]; exact length_countedSymbols_le _
  · intro x
    rw [h.listed, h.freq, mem_countedSymbols]
  · rw [h.listed, h.freq]; exact pairwise_countedSymbols _
  · rw [h.params, h.freq]
    have : (symbols.map fun x => (SymTable.get (frequencies s.source) x).toNat) = symbols.map fun x => s.source.count x :=
      List.map_congr_left fun x _ => get_frequencies _ hlen x
    rw [this, sum_count, length_source]
    exact hl

/-- What BUILD needs of LIST: no repeats, and counts that sum below 2^32 when SRC's capacity does (R136). -/
theorem ListOk.nodup {s : State} (h : ListOk s) : s.listed.Nodup := by
  refine h.order.imp ?_
  intro a b hab e
  subst e
  omega

theorem ListOk.length {s : State} (h : ListOk s) : s.listed.length = s.numSyms.toNat := by
  simp [State.listed, h.stored]

theorem ListOk.sum_le {s : State} (h : ListOk s) :
    (s.listed.map fun x => (SymTable.get s.freq x).toNat).sum ≤ s.params.srcBytes := by
  refine le_trans ?_ h.total
  have hsub : s.listed.Subperm symbols := List.subperm_of_subset h.nodup fun x _ => mem_symbols x
  obtain ⟨l, hp, hl⟩ := hsub
  rw [← (hp.map fun x => (SymTable.get s.freq x).toNat).sum_eq]
  exact (hl.map _).sum_le_sum (by simp)

theorem Params.srcBytes_lt {p : Params} (h : p.wf = true) : p.srcBytes < 2 ^ 32 := by
  simp only [Params.wf, byteCapacityOk, Bool.and_eq_true, decide_eq_true_eq] at h
  omega

end Sys2Proof.Machine
end

