-- ==== Sys2Proof/Laws/DecodeTree.lean ====
section
/-! SUPPORT. What a decode-tree arena spells while MATERIALIZE places codes in it (R153, R154), and how DECODE traverses it (R193). -/

namespace Sys2Proof.Machine

/-! ## Following bits -/

@[simp] theorem follow_nil (t : List Branch) (d : Desc) : follow t d [] = d := by cases d <;> rfl

theorem follow_branch_cons (t : List Branch) (i : Nat) (b : Bool) (c : Code) :
    follow t (.branch i) (b :: c) = follow t ((branchAt t i).child b) c := rfl

@[simp] theorem follow_absent (t : List Branch) (c : Code) : follow t .absent c = .absent := by cases c <;> rfl

theorem follow_leaf (t : List Branch) (x : Byte) (c : Code) : follow t (.leaf x) c = if c = [] then .leaf x else .absent := by
  cases c <;> simp [follow]

theorem follow_append (t : List Branch) (d : Desc) (a c : Code) : follow t d (a ++ c) = follow t (follow t d a) c := by
  induction a generalizing d with
  | nil => simp
  | cons b a ih =>
    cases d with
    | branch i => rw [List.cons_append, follow_branch_cons, ih, follow_branch_cons]
    | absent => simp
    | leaf x => rw [follow_leaf, follow_leaf]; simp

/-- Whether following bits from the first entry ends at a branch. -/
def atBranch (t : List Branch) (q : Code) : Prop := ∃ i, follow t (.branch 0) q = .branch i

/-! ## The arena while codes are placed -/

/-- The arena's branches lead to later entries, and no entry has two parents. -/
structure ArenaOk (t : List Branch) : Prop where
  closed : ∀ i b n, i < t.length → (branchAt t i).child b = .branch n → i < n ∧ n < t.length
  parent : ∀ i j b b' n, i < t.length → j < t.length → (branchAt t i).child b = .branch n →
    (branchAt t j).child b' = .branch n → i = j ∧ b = b'

theorem child_setChild (x : Branch) (b b' : Bool) (d : Desc) :
    (x.setChild b d).child b' = if b' = b then d else x.child b' := by
  cases b <;> cases b' <;> simp [Branch.setChild, Branch.child]

theorem branchAt_set (t : List Branch) (i j : Nat) (x : Branch) (hi : i < t.length) :
    branchAt (t.set i x) j = if j = i then x else branchAt t j := by
  unfold branchAt
  by_cases h : j = i
  · subst h; simp [hi]
  · simp [h, List.getElem?_set_ne (fun h' => h h'.symm)]

theorem branchAt_append (t u : List Branch) (j : Nat) :
    branchAt (t ++ u) j = if j < t.length then branchAt t j else branchAt u (j - t.length) := by
  unfold branchAt
  by_cases h : j < t.length
  · simp [h, List.getElem?_append_left h]
  · simp [h, List.getElem?_append_right (Nat.le_of_not_lt h)]

theorem child_emptyBranch (b : Bool) : emptyBranch.child b = .absent := by cases b <;> rfl

theorem branchAt_out (t : List Branch) (j : Nat) (h : t.length ≤ j) : branchAt t j = emptyBranch := by
  unfold branchAt; simp [h]

theorem follow_branch_bound {t : List Branch} (h : ArenaOk t) (h0 : 0 < t.length) {q : Code} {n : Nat}
    (hq : follow t (.branch 0) q = .branch n) : n < t.length := by
  induction q using List.reverseRecOn generalizing n with
  | nil => simp at hq; omega
  | append_singleton q b ih =>
    rw [follow_append] at hq
    cases hf : follow t (.branch 0) q with
    | branch i => rw [hf, follow_branch_cons, follow_nil] at hq; exact (h.closed i b n (ih hf) hq).2
    | absent => rw [hf] at hq; simp at hq
    | leaf x => rw [hf, follow_leaf] at hq; simp at hq

/-- The path to an entry is unique. -/
theorem follow_branch_unique {t : List Branch} (h : ArenaOk t) (h0 : 0 < t.length) {p q : Code} {n : Nat}
    (hp : follow t (.branch 0) p = .branch n) (hq : follow t (.branch 0) q = .branch n) : p = q := by
  induction p using List.reverseRecOn generalizing q n with
  | nil =>
    simp at hp; subst hp
    rcases List.eq_nil_or_concat q with rfl | ⟨q', b, rfl⟩
    · rfl
    · exfalso
      rw [List.concat_eq_append, follow_append] at hq
      cases hf : follow t (.branch 0) q' with
      | branch i =>
        rw [hf, follow_branch_cons, follow_nil] at hq
        have := (h.closed i b 0 (follow_branch_bound h h0 hf) hq).1
        omega
      | absent => rw [hf] at hq; simp at hq
      | leaf x => rw [hf, follow_leaf] at hq; simp at hq
  | append_singleton p b ih =>
    rw [follow_append] at hp
    cases hf : follow t (.branch 0) p with
    | absent => rw [hf] at hp; simp at hp
    | leaf x => rw [hf, follow_leaf] at hp; simp at hp
    | branch i =>
      rw [hf, follow_branch_cons, follow_nil] at hp
      have hi := follow_branch_bound h h0 hf
      rcases List.eq_nil_or_concat q with rfl | ⟨q', b', rfl⟩
      · exfalso
        simp at hq; subst hq
        have := (h.closed i b 0 hi hp).1
        omega
      · rw [List.concat_eq_append] at hq ⊢
        rw [follow_append] at hq
        cases hf' : follow t (.branch 0) q' with
        | absent => rw [hf'] at hq; simp at hq
        | leaf x => rw [hf', follow_leaf] at hq; simp at hq
        | branch j =>
          rw [hf', follow_branch_cons, follow_nil] at hq
          obtain ⟨rfl, rfl⟩ := h.parent i j b b' n hi (follow_branch_bound h h0 hf') hp hq
          rw [ih hf hf']

/-- One update of an absent child changes what is spelled exactly beyond that child. -/
theorem follow_update {t t' : List Branch} (h : ArenaOk t) (h0 : 0 < t.length) {node : Nat} {b : Bool} {d : Desc} {p : Code}
    (hp : follow t (.branch 0) p = .branch node) (ha : (branchAt t node).child b = .absent)
    (hn : (branchAt t' node).child b = d)
    (hs : ∀ i b', i < t.length → ¬ (i = node ∧ b' = b) → (branchAt t' i).child b' = (branchAt t i).child b')
    (hd : ∀ c, c ≠ [] → follow t' d c = .absent) (q : Code) :
    follow t' (.branch 0) q = if q = p ++ [b] then d else follow t (.branch 0) q := by
  have gen : ∀ (q u : Code) (i : Nat), follow t (.branch 0) u = .branch i →
      follow t' (.branch i) q = if u ++ q = p ++ [b] then d else follow t (.branch i) q := by
    intro q
    induction q with
    | nil =>
      intro u i hu
      rw [if_neg]
      · simp
      · rintro e
        rw [List.append_nil] at e
        rw [e, follow_append, hp, follow_branch_cons, follow_nil, ha] at hu
        cases hu
    | cons b' q ih =>
      intro u i hu
      have hi := follow_branch_bound h h0 hu
      rw [follow_branch_cons, follow_branch_cons]
      by_cases hib : i = node ∧ b' = b
      · obtain ⟨rfl, rfl⟩ := hib
        have hup : u = p := follow_branch_unique h h0 hu hp
        subst hup
        rw [hn, ha]
        by_cases hq : q = []
        · subst hq; simp
        · rw [hd q hq, if_neg]
          · simp
          · intro e
            have := List.append_cancel_left e
            simp at this
            exact hq this
      · rw [hs i b' hi hib]
        have hne : u ++ b' :: q = p ++ [b] → q = [] → False := by
          intro e hq
          subst hq
          have := List.append_inj' e rfl
          obtain ⟨e1, e2⟩ := this
          simp at e2
          subst e1 e2
          rw [hp] at hu
          cases hu
          exact hib ⟨rfl, rfl⟩
        cases hc : (branchAt t i).child b' with
        | absent =>
          rw [follow_absent, follow_absent, if_neg]
          intro e
          by_cases hq : q = []
          · exact hne e hq
          · -- the path to `node` would pass an absent child
            have hpq : p = u ++ b' :: q.dropLast := by
              have := congrArg List.dropLast e
              rw [List.dropLast_concat, List.dropLast_append_of_ne_nil (by simp), List.dropLast_cons_of_ne_nil hq] at this
              exact this.symm
            rw [hpq, follow_append, hu, follow_branch_cons, hc, follow_absent] at hp
            cases hp
        | leaf x =>
          have hno : ¬ u ++ b' :: q = p ++ [b] := by
            intro e
            by_cases hq : q = []
            · exact hne e hq
            · have hpq : p = u ++ b' :: q.dropLast := by
                have := congrArg List.dropLast e
                rw [List.dropLast_concat, List.dropLast_append_of_ne_nil (by simp), List.dropLast_cons_of_ne_nil hq] at this
                exact this.symm
              rw [hpq, follow_append, hu, follow_branch_cons, hc, follow_leaf] at hp
              split at hp <;> cases hp
          rw [follow_leaf, follow_leaf, if_neg hno]
        | branch n =>
          have := ih (u ++ [b']) n (by rw [follow_append, hu, follow_branch_cons, hc, follow_nil])
          rw [this]
          simp
  have := gen q [] 0 (by simp)
  simpa using this

theorem arenaOk_set_leaf {t : List Branch} (h : ArenaOk t) {node : Nat} (b : Bool) (x : Byte) (hn : node < t.length) :
    ArenaOk (t.set node ((branchAt t node).setChild b (.leaf x))) := by
  have hc : ∀ i b' n, (branchAt (t.set node ((branchAt t node).setChild b (.leaf x))) i).child b' = .branch n →
      (branchAt t i).child b' = .branch n := by
    intro i b' n hi
    rw [branchAt_set _ _ _ _ hn] at hi
    split at hi
    · next e =>
      subst e
      rw [child_setChild] at hi
      split at hi
      · cases hi
      · exact hi
    · exact hi
  constructor
  · intro i b' n hi hb
    rw [List.length_set] at hi ⊢
    exact h.closed i b' n hi (hc i b' n hb)
  · intro i j b1 b2 n hi hj h1 h2
    rw [List.length_set] at hi hj
    exact h.parent i j b1 b2 n hi hj (hc _ _ _ h1) (hc _ _ _ h2)

/-- The arena after a branch is allocated below entry `node`. -/
def allocate (t : List Branch) (node : Nat) (b : Bool) : List Branch :=
  t.set node ((branchAt t node).setChild b (.branch t.length)) ++ [emptyBranch]

theorem length_allocate (t : List Branch) (node : Nat) (b : Bool) : (allocate t node b).length = t.length + 1 := by
  simp [allocate]

theorem branchAt_allocate (t : List Branch) {node : Nat} (b : Bool) (hn : node < t.length) (i : Nat) :
    branchAt (allocate t node b) i =
      if i = node then (branchAt t node).setChild b (.branch t.length)
      else if i < t.length then branchAt t i else emptyBranch := by
  unfold allocate
  rw [branchAt_append, List.length_set]
  by_cases h : i < t.length
  · rw [if_pos h, branchAt_set _ _ _ _ hn]
    split <;> rfl
  · rw [if_neg h, if_neg (by omega), if_neg h]
    by_cases h' : i - t.length = 0
    · rw [h']; rfl
    · exact branchAt_out _ _ (by simp; omega)

theorem arenaOk_allocate {t : List Branch} (h : ArenaOk t) {node : Nat} (b : Bool) (hn : node < t.length) :
    ArenaOk (allocate t node b) := by
  have hc : ∀ i b' n, (branchAt (allocate t node b) i).child b' = .branch n →
      (i = node ∧ b' = b ∧ n = t.length) ∨ (i < t.length ∧ (branchAt t i).child b' = .branch n) := by
    intro i b' n hi
    rw [branchAt_allocate t b hn] at hi
    split at hi
    · next e =>
      subst e
      rw [child_setChild] at hi
      split at hi
      · next e' => cases hi; exact .inl ⟨rfl, e', rfl⟩
      · exact .inr ⟨hn, hi⟩
    · split at hi
      · next hl => exact .inr ⟨hl, hi⟩
      · rw [child_emptyBranch] at hi; cases hi
  constructor
  · intro i b' n _ hb
    rw [length_allocate]
    rcases hc i b' n hb with ⟨rfl, rfl, rfl⟩ | ⟨hl, hb⟩
    · omega
    · have := h.closed i b' n hl hb; omega
  · intro i j b1 b2 n _ _ h1 h2
    rcases hc i b1 n h1 with ⟨rfl, rfl, rfl⟩ | ⟨hl, hb⟩ <;> rcases hc j b2 _ h2 with ⟨rfl, rfl, h'⟩ | ⟨hl', hb'⟩
    · exact ⟨rfl, rfl⟩
    · have := (h.closed j b2 _ hl' hb').2; omega
    · have := (h.closed i b1 _ hl hb).2; omega
    · exact h.parent i j b1 b2 n hl hl' hb hb'

theorem follow_set_leaf {t : List Branch} (h : ArenaOk t) (h0 : 0 < t.length) {node : Nat} {b : Bool} {p : Code} (x : Byte)
    (hp : follow t (.branch 0) p = .branch node) (ha : (branchAt t node).child b = .absent) (q : Code) :
    follow (t.set node ((branchAt t node).setChild b (.leaf x))) (.branch 0) q =
      if q = p ++ [b] then .leaf x else follow t (.branch 0) q := by
  have hn := follow_branch_bound h h0 hp
  refine follow_update h h0 hp ha ?_ ?_ ?_ q
  · rw [branchAt_set _ _ _ _ hn, if_pos rfl, child_setChild, if_pos rfl]
  · intro i b' _ hib
    rw [branchAt_set _ _ _ _ hn]
    split
    · next e => subst e; rw [child_setChild, if_neg (fun e => hib ⟨rfl, e⟩)]
    · rfl
  · intro c hc; rw [follow_leaf, if_neg hc]

theorem follow_allocate {t : List Branch} (h : ArenaOk t) (h0 : 0 < t.length) {node : Nat} {b : Bool} {p : Code}
    (hp : follow t (.branch 0) p = .branch node) (ha : (branchAt t node).child b = .absent) (q : Code) :
    follow (allocate t node b) (.branch 0) q =
      if q = p ++ [b] then .branch t.length else follow t (.branch 0) q := by
  have hn := follow_branch_bound h h0 hp
  refine follow_update h h0 hp ha ?_ ?_ ?_ q
  · rw [branchAt_allocate t b hn, if_pos rfl, child_setChild, if_pos rfl]
  · intro i b' hi hib
    rw [branchAt_allocate t b hn]
    split
    · next e => subst e; rw [child_setChild, if_neg (fun e => hib ⟨rfl, e⟩)]
    · rfl
  · intro c hc
    cases c with
    | nil => exact absurd rfl hc
    | cons b' c =>
      rw [follow_branch_cons, branchAt_allocate t b hn, if_neg (by omega), if_neg (by omega), child_emptyBranch,
        follow_absent]

/-! ## Placing one code -/

/-- What placing `c` below the entry at path `p` leaves: the new terminal, the new branches on the way, nothing else. -/
structure Placed (t t' : List Branch) (p c : Code) (sym : Byte) : Prop where
  ok : ArenaOk t'
  grows : t.length ≤ t'.length
  atMost : t'.length + 1 ≤ t.length + c.length
  leaves : ∀ x q, follow t' (.branch 0) q = .leaf x ↔ follow t (.branch 0) q = .leaf x ∨ (q = p ++ c ∧ x = sym)
  branches : ∀ q, atBranch t' q ↔ atBranch t q ∨ (p <+: q ∧ q <+: p ++ c ∧ q ≠ p ++ c)
  free : ¬ atBranch t (p ++ c) ∧ ∀ x q, follow t (.branch 0) q = .leaf x → ¬ q <+: p ++ c

theorem prefix_of_prefix_concat {q p : Code} {b : Bool} (h : q <+: p ++ [b]) : q <+: p ∨ q = p ++ [b] := by
  obtain ⟨r, hr⟩ := h
  rcases List.eq_nil_or_concat r with rfl | ⟨r', b', rfl⟩
  · exact .inr (by simpa using hr)
  · refine .inl ⟨r', ?_⟩
    rw [List.concat_eq_append, ← List.append_assoc] at hr
    exact (List.append_inj' hr rfl).1

/-- On the way to a branch there is no terminal. -/
theorem no_leaf_above {t : List Branch} {p : Code} {i : Nat} (hp : follow t (.branch 0) p = .branch i) {x : Byte} {q : Code}
    (hq : follow t (.branch 0) q = .leaf x) : ¬ q <+: p := by
  rintro ⟨r, rfl⟩
  rw [follow_append, hq, follow_leaf] at hp
  split at hp <;> cases hp

/-- Every prefix of a path to a branch is a path to a branch. -/
theorem atBranch_of_prefix {t : List Branch} {p q : Code} (hp : atBranch t p) (hq : q <+: p) : atBranch t q := by
  obtain ⟨i, hp⟩ := hp
  obtain ⟨r, rfl⟩ := hq
  rw [follow_append] at hp
  cases hf : follow t (.branch 0) q with
  | branch j => exact ⟨j, hf⟩
  | absent => rw [hf] at hp; simp at hp
  | leaf x => rw [hf, follow_leaf] at hp; split at hp <;> cases hp

/-- Placing a code below an entry succeeds, leaving what `Placed` says, or meets a terminal on the way or a branch at its end
(R153, R154). -/
theorem placeBits_spec (sym : Byte) (c : Code) : ∀ (node : Nat) (t : List Branch) (p : Code), c ≠ [] → ArenaOk t → 0 < t.length →
    follow t (.branch 0) p = .branch node →
    match placeBits sym c node t with
    | some t' => Placed t t' p c sym
    | none => atBranch t (p ++ c) ∨ ∃ x q, follow t (.branch 0) q = .leaf x ∧ q <+: p ++ c := by
  induction c with
  | nil => intro node t p hc; exact absurd rfl hc
  | cons b c ih =>
    intro node t p _ h h0 hp
    have hn := follow_branch_bound h h0 hp
    have hstep : follow t (.branch 0) (p ++ [b]) = (branchAt t node).child b := by
      rw [follow_append, hp, follow_branch_cons, follow_nil]
    cases c with
    | nil =>
      unfold placeBits
      cases hd : (branchAt t node).child b with
      | absent =>
        simp only
        refine ⟨arenaOk_set_leaf h b sym hn, by simp, by simp, ?_, ?_, ?_, ?_⟩
        · intro x q
          rw [follow_set_leaf h h0 sym hp hd]
          split
          · next e =>
            subst e
            rw [hstep, hd]
            simp [eq_comm]
          · next e => simp [e]
        · intro q
          unfold atBranch
          rw [follow_set_leaf h h0 sym hp hd]
          constructor
          · rintro ⟨i, hi⟩
            split at hi
            · cases hi
            · exact .inl ⟨i, hi⟩
          · rintro (⟨i, hi⟩ | ⟨h1, h2, h3⟩)
            · refine ⟨i, ?_⟩
              rw [if_neg]
              · exact hi
              · rintro rfl; rw [hstep, hd] at hi; cases hi
            · rcases prefix_of_prefix_concat h2 with h2 | h2
              · have : q = p := h2.eq_of_length_le h1.length_le
                subst this
                exact ⟨node, by rw [if_neg (by simp), hp]⟩
              · exact absurd h2 h3
        · rintro ⟨i, hi⟩; rw [hstep, hd] at hi; cases hi
        · intro x q hq hpre
          rcases prefix_of_prefix_concat hpre with h2 | rfl
          · exact no_leaf_above hp hq h2
          · rw [hstep, hd] at hq; cases hq
      | branch i => exact .inl ⟨i, by rw [hstep, hd]⟩
      | leaf x => exact .inr ⟨x, p ++ [b], by rw [hstep, hd], List.prefix_refl _⟩
    | cons b' c =>
      have happ : p ++ b :: b' :: c = (p ++ [b]) ++ b' :: c := by simp
      unfold placeBits
      cases hd : (branchAt t node).child b with
      | leaf x =>
        refine .inr ⟨x, p ++ [b], by rw [hstep, hd], ?_⟩
        rw [happ]; exact List.prefix_append _ _
      | branch i =>
        simp only
        have := ih i t (p ++ [b]) (by simp) h h0 (by rw [hstep, hd])
        cases hr : placeBits sym (b' :: c) i t with
        | none => rw [hr] at this; rw [happ]; exact this
        | some t' =>
          rw [hr] at this
          simp only at this ⊢
          refine ⟨this.ok, this.grows, by have := this.atMost; simp at this ⊢; omega, ?_, ?_, ?_⟩
          · intro x q; rw [this.leaves, happ]
          · intro q
            rw [this.branches, happ]
            constructor
            · rintro (h1 | ⟨h1, h2, h3⟩)
              · exact .inl h1
              · exact .inr ⟨(List.prefix_append p [b]).trans h1, h2, h3⟩
            · rintro (h1 | ⟨h1, h2, h3⟩)
              · exact .inl h1
              · by_cases h4 : p ++ [b] <+: q
                · exact .inr ⟨h4, h2, h3⟩
                · refine .inl (atBranch_of_prefix ⟨i, by rw [hstep, hd]⟩ ?_)
                  rcases List.prefix_or_prefix_of_prefix h2 (List.prefix_append (p ++ [b]) (b' :: c)) with h5 | h5
                  · exact h5
                  · exact absurd h5 h4
          · rw [happ]; exact this.free
      | absent =>
        simp only
        have hfo := follow_allocate h h0 hp hd
        have h0' : 0 < (allocate t node b).length := by rw [length_allocate]; omega
        have := ih t.length (allocate t node b) (p ++ [b]) (by simp) (arenaOk_allocate h b hn) h0' (by rw [hfo, if_pos rfl])
        have hlong : follow t (.branch 0) (p ++ [b] ++ b' :: c) = .absent := by
          rw [follow_append, hstep, hd, follow_absent]
        rw [show t.set node ((branchAt t node).setChild b (.branch t.length)) ++ [emptyBranch] = allocate t node b from rfl]
        cases hr : placeBits sym (b' :: c) t.length (allocate t node b) with
        | none =>
          rw [hr] at this
          simp only at this ⊢
          rw [happ]
          rcases this with ⟨i, hi⟩ | ⟨x, q, hq, hpre⟩
          · rw [hfo, if_neg (by simp), hlong] at hi; cases hi
          · rw [hfo] at hq
            split at hq
            · cases hq
            · exact .inr ⟨x, q, hq, hpre⟩
        | some t' =>
          rw [hr] at this
          simp only at this ⊢
          have hat : ∀ q, atBranch (allocate t node b) q ↔ atBranch t q ∨ q = p ++ [b] := by
            intro q
            unfold atBranch
            rw [hfo]
            by_cases e : q = p ++ [b]
            · simp [e]
            · simp [e]
          refine ⟨this.ok, by have := this.grows; rw [length_allocate] at this; omega, ?_, ?_, ?_, ?_, ?_⟩
          · have := this.atMost; rw [length_allocate] at this; simp at this ⊢; omega
          · intro x q
            rw [this.leaves, happ, hfo]
            by_cases e : q = p ++ [b]
            · subst e
              rw [if_pos rfl, hstep, hd]
              simp
            · rw [if_neg e]
          · intro q
            rw [this.branches, happ, hat]
            constructor
            · rintro ((h1 | rfl) | ⟨h1, h2, h3⟩)
              · exact .inl h1
              · exact .inr ⟨List.prefix_append _ _, List.prefix_append _ _, by simp⟩
              · exact .inr ⟨(List.prefix_append p [b]).trans h1, h2, h3⟩
            · rintro (h1 | ⟨h1, h2, h3⟩)
              · exact .inl (.inl h1)
              · by_cases h4 : p ++ [b] <+: q
                · exact .inr ⟨h4, h2, h3⟩
                · rcases List.prefix_or_prefix_of_prefix h2 (List.prefix_append (p ++ [b]) (b' :: c)) with h5 | h5
                  · rcases prefix_of_prefix_concat h5 with h6 | h6
                    · exact .inl (.inl (atBranch_of_prefix ⟨node, hp⟩ h6))
                    · exact .inl (.inr h6)
                  · exact absurd h5 h4
          · rw [happ]
            rintro ⟨i, hi⟩; rw [hlong] at hi; cases hi
          · rw [happ]
            intro x q hq hpre
            refine this.free.2 x q ?_ hpre
            rw [hfo, if_neg]
            · exact hq
            · rintro rfl; rw [hstep, hd] at hq; cases hq

/-! ## Placing all codes -/

/-- Two codes collide when one is a prefix of the other (R154). -/
def Collide (a c : Code) : Prop := a <+: c ∨ c <+: a

/-- The shadow tree spells exactly the entries, and has branches exactly on the way to them. -/
structure Spells (sh : Shadow) (es : List (Byte × Code)) : Prop where
  shape : (sh.root = .absent ∧ sh.nodes = []) ∨ (∃ x, sh.root = .leaf x ∧ sh.nodes = []) ∨
    (sh.root = .branch 0 ∧ 0 < sh.nodes.length ∧ ArenaOk sh.nodes)
  leaves : ∀ x q, follow sh.nodes sh.root q = .leaf x ↔ (x, q) ∈ es
  branches : ∀ q, (∃ i, follow sh.nodes sh.root q = .branch i) ↔ ∃ e ∈ es, q <+: e.2 ∧ q ≠ e.2
  count : sh.nodes.length ≤ (es.map fun e => e.2.length).sum

theorem spells_empty : Spells { root := .absent, nodes := [] } [] :=
  ⟨.inl ⟨rfl, rfl⟩, by simp, by simp, by simp⟩

theorem arenaOk_empty : ArenaOk [emptyBranch] := by
  have h : ∀ i b n, (branchAt [emptyBranch] i).child b ≠ .branch n := by
    intro i b n
    have : branchAt [emptyBranch] i = emptyBranch := by
      cases i with
      | zero => rfl
      | succ i => exact branchAt_out _ _ (by simp)
    rw [this, child_emptyBranch]; simp
  exact ⟨fun i b n _ hb => absurd hb (h i b n), fun i j b b' n _ _ hb => absurd hb (h i b n)⟩

/-- Placing one code in a tree that has a branch root. -/
theorem spells_of_placed {sh : Shadow} {es : List (Byte × Code)} {t' : List Branch} {sym : Byte} {c : Code}
    (h : Spells sh es) (hr : sh.root = .branch 0) (hp : Placed sh.nodes t' [] c sym) (h0 : 0 < sh.nodes.length) :
    Spells { root := .branch 0, nodes := t' } ((sym, c) :: es) ∧ ∀ e ∈ es, ¬ Collide e.2 c := by
  have hl : ∀ x q, follow sh.nodes (.branch 0) q = .leaf x ↔ (x, q) ∈ es := by
    have := h.leaves; rwa [hr] at this
  have hb : ∀ q, atBranch sh.nodes q ↔ ∃ e ∈ es, q <+: e.2 ∧ q ≠ e.2 := by
    have := h.branches; rwa [hr] at this
  refine ⟨⟨.inr (.inr ⟨rfl, Nat.lt_of_lt_of_le h0 hp.grows, hp.ok⟩), ?_, ?_, ?_⟩, ?_⟩
  · intro x q
    rw [hp.leaves, hl]
    simp [and_comm, or_comm]
  · intro q
    show atBranch t' q ↔ _
    rw [hp.branches, hb]
    simp only [List.nil_prefix, true_and, List.nil_append, List.mem_cons]
    constructor
    · rintro (⟨e, he, h1⟩ | h1)
      · exact ⟨e, .inr he, h1⟩
      · exact ⟨(sym, c), .inl rfl, h1⟩
    · rintro ⟨e, rfl | he, h1⟩
      · exact .inr h1
      · exact .inl ⟨e, he, h1⟩
  · have h1 := hp.atMost
    have h2 := h.count
    simp only [List.map_cons, List.sum_cons]
    omega
  · rintro ⟨x, q⟩ he (h1 | h1)
    · exact hp.free.2 x q ((hl x q).mpr he) (by simpa using h1)
    · by_cases h2 : c = q
      · subst h2
        exact hp.free.2 x c ((hl x c).mpr he) (by simp)
      · exact hp.free.1 (by simpa using (hb c).mpr ⟨(x, q), he, h1, h2⟩)

theorem placeCode_spec {sh : Shadow} {es : List (Byte × Code)} (sym : Byte) (c : Code) (h : Spells sh es) :
    match placeCode sym c sh with
    | some sh' => Spells sh' ((sym, c) :: es) ∧ ∀ e ∈ es, ¬ Collide e.2 c
    | none => ∃ e ∈ es, Collide e.2 c := by
  cases c with
  | nil =>
    unfold placeCode
    rcases h.shape with ⟨hr, hn⟩ | ⟨x, hr, hn⟩ | ⟨hr, h0, -⟩
    · have hes : es = [] := by
        rcases es with _ | ⟨⟨x, q⟩, es⟩
        · rfl
        · have := (h.leaves x q).mpr (by simp)
          rw [hr, follow_absent] at this; cases this
      subst hes
      rw [hr]
      refine ⟨⟨.inr (.inl ⟨sym, rfl, hn⟩), ?_, ?_, by simp [hn]⟩, by simp⟩
      · intro x q
        simp only [follow_leaf, List.mem_singleton, Prod.mk.injEq]
        split
        · next e => simp [e, eq_comm]
        · next e => simp [e]
      · intro q
        simp only [follow_leaf]
        constructor
        · rintro ⟨i, hi⟩; split at hi <;> cases hi
        · rintro ⟨e, he, h1, h2⟩
          simp only [List.mem_singleton] at he
          subst he
          exact absurd (List.prefix_nil.mp h1) h2
    · rw [hr]
      refine ⟨(x, []), (h.leaves x []).mp (by rw [hr, follow_nil]), .inl (List.prefix_refl _)⟩
    · rw [hr]
      obtain ⟨e, he, h1, h2⟩ := (h.branches []).mp ⟨0, by rw [hr, follow_nil]⟩
      exact ⟨e, he, .inr List.nil_prefix⟩
  | cons b c =>
    unfold placeCode
    rcases h.shape with ⟨hr, hn⟩ | ⟨x, hr, hn⟩ | ⟨hr, h0, hok⟩
    · have hes : es = [] := by
        rcases es with _ | ⟨⟨x, q⟩, es⟩
        · rfl
        · have := (h.leaves x q).mpr (by simp)
          rw [hr, follow_absent] at this; cases this
      subst hes
      rw [hr]
      simp only
      have hspec := placeBits_spec sym (b :: c) 0 [emptyBranch] [] (by simp) arenaOk_empty (by simp) (by simp)
      have hfo : ∀ q, follow [emptyBranch] (.branch 0) q = if q = [] then .branch 0 else .absent := by
        intro q
        cases q with
        | nil => simp
        | cons b q =>
          rw [follow_branch_cons, show branchAt [emptyBranch] 0 = emptyBranch from rfl, child_emptyBranch, follow_absent]
          simp
      cases hpl : placeBits sym (b :: c) 0 [emptyBranch] with
      | none =>
        rw [hpl] at hspec
        simp only at hspec
        rcases hspec with ⟨i, hi⟩ | ⟨x, q, hq, -⟩
        · rw [hfo] at hi; simp at hi
        · rw [hfo] at hq; split at hq <;> cases hq
      | some t' =>
        rw [hpl] at hspec
        simp only [Option.map_some] at hspec ⊢
        refine ⟨⟨.inr (.inr ⟨rfl, Nat.lt_of_lt_of_le (by simp) hspec.grows, hspec.ok⟩), ?_, ?_, ?_⟩, by simp⟩
        · intro x q
          rw [hspec.leaves, hfo]
          constructor
          · rintro (h1 | ⟨rfl, rfl⟩)
            · split at h1 <;> cases h1
            · simp
          · intro h1
            simp only [List.mem_singleton, Prod.mk.injEq] at h1
            exact .inr ⟨by simpa using h1.2, h1.1⟩
        · intro q
          show atBranch t' q ↔ _
          rw [hspec.branches]
          simp only [List.mem_singleton, exists_eq_left, List.nil_prefix, true_and, List.nil_append]
          constructor
          · rintro (⟨i, hi⟩ | h1)
            · rw [hfo] at hi
              split at hi
              · next e => subst e; exact ⟨List.nil_prefix, by simp⟩
              · cases hi
            · exact h1
          · intro h1; exact .inr h1
        · have := hspec.atMost
          simp at this ⊢
          omega
    · rw [hr]
      exact ⟨(x, []), (h.leaves x []).mp (by rw [hr, follow_nil]), .inl List.nil_prefix⟩
    · rw [hr]
      simp only
      have hspec := placeBits_spec sym (b :: c) 0 sh.nodes [] (by simp) hok h0 (by simp)
      cases hpl : placeBits sym (b :: c) 0 sh.nodes with
      | none =>
        rw [hpl] at hspec
        simp only [List.nil_append, Option.map_none] at hspec ⊢
        rcases hspec with h1 | ⟨x, q, hq, hpre⟩
        · obtain ⟨e, he, h2, -⟩ := (h.branches (b :: c)).mp (by rw [hr]; exact h1)
          exact ⟨e, he, .inr h2⟩
        · exact ⟨(x, q), (h.leaves x q).mp (by rw [hr]; exact hq), .inl hpre⟩
      | some t' =>
        rw [hpl] at hspec
        exact spells_of_placed h hr hspec h0

/-- The codes of the symbols of `l` that have one. -/
def entriesOf (codes : SymTable (Option Code)) (l : List Byte) : List (Byte × Code) :=
  l.filterMap fun x => (SymTable.get codes x).map fun c => (x, c)

theorem mem_entriesOf {codes : SymTable (Option Code)} {l : List Byte} {x : Byte} {c : Code} :
    (x, c) ∈ entriesOf codes l ↔ x ∈ l ∧ SymTable.get codes x = some c := by
  simp only [entriesOf, List.mem_filterMap, Option.map_eq_some_iff, Prod.mk.injEq]
  constructor
  · rintro ⟨y, hy, c', hc', rfl, rfl⟩; exact ⟨hy, hc'⟩
  · rintro ⟨h1, h2⟩; exact ⟨x, h1, c, h2, rfl, rfl⟩

/-- Of entries no two of which collide, the codes of two different symbols do not. -/
theorem not_collide_of_entries {codes : SymTable (Option Code)} {l : List Byte}
    (h : (entriesOf codes l).Pairwise fun e f => ¬ Collide e.2 f.2) {x y : Byte} {cx cy : Code} (hl : x ∈ l) (hl' : y ∈ l)
    (hxy : x ≠ y) (hx : SymTable.get codes x = some cx) (hy : SymTable.get codes y = some cy) : ¬ Collide cx cy := by
  have hs : Std.Symm fun e f : Byte × Code => ¬ Collide e.2 f.2 := ⟨fun e f h h' => h (Or.symm h')⟩
  have hne : ((x, cx) : Byte × Code) ≠ (y, cy) := fun e => hxy (congrArg Prod.fst e)
  exact List.Pairwise.forall h (mem_entriesOf.mpr ⟨hl, hx⟩) (mem_entriesOf.mpr ⟨hl', hy⟩) hne

/-- Placing the codes of a list of symbols: it succeeds and spells them, none colliding with an earlier one, or it stops at the
first symbol whose code collides with an earlier one, no two before it colliding (R153, R154, R224 item 3). -/
theorem placeAll_spec (codes : SymTable (Option Code)) (l : List Byte) : ∀ (sh : Shadow) (es : List (Byte × Code)), Spells sh es →
    match placeAll codes l sh with
    | .ok sh' => Spells sh' ((entriesOf codes l).reverse ++ es) ∧
        (∀ e ∈ es, ∀ f ∈ entriesOf codes l, ¬ Collide e.2 f.2) ∧
        (entriesOf codes l).Pairwise fun e f => ¬ Collide e.2 f.2
    | .error x => ∃ pre post c, l = pre ++ x :: post ∧ SymTable.get codes x = some c ∧
        (∃ e ∈ entriesOf codes pre ++ es, Collide e.2 c) ∧
        (∀ e ∈ es, ∀ f ∈ entriesOf codes pre, ¬ Collide e.2 f.2) ∧
        (entriesOf codes pre).Pairwise fun e f => ¬ Collide e.2 f.2 := by
  induction l with
  | nil => intro sh es h; simp [placeAll, entriesOf, h]
  | cons x l ih =>
    intro sh es h
    unfold placeAll
    cases hx : SymTable.get codes x with
    | none =>
      have he : ∀ l', entriesOf codes (x :: l') = entriesOf codes l' := fun l' => by simp [entriesOf, hx]
      have := ih sh es h
      simp only
      cases hp : placeAll codes l sh with
      | ok sh' => rw [hp] at this; rw [he]; exact this
      | error y =>
        rw [hp] at this
        obtain ⟨pre, post, c, h1, h2, h3⟩ := this
        exact ⟨x :: pre, post, c, by simp [h1], h2, by rw [he]; exact h3⟩
    | some c =>
      have he : ∀ l', entriesOf codes (x :: l') = (x, c) :: entriesOf codes l' := fun l' => by simp [entriesOf, hx]
      have hspec := placeCode_spec x c h
      simp only
      cases hpc : placeCode x c sh with
      | none =>
        rw [hpc] at hspec
        obtain ⟨e, h1, h2⟩ := hspec
        exact ⟨[], l, c, rfl, hx, ⟨e, by simp [entriesOf, h1], h2⟩, by simp [entriesOf], .nil⟩
      | some sh' =>
        rw [hpc] at hspec
        simp only at hspec ⊢
        have := ih sh' _ hspec.1
        cases hp : placeAll codes l sh' with
        | ok sh'' =>
          rw [hp] at this
          simp only at this ⊢
          obtain ⟨h1, h2, h3⟩ := this
          rw [he]
          refine ⟨by simpa using h1, ?_, ?_⟩
          · intro e h4 f h5
            rcases List.mem_cons.mp h5 with rfl | h5
            · exact hspec.2 e h4
            · exact h2 e (by simp [h4]) f h5
          · exact List.pairwise_cons.mpr ⟨fun f hf => h2 (x, c) (by simp) f hf, h3⟩
        | error y =>
          rw [hp] at this
          obtain ⟨pre, post, c', h1, h2, ⟨e, h3, h4⟩, h5, h6⟩ := this
          refine ⟨x :: pre, post, c', by simp [h1], h2, ⟨e, ?_, h4⟩, ?_⟩ <;> rw [he]
          · simp only [List.mem_append, List.mem_cons] at h3 ⊢
            tauto
          · refine ⟨fun g hg f hf => ?_, List.pairwise_cons.mpr ⟨fun f hf => h5 (x, c) (by simp) f hf, h6⟩⟩
            rcases List.mem_cons.mp hf with rfl | hf
            · exact hspec.2 g hg
            · exact h5 g (by simp [hg]) f hf

/-- The decode tree of a code table (R153, R154, R156): the table is prefix-free and the tree spells it, with at most as many
nodes as its codes have bits; or the first colliding symbol is reported. -/
theorem shadowTree_spec (codes : SymTable (Option Code)) :
    match shadowTree codes with
    | .ok sh => PrefixFree codes ∧ ∃ es, Spells sh es ∧ (∀ x c, (x, c) ∈ es ↔ SymTable.get codes x = some c) ∧
        (es.map fun e => e.2.length).sum =
          (symbols.map fun x => ((SymTable.get codes x).map List.length).getD 0).sum
    | .error x => (∃ y cx cy, y.toNat < x.toNat ∧ SymTable.get codes x = some cx ∧ SymTable.get codes y = some cy ∧
        Collide cy cx) ∧
        ∀ y z cy cz, y.toNat < x.toNat → z.toNat < x.toNat → y ≠ z → SymTable.get codes y = some cy →
          SymTable.get codes z = some cz → ¬ Collide cy cz := by
  have := placeAll_spec codes symbols _ _ spells_empty
  unfold shadowTree
  cases hp : placeAll codes symbols { root := .absent, nodes := [] } with
  | ok sh =>
    rw [hp] at this
    simp only at this ⊢
    obtain ⟨h1, -, h3⟩ := this
    refine ⟨?_, _, h1, ?_, ?_⟩
    · intro x y cx cy hxy hx hy hpre
      exact not_collide_of_entries h3 (mem_symbols x) (mem_symbols y) hxy hx hy (.inl hpre)
    · intro x c
      simp only [List.append_nil, List.mem_reverse]
      rw [mem_entriesOf]
      exact ⟨fun h => h.2, fun h => ⟨mem_symbols x, h⟩⟩
    · have gen : ∀ l : List Byte, ((entriesOf codes l).map fun e => e.2.length).sum =
          (l.map fun x => ((SymTable.get codes x).map List.length).getD 0).sum := by
        intro l
        induction l with
        | nil => rfl
        | cons x l ih =>
          rw [List.map_cons, List.sum_cons, ← ih]
          unfold entriesOf
          cases hx : SymTable.get codes x <;> simp [hx]
      simp only [List.append_nil, List.map_reverse, List.sum_reverse]
      exact gen symbols
  | error x =>
    rw [hp] at this
    simp only at this ⊢
    obtain ⟨pre, post, cx, h1, h2, ⟨⟨y, cy⟩, h3, h4⟩, -, h5⟩ := this
    rw [List.append_nil, mem_entriesOf] at h3
    have hp := pairwise_symbols
    rw [h1, List.pairwise_append, List.pairwise_cons] at hp
    refine ⟨⟨y, cx, cy, hp.2.2 y h3.1 x (by simp), h2, h3.2, h4⟩, ?_⟩
    have before : ∀ z, z.toNat < x.toNat → z ∈ pre := by
      intro z hz
      have hm := mem_symbols z
      rw [h1, List.mem_append, List.mem_cons] at hm
      rcases hm with hm | rfl | hm
      · exact hm
      · omega
      · have := hp.2.1.1 z hm
        omega
    exact fun y z cy cz hy hz hyz h6 h7 => not_collide_of_entries h5 (before y hy) (before z hz) hyz h6 h7

/-- On a prefix-free table MATERIALIZE does not collide; on any other it does. -/
theorem shadowTree_ok_iff (codes : SymTable (Option Code)) : (∃ sh, shadowTree codes = .ok sh) ↔ PrefixFree codes := by
  have := shadowTree_spec codes
  cases h : shadowTree codes with
  | ok sh => rw [h] at this; exact ⟨fun _ => this.1, fun _ => ⟨sh, rfl⟩⟩
  | error x =>
    rw [h] at this
    obtain ⟨⟨y, cx, cy, h1, h2, h3, h4⟩, -⟩ := this
    refine ⟨fun ⟨_, h⟩ => (nomatch h), fun hf => ?_⟩
    have hne : x ≠ y := fun e => by subst e; omega
    rcases h4 with h4 | h4
    · exact absurd h4 (hf y x cy cx hne.symm h3 h2)
    · exact absurd h4 (hf x y cx cy hne h2 h3)

/-! ## DECODE's traversal -/

theorem traverse_cons (dt : List Branch) (cap : Nat) (b : Bool) (bs : Code) (pos : Nat) (t : Traversal) :
    traverse dt cap (b :: bs) pos t =
      match (branchAt dt t.node).child b with
      | .absent => .fault .decInvalid pos t
      | .branch i => traverse dt cap bs (pos + 1) { t with node := i }
      | .leaf sym =>
        if t.out = cap then .fault .dstOvf pos t
        else
          traverse dt cap bs (pos + 1)
            { node := 0, out := t.out + 1, last := pos + 1, dst := cellWrite t.dst t.out sym } := rfl

/-- Bits inside the tree only move the node (R193). -/
theorem traverse_inside {dt : List Branch} {cap : Nat} (part rest : Code) : ∀ (pos : Nat) (t : Traversal) (j : Nat),
    follow dt (.branch t.node) part = .branch j →
    traverse dt cap (part ++ rest) pos t = traverse dt cap rest (pos + part.length) { t with node := j } := by
  induction part with
  | nil => intro pos t j h; rw [follow] at h; cases h; rfl
  | cons b part ih =>
    intro pos t j h
    have h' : follow dt ((branchAt dt t.node).child b) part = .branch j := h
    rw [List.cons_append, traverse_cons]
    cases hd : (branchAt dt t.node).child b with
    | absent => rw [hd] at h'; cases part <;> cases h'
    | leaf x => rw [hd] at h'; cases part <;> cases h'
    | branch i =>
      rw [hd] at h'
      simp only
      rw [ih (pos + 1) { t with node := i } j h']
      simp [Nat.add_assoc, Nat.add_comm 1]

/-- A code that leads to a terminal emits its symbol and comes back to the root (R193). -/
theorem traverse_word {dt : List Branch} {cap : Nat} (w rest : Code) (x : Byte) : ∀ (pos : Nat) (t : Traversal),
    follow dt (.branch t.node) w = .leaf x → t.out < cap →
    traverse dt cap (w ++ rest) pos t =
      traverse dt cap rest (pos + w.length)
        { node := 0, out := t.out + 1, last := pos + w.length, dst := cellWrite t.dst t.out x } := by
  induction w with
  | nil => intro pos t h; cases h
  | cons b w ih =>
    intro pos t h hc
    have h' : follow dt ((branchAt dt t.node).child b) w = .leaf x := h
    rw [List.cons_append, traverse_cons]
    cases hd : (branchAt dt t.node).child b with
    | absent => rw [hd] at h'; cases w <;> cases h'
    | leaf y =>
      rw [hd] at h'
      cases w with
      | nil =>
        cases h'
        simp only
        rw [if_neg (by omega)]
        rfl
      | cons b' w => cases h'
    | branch i =>
      rw [hd] at h'
      simp only
      rw [ih (pos + 1) { t with node := i } h' hc]
      simp [Nat.add_assoc, Nat.add_comm 1]

/-- A list of such codes emits their symbols in order. -/
theorem traverse_words {dt : List Branch} {cap : Nat} (words : List (Code × Byte)) (rest : Code) :
    ∀ (pos : Nat) (t : Traversal), t.node = 0 → t.last = pos → (∀ w ∈ words, follow dt (.branch 0) w.1 = .leaf w.2) →
    t.out + words.length ≤ cap →
    traverse dt cap (words.flatMap Prod.fst ++ rest) pos t =
      traverse dt cap rest (pos + (words.flatMap Prod.fst).length)
        { node := 0, out := t.out + words.length, last := pos + (words.flatMap Prod.fst).length,
          dst := cellsWrite t.dst t.out (words.map Prod.snd) } := by
  induction words with
  | nil =>
    intro pos t h0 hl _ _
    cases t
    simp only at h0 hl
    subst h0 hl
    rfl
  | cons w words ih =>
    intro pos t h0 hl hw hc
    simp only [List.length_cons] at hc
    rw [List.flatMap_cons, List.append_assoc, traverse_word w.1 _ w.2 pos t (by rw [h0]; exact hw w (by simp)) (by omega),
      ih (pos + w.1.length)
        { node := 0, out := t.out + 1, last := pos + w.1.length, dst := cellWrite t.dst t.out w.2 } rfl rfl
        (fun v hv => hw v (by simp [hv])) (by simp only; omega)]
    simp only [List.length_append, List.map_cons, cellsWrite, List.length_cons, Nat.add_assoc]
    congr 2; simp [Nat.add_comm]

/-- How far a traversal can come: its bytes fit DST, its positions fit the stream, and it faults in one of two ways. -/
theorem traverse_bounds {dt : List Branch} {cap : Nat} : ∀ (bs : Code) (pos : Nat) (t : Traversal), t.out ≤ cap →
    t.last ≤ pos →
    (∀ u, traverse dt cap bs pos t = .exhausted u → u.out ≤ cap ∧ u.last ≤ pos + bs.length ∧ t.out ≤ u.out) ∧
    ∀ c p u, traverse dt cap bs pos t = .fault c p u → u.out ≤ cap ∧ u.last ≤ pos + bs.length ∧ p < pos + bs.length ∧
      (c = .decInvalid ∨ c = .dstOvf) := by
  intro bs
  induction bs with
  | nil =>
    intro pos t h1 h2
    refine ⟨fun u h => ?_, fun c p u h => ?_⟩
    · cases h; exact ⟨h1, by simpa using h2, Nat.le_refl _⟩
    · cases h
  | cons b bs ih =>
    intro pos t h1 h2
    rw [traverse_cons]
    cases hd : (branchAt dt t.node).child b with
    | absent =>
      refine ⟨fun u h => (nomatch h), fun c p u h => ?_⟩
      cases h; simp only [List.length_cons]; exact ⟨h1, by omega, by omega, by simp⟩
    | branch i =>
      have := ih (pos + 1) { t with node := i } h1 (by simp only; omega)
      simp only at this ⊢
      refine ⟨fun u h => ?_, fun c p u h => ?_⟩
      · have := this.1 u h; simp only [List.length_cons]; omega
      · obtain ⟨h3, h4, h5, h6⟩ := this.2 c p u h
        simp only [List.length_cons]
        exact ⟨h3, by omega, by omega, h6⟩
    | leaf x =>
      simp only
      by_cases ho : t.out = cap
      · rw [if_pos ho]
        refine ⟨fun u h => (nomatch h), fun c p u h => ?_⟩
        cases h; simp only [List.length_cons]; exact ⟨h1, by omega, by omega, by simp⟩
      · rw [if_neg ho]
        have := ih (pos + 1)
          { node := 0, out := t.out + 1, last := pos + 1, dst := cellWrite t.dst t.out x } (by simp only; omega) (by simp)
        refine ⟨fun u h => ?_, fun c p u h => ?_⟩
        · have := this.1 u h; simp only [List.length_cons] at this ⊢; omega
        · obtain ⟨h3, h4, h5, h6⟩ := this.2 c p u h
          simp only [List.length_cons]
          exact ⟨h3, by omega, by omega, h6⟩

/-- Two traversals of the same bits that stand at the same place end alike, and write the same bytes to their DSTs: those from
`out` up to the final `out`. -/
theorem traverse_pair {dt : List Branch} {cap : Nat} : ∀ (bs : Code) (pos : Nat) (t t' : Traversal), t.node = t'.node →
    t.out = t'.out → t.last = t'.last →
    ∃ (u u' : Traversal) (out : List Byte), u.out = u'.out ∧ u.last = u'.last ∧ t.out + out.length = u.out ∧
      u.dst = cellsWrite t.dst t.out out ∧ u'.dst = cellsWrite t'.dst t.out out ∧
      ((traverse dt cap bs pos t = .exhausted u ∧ traverse dt cap bs pos t' = .exhausted u') ∨
        ∃ c p, traverse dt cap bs pos t = .fault c p u ∧ traverse dt cap bs pos t' = .fault c p u') := by
  intro bs
  induction bs with
  | nil => intro pos t t' _ h2 h3; exact ⟨t, t', [], h2, h3, by simp, rfl, rfl, .inl ⟨rfl, rfl⟩⟩
  | cons b bs ih =>
    intro pos t t' h1 h2 h3
    rw [traverse_cons, traverse_cons, ← h1, ← h2]
    cases hd : (branchAt dt t.node).child b with
    | absent => exact ⟨t, t', [], h2, h3, by simp, rfl, rfl, .inr ⟨_, _, rfl, rfl⟩⟩
    | branch i =>
      obtain ⟨u, u', out, h4, h5, h6, h7, h8, h9⟩ := ih (pos + 1) { t with node := i } { t' with node := i, out := t.out } rfl rfl h3
      exact ⟨u, u', out, h4, h5, h6, h7, h8, h9⟩
    | leaf x =>
      simp only
      by_cases ho : t.out = cap
      · rw [if_pos ho, if_pos ho]
        exact ⟨t, t', [], h2, h3, by simp, rfl, rfl, .inr ⟨_, _, rfl, rfl⟩⟩
      · rw [if_neg ho, if_neg ho]
        obtain ⟨u, u', out, h4, h5, h6, h7, h8, h9⟩ := ih (pos + 1)
          { node := 0, out := t.out + 1, last := pos + 1, dst := cellWrite t.dst t.out x }
          { node := 0, out := t.out + 1, last := pos + 1, dst := cellWrite t'.dst t.out x } rfl rfl rfl
        simp only at h6 h7 h8
        exact ⟨u, u', x :: out, h4, h5, by simp only [List.length_cons]; omega, h7, h8, h9⟩

end Sys2Proof.Machine
end

