-- ==== Sys2Proof/Laws/Numbering.lean ====
section
/-! SUPPORT. The order in which MATERIALIZE allocates branches (R153): which path each entry of DT is reached by. -/

namespace Sys2Proof.Machine

/-! ## Lists of paths -/

@[simp] theorem properPrefixes_nil : properPrefixes [] = [] := rfl

theorem properPrefixes_cons (b : Bool) (c : Code) :
    properPrefixes (b :: c) = [] :: (properPrefixes c).map (b :: ·) := by
  simp [properPrefixes, List.range_succ_eq_map, Function.comp_def]

theorem appendNew_old {ps qs : List Code} {q : Code} (h : q ∈ ps) : appendNew ps (q :: qs) = appendNew ps qs := by
  rw [appendNew, if_pos h]

theorem appendNew_new {ps qs : List Code} {q : Code} (h : q ∉ ps) : appendNew ps (q :: qs) = appendNew (ps ++ [q]) qs := by
  rw [appendNew, if_neg h]

theorem appendNew_append (ps qs rs : List Code) : appendNew ps (qs ++ rs) = appendNew (appendNew ps qs) rs := by
  induction qs generalizing ps with
  | nil => rfl
  | cons q qs ih =>
    by_cases h : q ∈ ps
    · rw [List.cons_append, appendNew_old h, appendNew_old h, ih]
    · rw [List.cons_append, appendNew_new h, appendNew_new h, ih]

/-! ## The numbering while codes are placed -/

/-- Entry `i` of the arena is reached by exactly the path `ps[i]`. -/
structure Numbered (sh : Shadow) (ps : List Code) : Prop where
  size : sh.nodes.length = ps.length
  path : ∀ i q, follow sh.nodes sh.root q = .branch i ↔ ps[i]? = some q

theorem Numbered.mem {sh : Shadow} {ps : List Code} (h : Numbered sh ps) {q : Code} {i : Nat}
    (hq : follow sh.nodes sh.root q = .branch i) : q ∈ ps :=
  List.mem_of_getElem? ((h.path i q).mp hq)

theorem numbered_none {sh : Shadow} (hr : sh.root = .absent ∨ ∃ x, sh.root = .leaf x) (hn : sh.nodes = []) :
    Numbered sh [] := by
  refine ⟨by rw [hn]; rfl, fun i q => ⟨fun h => ?_, fun h => by simp at h⟩⟩
  rcases hr with hr | ⟨x, hr⟩
  · rw [hr, follow_absent] at h; cases h
  · rw [hr, follow_leaf] at h; split at h <;> cases h

theorem numbered_empty : Numbered { root := .branch 0, nodes := [emptyBranch] } [[]] := by
  refine ⟨rfl, fun i q => ?_⟩
  cases q with
  | nil => cases i <;> simp
  | cons b q =>
    simp only [follow_branch_cons]
    rw [show branchAt [emptyBranch] 0 = emptyBranch from rfl, child_emptyBranch, follow_absent]
    cases i <;> simp

/-- Placing a code below the entry at path `p` numbers its proper prefixes that are new, shortest first. -/
theorem placeBits_numbered (sym : Byte) (c : Code) : ∀ (node : Nat) (t t' : List Branch) (p : Code) (ps : List Code),
    ArenaOk t → 0 < t.length → follow t (.branch 0) p = .branch node → Numbered { root := .branch 0, nodes := t } ps →
    placeBits sym c node t = some t' →
    Numbered { root := .branch 0, nodes := t' } (appendNew ps ((properPrefixes c).map (p ++ ·))) := by
  induction c with
  | nil =>
    intro node t t' p ps _ _ _ hs h
    cases h
    exact hs
  | cons b c ih =>
    intro node t t' p ps ht h0 hp hs h
    have hn := follow_branch_bound ht h0 hp
    have hmem : p ∈ ps := hs.mem hp
    have hstep : follow t (.branch 0) (p ++ [b]) = (branchAt t node).child b := by
      rw [follow_append, hp, follow_branch_cons, follow_nil]
    have happ : (properPrefixes (b :: c)).map (p ++ ·) = p :: (properPrefixes c).map ((p ++ [b]) ++ ·) := by
      rw [properPrefixes_cons]
      simp [Function.comp_def]
    rw [happ, appendNew_old hmem]
    cases c with
    | nil =>
      unfold placeBits at h
      cases hd : (branchAt t node).child b with
      | branch i => rw [hd] at h; cases h
      | leaf x => rw [hd] at h; cases h
      | absent =>
        rw [hd] at h
        cases h
        refine ⟨by simpa [appendNew] using hs.size, fun i q => ?_⟩
        show follow _ (.branch 0) q = _ ↔ _
        rw [follow_set_leaf ht h0 sym hp hd]
        refine Iff.trans ?_ (hs.path i q)
        split
        · next e =>
          subst e
          show _ ↔ follow t (.branch 0) _ = _
          rw [hstep, hd]
          simp
        · exact Iff.rfl
    | cons b' c =>
      unfold placeBits at h
      cases hd : (branchAt t node).child b with
      | leaf x => rw [hd] at h; cases h
      | branch i =>
        rw [hd] at h
        exact ih i t t' (p ++ [b]) ps ht h0 (by rw [hstep, hd]) hs h
      | absent =>
        rw [hd] at h
        have hfo := follow_allocate ht h0 hp hd
        have hnew : p ++ [b] ∉ ps := by
          intro hm
          obtain ⟨i, hi⟩ := List.getElem?_of_mem hm
          have := (hs.path i _).mpr hi
          rw [show follow t (.branch 0) (p ++ [b]) = .absent by rw [hstep, hd]] at this
          cases this
        have hs' : Numbered { root := .branch 0, nodes := allocate t node b } (ps ++ [p ++ [b]]) := by
          have hlen : t.length = ps.length := hs.size
          refine ⟨by rw [length_allocate, hlen]; simp, fun i q => ?_⟩
          show follow _ (.branch 0) q = _ ↔ _
          rw [hfo]
          by_cases e : q = p ++ [b]
          · subst e
            rw [if_pos rfl, hlen]
            constructor
            · intro h; cases h; simp
            · intro h
              by_cases hi : i < ps.length
              · rw [List.getElem?_append_left hi] at h
                exact absurd (List.mem_of_getElem? h) hnew
              · have := (List.getElem?_eq_some_iff.mp h).1
                simp only [List.length_append, List.length_cons, List.length_nil] at this
                rw [show i = ps.length by omega]
          · rw [if_neg e]
            refine Iff.trans (hs.path i q) ?_
            by_cases hi : i < ps.length
            · rw [List.getElem?_append_left hi]
            · rw [List.getElem?_eq_none (by omega), List.getElem?_append_right (by omega)]
              cases i - ps.length <;> simp [Ne.symm e]
        have := ih t.length (allocate t node b) t' (p ++ [b]) _ (arenaOk_allocate ht b hn) (by rw [length_allocate]; omega)
          (by rw [hfo, if_pos rfl]) hs' h
        rw [properPrefixes_cons, List.map_cons, List.append_nil] at this ⊢
        rw [appendNew_old (by simp)] at this
        rw [appendNew_new hnew]
        exact this

/-- Placing one symbol's code numbers its proper prefixes that are new. -/
theorem placeCode_numbered {sh sh' : Shadow} {es : List (Byte × Code)} {ps : List Code} {sym : Byte} {c : Code}
    (hsp : Spells sh es) (hs : Numbered sh ps) (h : placeCode sym c sh = some sh') :
    Numbered sh' (appendNew ps (properPrefixes c)) := by
  have hps : sh.nodes = [] → ps = [] := fun hn => List.length_eq_zero_iff.mp (by rw [← hs.size, hn]; rfl)
  have hid : (properPrefixes c).map (([] : Code) ++ ·) = properPrefixes c := by simp
  cases c with
  | nil =>
    unfold placeCode at h
    rcases hsp.shape with ⟨hr, hn⟩ | ⟨x, hr, hn⟩ | ⟨hr, -, -⟩ <;> rw [hr] at h <;> cases h
    rw [hps hn]
    exact numbered_none (.inr ⟨sym, rfl⟩) hn
  | cons b c =>
    unfold placeCode at h
    rcases hsp.shape with ⟨hr, hn⟩ | ⟨x, hr, hn⟩ | ⟨hr, h0, hok⟩ <;> rw [hr] at h
    · obtain ⟨t', h1, rfl⟩ := Option.map_eq_some_iff.mp h
      rw [hps hn]
      have := placeBits_numbered sym (b :: c) 0 _ t' [] _ arenaOk_empty (by simp) (by simp) numbered_empty h1
      rw [hid] at this
      rw [properPrefixes_cons] at this ⊢
      rw [appendNew_old (by simp)] at this
      rw [appendNew_new (by simp)]
      exact this
    · cases h
    · obtain ⟨t', h1, rfl⟩ := Option.map_eq_some_iff.mp h
      have hs' : Numbered { root := .branch 0, nodes := sh.nodes } ps := by
        rw [← hr]; exact hs
      have := placeBits_numbered sym (b :: c) 0 _ t' [] _ hok h0 (by simp) hs' h1
      rwa [hid] at this

theorem placeAll_numbered (codes : SymTable (Option Code)) (l : List Byte) : ∀ (sh sh' : Shadow) (es : List (Byte × Code))
    (ps : List Code), Spells sh es → Numbered sh ps → placeAll codes l sh = .ok sh' →
    Numbered sh' (appendNew ps (l.flatMap fun x => ((SymTable.get codes x).map properPrefixes).getD [])) := by
  induction l with
  | nil => intro sh sh' es ps _ hs h; cases h; exact hs
  | cons x l ih =>
    intro sh sh' es ps hsp hs h
    unfold placeAll at h
    rw [List.flatMap_cons, appendNew_append]
    cases hx : SymTable.get codes x with
    | none => rw [hx] at h; exact ih sh sh' es ps hsp hs h
    | some c =>
      rw [hx] at h
      have hspec := placeCode_spec x c hsp
      cases hp : placeCode x c sh with
      | none => simp only [hp] at h; cases h
      | some sh1 =>
        simp only [hp] at h hspec
        exact ih sh1 sh' _ _ hspec.1 (placeCode_numbered hsp hs hp) h

/-- The decode tree of a code table numbers its branches as `branchPaths` lists them (R153). -/
theorem shadowTree_numbered {codes : SymTable (Option Code)} {sh : Shadow} (h : shadowTree codes = .ok sh) :
    Numbered sh (branchPaths codes) :=
  placeAll_numbered codes symbols _ sh [] [] spells_empty (numbered_none (.inl rfl) rfl) h

end Sys2Proof.Machine
end

