-- ==== Sys2Proof/Laws/WalkTree.lean ====
section
/-! SUPPORT. Paths of a construction tree, what DERIVE's walk of it gives (R150, R152), and the frequency order of depths (R138). -/

namespace Sys2Proof.Machine

/-! ## Paths of a construction tree (R150) -/

@[simp] theorem nodeAt_nil (nodes : List Node) (n : Nat) : nodeAt nodes n [] = some n := by simp [nodeAt]

theorem nodeAt_cons {nodes : List Node} {n k : Nat} {b : Bool} {c : Code} (h : nodeAt nodes n (b :: c) = some k) :
    ∃ l r p, nodes[n]? = some (.internal l r p) ∧ nodeAt nodes (if b then r else l) c = some k := by
  rw [nodeAt] at h
  cases hn : nodes[n]? with
  | none => simp [hn] at h
  | some nd =>
    cases nd with
    | leaf x p => simp [hn] at h
    | internal l r p => exact ⟨l, r, p, rfl, by simpa [hn] using h⟩

theorem nodeAt_internal {nodes : List Node} {n l r : Nat} {p : Word} (h : nodes[n]? = some (.internal l r p)) (b : Bool)
    (c : Code) : nodeAt nodes n (b :: c) = nodeAt nodes (if b then r else l) c := by
  rw [nodeAt]; simp [h]

theorem nodeAt_append (nodes : List Node) (a c : Code) : ∀ n,
    nodeAt nodes n (a ++ c) = (nodeAt nodes n a).bind fun k => nodeAt nodes k c := by
  induction a with
  | nil => intro n; simp
  | cons b a ih =>
    intro n
    cases hn : nodes[n]? with
    | none => simp [nodeAt, hn]
    | some nd =>
      cases nd with
      | leaf x p => simp [nodeAt, hn]
      | internal l r p => rw [List.cons_append, nodeAt_internal hn, nodeAt_internal hn, ih]

/-- The last step of a path. -/
theorem nodeAt_concat {nodes : List Node} {n k : Nat} {q : Code} {b : Bool} (h : nodeAt nodes n (q ++ [b]) = some k) :
    ∃ j l r p, nodeAt nodes n q = some j ∧ nodes[j]? = some (.internal l r p) ∧ k = if b then r else l := by
  rw [nodeAt_append, Option.bind_eq_some_iff] at h
  obtain ⟨j, hj, hk⟩ := h
  obtain ⟨l, r, p, hn, hc⟩ := nodeAt_cons hk
  exact ⟨j, l, r, p, hj, hn, by simpa using hc.symm⟩

/-- What is known of each entry of a tree's arena. -/
theorem TreeOf.entry {nodes : List Node} {m : Nat} (h : TreeOf nodes m) {i : Nat} {n : Node} (hn : nodes[i]? = some n) :
    (i < m ∧ ∃ x p, n = .leaf x p) ∨
      (m ≤ i ∧ i < 2 * m - 1 ∧ ∃ a b p, n = .internal a b p ∧ a < i ∧ b < i ∧ p.toNat = prioOf nodes a + prioOf nodes b) := by
  have hi := (List.getElem?_eq_some_iff.mp hn).1
  rw [h.size] at hi
  by_cases hm : i < m
  · obtain ⟨x, p, hx⟩ := h.leaves i hm
    rw [hx] at hn
    exact .inl ⟨hm, x, p, (Option.some.inj hn).symm⟩
  · obtain ⟨a, b, p, hx, ha⟩ := h.internals i (by omega) hi
    rw [hx] at hn
    exact .inr ⟨by omega, hi, a, b, p, (Option.some.inj hn).symm, ha⟩

/-- The tree does not go deeper than one node for each internal node passed. -/
theorem TreeOf.depth {nodes : List Node} {m : Nat} (h : TreeOf nodes m) {c : Code} : ∀ {n k : Nat},
    nodeAt nodes n c = some k → k ≤ n ∧ (c ≠ [] → c.length + m ≤ n + 1) := by
  induction c with
  | nil => intro n k hk; simp at hk; exact ⟨by omega, fun h => absurd rfl h⟩
  | cons b c ih =>
    intro n k hk
    obtain ⟨l, r, p, hn, hc⟩ := nodeAt_cons hk
    rcases h.entry hn with ⟨-, x, p', hx⟩ | ⟨hm, -, a, b', p', hx, ha, hb, -⟩
    · cases hx
    · cases hx
      have := ih hc
      have hlt : (if b then r else l) < n := by cases b <;> simpa
      refine ⟨by omega, fun _ => ?_⟩
      by_cases hcn : c = []
      · subst hcn; simp only [List.length_cons, List.length_nil]; omega
      · have := this.2 hcn
        simp only [List.length_cons]; omega

theorem TreeOf.nodup_kids {nodes : List Node} {m : Nat} (h : TreeOf nodes m) : (nodes.flatMap Node.children).Nodup :=
  h.parents.nodup_iff.mpr List.nodup_range

/-- Two entries of one list whose images overlap in a list without repeats are one entry. -/
theorem eq_of_mem_flatMap_nodup {α β : Type} {f : α → List β} {l : List α} (h : (l.flatMap f).Nodup) {i j : Nat} {x y : α} {b : β}
    (hi : l[i]? = some x) (hj : l[j]? = some y) (hx : b ∈ f x) (hy : b ∈ f y) : i = j := by
  have hp := (List.nodup_flatMap.mp h).2
  obtain ⟨hi', rfl⟩ := List.getElem?_eq_some_iff.mp hi
  obtain ⟨hj', rfl⟩ := List.getElem?_eq_some_iff.mp hj
  rcases Nat.lt_trichotomy i j with hlt | rfl | hlt
  · exact (List.pairwise_iff_getElem.mp hp i j hi' hj' hlt hx hy).elim
  · rfl
  · exact (List.pairwise_iff_getElem.mp hp j i hj' hi' hlt hy hx).elim

/-- A node has one parent, and is one child of it (R136). -/
theorem TreeOf.parent_unique {nodes : List Node} {m : Nat} (h : TreeOf nodes m) {i j l r l' r' : Nat} {p p' : Word} {b b' : Bool}
    (hi : nodes[i]? = some (.internal l r p)) (hj : nodes[j]? = some (.internal l' r' p'))
    (e : (if b then r else l) = if b' then r' else l') : i = j ∧ b = b' := by
  have hij : i = j := by
    refine eq_of_mem_flatMap_nodup h.nodup_kids hi hj (b := if b then r else l) ?_ ?_
    · cases b <;> simp [Node.children]
    · rw [e]; cases b' <;> simp [Node.children]
  subst hij
  rw [hi] at hj
  cases hj
  refine ⟨rfl, ?_⟩
  have hne : l ≠ r := by
    have := (List.nodup_flatMap.mp h.nodup_kids).1 _ (List.mem_of_getElem? hi)
    simpa [Node.children] using this
  cases b <;> cases b' <;> simp_all

/-- The path from the root to a node is unique (R136). -/
theorem TreeOf.path_unique {nodes : List Node} {m : Nat} (h : TreeOf nodes m) {root : Nat} {p : Code} : ∀ {q : Code} {i : Nat},
    nodeAt nodes root p = some i → nodeAt nodes root q = some i → p = q := by
  have key : ∀ (c : Code) (b : Bool), nodeAt nodes root (c ++ [b]) ≠ some root := by
    intro c b hc
    obtain ⟨j, l, r, w, hj, hn, e⟩ := nodeAt_concat hc
    have h1 := (h.depth hj).1
    rcases h.entry hn with ⟨-, x, p', hx⟩ | ⟨-, -, a, b', p', hx, ha, hb, -⟩
    · cases hx
    · cases hx; cases b <;> simp at e <;> omega
  induction p using List.reverseRecOn with
  | nil =>
    intro q i hp hq
    simp only [nodeAt_nil, Option.some.injEq] at hp
    subst hp
    rcases List.eq_nil_or_concat q with rfl | ⟨c, b, rfl⟩
    · rfl
    · exact absurd (by simpa using hq) (key c b)
  | append_singleton p b ih =>
    intro q i hp hq
    rcases List.eq_nil_or_concat q with rfl | ⟨c, b', rfl⟩
    · simp only [nodeAt_nil, Option.some.injEq] at hq
      subst hq
      exact absurd hp (key p b)
    · rw [List.concat_eq_append] at hq ⊢
      obtain ⟨j, l, r, w, hj, hn, e⟩ := nodeAt_concat hp
      obtain ⟨j', l', r', w', hj', hn', e'⟩ := nodeAt_concat hq
      obtain ⟨rfl, rfl⟩ := h.parent_unique hn hn' (e.symm.trans e')
      rw [ih hj hj']

/-- Every node is reached from the root. -/
theorem TreeOf.reached {nodes : List Node} {m : Nat} (h : TreeOf nodes m) {i : Nat} (hi : i < 2 * m - 1) :
    ∃ c, nodeAt nodes (2 * m - 2) c = some i := by
  have hm := h.nonempty
  induction hd : 2 * m - 2 - i using Nat.strong_induction_on generalizing i with
  | _ d ih =>
    by_cases hr : i = 2 * m - 2
    · subst hr; exact ⟨[], by simp⟩
    · have hk : i ∈ nodes.flatMap Node.children := h.parents.mem_iff.mpr (List.mem_range.mpr (by omega))
      obtain ⟨n, hn, hin⟩ := List.mem_flatMap.mp hk
      obtain ⟨k, hk⟩ := List.mem_iff_getElem?.mp hn
      rcases h.entry hk with ⟨-, x, p', rfl⟩ | ⟨hmk, hk2, a, b, p', rfl, ha, hb, -⟩
      · simp [Node.children] at hin
      · simp only [Node.children, List.mem_cons, List.not_mem_nil, or_false] at hin
        obtain ⟨c, hc⟩ := ih (2 * m - 2 - k) (by omega) (i := k) hk2 rfl
        rcases hin with rfl | rfl
        · exact ⟨c ++ [false], by rw [nodeAt_append, hc]; simp [nodeAt_internal hk]⟩
        · exact ⟨c ++ [true], by rw [nodeAt_append, hc]; simp [nodeAt_internal hk]⟩

/-! ## DERIVE's walk (R150) -/

/-- The leaf that a path leads to. -/
def leafAt (nodes : List Node) (n : Nat) (x : Byte) (c : Code) : Prop :=
  ∃ k p, nodeAt nodes n c = some k ∧ nodes[k]? = some (Node.leaf x p)

theorem not_leafAt_prefix {nodes : List Node} {n : Nat} {x y : Byte} {c d : Code} (hx : leafAt nodes n x c)
    (hy : leafAt nodes n y d) (hp : c <+: d) : c = d := by
  obtain ⟨k, p, hk, hl⟩ := hx
  obtain ⟨e, rfl⟩ := hp
  obtain ⟨j, p', hj, -⟩ := hy
  rw [nodeAt_append, hk] at hj
  cases e with
  | nil => simp
  | cons b e =>
    obtain ⟨l, r, w, hn, -⟩ := nodeAt_cons (n := k) hj
    rw [hl] at hn; cases hn

/-- The walk gives the leaves below a node with their paths. -/
theorem TreeOf.mem_walk {nodes : List Node} {m : Nat} (h : TreeOf nodes m) {x : Byte} {c : Code} : ∀ (fuel n : Nat) (path : Code),
    n < fuel → ((x, c) ∈ walk nodes fuel n path ↔ ∃ q, c = path ++ q ∧ leafAt nodes n x q) := by
  intro fuel
  induction fuel with
  | zero => intro n path hn; omega
  | succ fuel ih =>
    intro n path hn
    cases hnd : nodes[n]? with
    | none =>
      simp only [walk, hnd, List.not_mem_nil, false_iff]
      rintro ⟨q, -, k, p, hk, hl⟩
      cases q with
      | nil => simp only [nodeAt_nil, Option.some.injEq] at hk; subst hk; rw [hnd] at hl; cases hl
      | cons b q => obtain ⟨l, r, w, hn', -⟩ := nodeAt_cons hk; rw [hnd] at hn'; cases hn'
    | some nd =>
      rcases h.entry hnd with ⟨-, y, p', rfl⟩ | ⟨-, -, a, b, p', rfl, ha, hb, -⟩
      · simp only [walk, hnd, List.mem_singleton, Prod.mk.injEq]
        constructor
        · rintro ⟨rfl, rfl⟩
          exact ⟨[], by simp, n, p', by simp, hnd⟩
        · rintro ⟨q, rfl, k, p, hk, hl⟩
          cases q with
          | nil =>
            simp only [nodeAt_nil, Option.some.injEq] at hk
            subst hk; rw [hnd] at hl; cases hl; simp
          | cons b q => obtain ⟨l, r, w, hn', -⟩ := nodeAt_cons hk; rw [hnd] at hn'; cases hn'
      · simp only [walk, hnd, List.mem_append, ih a _ (by omega), ih b _ (by omega)]
        constructor
        · rintro (⟨q, rfl, k, p, hk, hl⟩ | ⟨q, rfl, k, p, hk, hl⟩)
          · exact ⟨false :: q, by simp, k, p, by rw [nodeAt_internal hnd]; simpa using hk, hl⟩
          · exact ⟨true :: q, by simp, k, p, by rw [nodeAt_internal hnd]; simpa using hk, hl⟩
        · rintro ⟨q, rfl, k, p, hk, hl⟩
          cases q with
          | nil =>
            simp only [nodeAt_nil, Option.some.injEq] at hk
            subst hk; rw [hnd] at hl; cases hl
          | cons d q =>
            rw [nodeAt_internal hnd] at hk
            cases d with
            | false => exact .inl ⟨q, by simp, k, p, by simpa using hk, hl⟩
            | true => exact .inr ⟨q, by simp, k, p, by simpa using hk, hl⟩

/-- The walk reaches no leaf twice. -/
theorem TreeOf.nodup_walk {nodes : List Node} {m : Nat} (h : TreeOf nodes m) : ∀ (fuel n : Nat) (path : Code),
    n < fuel → ((walk nodes fuel n path).map Prod.snd).Nodup := by
  intro fuel
  induction fuel with
  | zero => intro n path hn; omega
  | succ fuel ih =>
    intro n path hn
    cases hnd : nodes[n]? with
    | none => simp [walk, hnd]
    | some nd =>
      rcases h.entry hnd with ⟨-, y, p', rfl⟩ | ⟨-, -, a, b, p', rfl, ha, hb, -⟩
      · simp [walk, hnd]
      · simp only [walk, hnd, List.map_append]
        refine List.nodup_append.mpr ⟨ih a _ (by omega), ih b _ (by omega), ?_⟩
        intro c hc d hd e
        subst e
        obtain ⟨⟨x, c'⟩, hx, rfl⟩ := List.mem_map.mp hc
        obtain ⟨⟨y, d'⟩, hy, e⟩ := List.mem_map.mp hd
        obtain ⟨q, hq, -⟩ := (h.mem_walk fuel a _ (by omega)).mp hx
        obtain ⟨q', hq', -⟩ := (h.mem_walk fuel b _ (by omega)).mp hy
        simp only at e
        rw [hq, hq'] at e
        simp at e

/-- Different leaves have different symbols (R136). -/
theorem TreeOf.leaf_unique {nodes : List Node} {m : Nat} (h : TreeOf nodes m) {i j : Nat} {x : Byte} {p p' : Word}
    (hi : nodes[i]? = some (.leaf x p)) (hj : nodes[j]? = some (.leaf x p')) : i = j :=
  eq_of_mem_flatMap_nodup h.symbols hi hj (b := x) (by simp [Node.symbols]) (by simp [Node.symbols])

/-- A symbol has one path. -/
theorem TreeOf.leafAt_unique {nodes : List Node} {m root : Nat} (h : TreeOf nodes m) {x : Byte} {c d : Code}
    (hc : leafAt nodes root x c) (hd : leafAt nodes root x d) : c = d := by
  obtain ⟨k, p, hk, hl⟩ := hc
  obtain ⟨k', p', hk', hl'⟩ := hd
  have := h.leaf_unique hl hl'
  subst this
  exact h.path_unique hk hk'

/-- The symbol of the leaf at index `i`. -/
def leafSym (nodes : List Node) (i : Nat) : Byte :=
  match nodes[i]? with
  | some (.leaf x _) => x
  | _ => 0#8

/-- Everything DERIVE's walk of a tree gives: each leaf's path, each symbol once, no path a prefix of another one, no path of
more than `m - 1` bits, one for each leaf (R150, R152). -/
theorem TreeOf.walk_spec {nodes : List Node} {m : Nat} (h : TreeOf nodes m) :
    (∀ x c, (x, c) ∈ walk nodes nodes.length (2 * m - 2) [] ↔ leafAt nodes (2 * m - 2) x c) ∧
    ((walk nodes nodes.length (2 * m - 2) []).map Prod.fst).Nodup ∧
    (∀ x y c d, leafAt nodes (2 * m - 2) x c → leafAt nodes (2 * m - 2) y d → x ≠ y → ¬ c <+: d) ∧
    (∀ x c, leafAt nodes (2 * m - 2) x c → c.length ≤ m - 1) ∧
    (walk nodes nodes.length (2 * m - 2) []).length = m := by
  have hm := h.nonempty
  have hfuel : 2 * m - 2 < nodes.length := by rw [h.size]; omega
  have hmem : ∀ x c, (x, c) ∈ walk nodes nodes.length (2 * m - 2) [] ↔ leafAt nodes (2 * m - 2) x c := by
    intro x c
    rw [h.mem_walk _ _ _ hfuel]
    simp
  have hnd : (walk nodes nodes.length (2 * m - 2) []).Nodup := (h.nodup_walk _ _ _ hfuel).of_map _
  have hfst : ((walk nodes nodes.length (2 * m - 2) []).map Prod.fst).Nodup := by
    refine List.Nodup.map_on ?_ hnd
    rintro ⟨x, c⟩ hx ⟨y, d⟩ hy e
    simp only at e
    subst e
    rw [h.leafAt_unique ((hmem _ _).mp hx) ((hmem _ _).mp hy)]
  refine ⟨hmem, hfst, ?_, ?_, ?_⟩
  · intro x y c d hx hy hne hp
    have := not_leafAt_prefix hx hy hp
    subst this
    obtain ⟨k, p, hk, hl⟩ := hx
    obtain ⟨k', p', hk', hl'⟩ := hy
    rw [hk] at hk'; cases hk'
    rw [hl] at hl'; cases hl'
    exact hne rfl
  · rintro x c ⟨k, p, hk, hl⟩
    by_cases hc : c = []
    · subst hc; simp
    · have := (h.depth hk).2 hc; omega
  · have hinj : ((walk nodes nodes.length (2 * m - 2) []).map Prod.fst).Perm
        ((List.range m).map (leafSym nodes)) := by
      refine (List.perm_ext_iff_of_nodup hfst ?_).mpr ?_
      · refine List.Nodup.map_on ?_ List.nodup_range
        intro i hi j hj e
        obtain ⟨x, p, hx⟩ := h.leaves i (List.mem_range.mp hi)
        obtain ⟨y, p', hy⟩ := h.leaves j (List.mem_range.mp hj)
        simp only [leafSym, hx, hy] at e
        subst e
        exact h.leaf_unique hx hy
      · intro x
        simp only [List.mem_map, Prod.exists, exists_and_right, exists_eq_right, hmem]
        constructor
        · rintro ⟨c, k, p, -, hl⟩
          rcases h.entry hl with ⟨hk, -⟩ | ⟨-, -, a, b, p', e, -⟩
          · exact ⟨k, List.mem_range.mpr hk, by simp [leafSym, hl]⟩
          · cases e
        · rintro ⟨i, hi, rfl⟩
          obtain ⟨x, p, hx⟩ := h.leaves i (List.mem_range.mp hi)
          have := List.mem_range.mp hi
          obtain ⟨c, hc⟩ := h.reached (i := i) (by omega)
          exact ⟨c, i, p, hc, by simp [leafSym, hx]⟩
    have := hinj.length_eq
    simpa using this

/-- On an arena whose merges took the nodes in the queue's order, the more frequent leaf is no deeper (R138). -/
theorem TreeOf.depth_monotone {nodes : List Node} {m : Nat} (h : TreeOf nodes m)
    (hs : (nodes.flatMap Node.children).Pairwise (queuedBefore nodes)) : ∀ {i j : Nat} {c d : Code},
    nodeAt nodes (2 * m - 2) c = some i → nodeAt nodes (2 * m - 2) d = some j → queuedBefore nodes i j →
    d.length ≤ c.length := by
  have hm := h.nonempty
  have hpw := (List.pairwise_flatMap.mp hs).2
  -- children of an earlier internal node come before those of a later one
  have hord : ∀ {k k' l r l' r' : Nat} {p p' : Word} {b b' : Bool}, k < k' → nodes[k]? = some (.internal l r p) →
      nodes[k']? = some (.internal l' r' p') → queuedBefore nodes (if b then r else l) (if b' then r' else l') := by
    intro k k' l r l' r' p p' b b' hkk hk hk'
    obtain ⟨hk1, e1⟩ := List.getElem?_eq_some_iff.mp hk
    obtain ⟨hk2, e2⟩ := List.getElem?_eq_some_iff.mp hk'
    have := List.pairwise_iff_getElem.mp hpw k k' hk1 hk2 hkk
    rw [e1, e2] at this
    refine this _ ?_ _ ?_
    · cases b <;> simp [Node.children]
    · cases b' <;> simp [Node.children]
  -- internal nodes come in the queue's order
  have hint : ∀ {k k' l r l' r' : Nat} {p p' : Word}, k < k' → nodes[k]? = some (.internal l r p) →
      nodes[k']? = some (.internal l' r' p') → queuedBefore nodes k k' := by
    intro k k' l r l' r' p p' hkk hk hk'
    have h1 := hord (b := false) (b' := false) hkk hk hk'
    have h2 := hord (b := true) (b' := true) hkk hk hk'
    rcases h.entry hk with ⟨-, x, q, e⟩ | ⟨-, -, a, b, q, e, -, -, hq⟩
    · cases e
    cases e
    rcases h.entry hk' with ⟨-, x, q', e⟩ | ⟨-, -, a', b', q', e, -, -, hq'⟩
    · cases e
    cases e
    have e1 : prioOf nodes k = p.toNat := by simp [prioOf, hk, Node.prio]
    have e2 : prioOf nodes k' = p'.toNat := by simp [prioOf, hk', Node.prio]
    simp only [queuedBefore, Bool.false_eq_true, if_false, if_true] at h1 h2 ⊢
    omega
  have key : ∀ (N : Nat) (c d : Code) (i j : Nat), c.length + d.length ≤ N → nodeAt nodes (2 * m - 2) c = some i →
      nodeAt nodes (2 * m - 2) d = some j → queuedBefore nodes i j → d.length ≤ c.length := by
    intro N
    induction N with
    | zero => intro c d i j hN _ _ _; omega
    | succ N ih =>
      intro c d i j hN hc hd hq
      rcases List.eq_nil_or_concat d with rfl | ⟨d, b', rfl⟩
      · simp
      rw [List.concat_eq_append] at hd hN ⊢
      obtain ⟨j', l', r', p', hj', hn', e'⟩ := nodeAt_concat hd
      rcases List.eq_nil_or_concat c with rfl | ⟨c, b, rfl⟩
      · -- the root is no child and comes last
        exfalso
        simp only [nodeAt_nil, Option.some.injEq] at hc
        subst hc
        have hroot := h.entry hn'
        rcases hroot with ⟨-, x, q, e⟩ | ⟨hm', hlt, a, b, q, e, ha, hb, hp⟩
        · cases e
        cases e
        have hjlt : j < 2 * m - 2 := by cases b' <;> simp at e' <;> omega
        have hjp : prioOf nodes j ≤ p'.toNat := by cases b' <;> simp at e' <;> subst e' <;> omega
        have e2 : prioOf nodes j' = p'.toNat := by simp [prioOf, hn', Node.prio]
        have hle : prioOf nodes j' ≤ prioOf nodes (2 * m - 2) := by
          by_cases hjj : j' = 2 * m - 2
          · rw [hjj]
          · obtain ⟨l, r, p, hr, -⟩ := h.internals (2 * m - 2) (by omega) (by omega)
            have := hint (by omega) hn' hr
            unfold queuedBefore at this
            omega
        unfold queuedBefore at hq
        omega
      · rw [List.concat_eq_append] at hc hN ⊢
        obtain ⟨i', l, r, p, hi', hn, e⟩ := nodeAt_concat hc
        simp only [List.length_append, List.length_singleton] at hN ⊢
        rcases Nat.lt_trichotomy i' j' with hlt | heq | hlt
        · have := ih c d i' j' (by omega) hi' hj' (hint hlt hn hn')
          omega
        · subst heq
          rw [h.path_unique hi' hj']
        · exfalso
          have := hord (b := b') (b' := b) hlt hn' hn
          rw [← e, ← e'] at this
          unfold queuedBefore at this hq
          omega
  intro i j c d hc hd hq
  exact key _ c d i j le_rfl hc hd hq

end Sys2Proof.Machine
end

