-- ==== Sys2Proof/Laws/Bodies.lean ====
section
/-! SUPPORT. Everything the body of BUILD, DERIVE, MATERIALIZE and SERIALIZE does, said once each. -/

namespace Sys2Proof.Machine

/-! ## BUILD -/

/-- What BUILD leaves when LIST has symbols (R132 to R136): a tree over them, in an arena whose merges took the nodes in the
queue's order. -/
structure Built (s t : State) (r : BitVec 9) : Prop where
  root : t.treeRoot = some r
  rootIndex : r.toNat = 2 * s.numSyms.toNat - 2
  count : t.nodeCount.toNat = 2 * s.numSyms.toNat - 1
  stored : t.nodeCount.toNat ≤ t.node.length
  tree : TreeOf t.arena s.numSyms.toNat
  leaves : ∀ (i : Nat) (x : Byte), s.listed[i]? = some x → t.arena[i]? = some (Node.leaf x (SymTable.get s.freq x))
  total : prioOf t.arena r.toNat = (s.listed.map fun x => (SymTable.get s.freq x).toNat).sum
  order : (kids t.arena).Pairwise (queuedBefore t.arena)

/-- Everything BUILD does on a LIST in order. -/
theorem buildBody_cases {s : State} (h : ListOk s) (hw : s.params.wf = true) :
    (s.numSyms = 0#9 ∧ buildBody s = .finished .ok { s with nodeCount := 0#10, treeRoot := none }) ∨
    (0 < s.numSyms.toNat ∧ ∃ t r, buildBody s = .finished .ok t ∧ Built s t r ∧
      t = { s with node := t.node, nodeCount := t.nodeCount, treeRoot := t.treeRoot }) := by
  have hlen := h.length
  by_cases hn : s.listed = []
  · refine .inl ⟨?_, ?_⟩
    · rw [hn] at hlen
      exact BitVec.eq_of_toNat_eq hlen.symm
    · have : builtTree s.freq s.listed = ([], []) := by rw [hn]; rfl
      unfold buildBody; rw [this]
  · have hat := h.atMost
    obtain ⟨root, nodes, hb, ht, hr, hl, hp, ho⟩ := builtTree_spec hn (by omega) h.order
      (lt_of_le_of_lt h.sum_le (Params.srcBytes_lt hw))
    have hpos : 0 < s.listed.length := List.length_pos_iff.mpr hn
    rw [hlen] at ht hr hpos
    have hs := ht.size
    have hc : (BitVec.ofNat 10 nodes.length).toNat = nodes.length := by
      rw [BitVec.toNat_ofNat]; exact Nat.mod_eq_of_lt (by omega)
    have hri : (BitVec.ofNat 9 root.node).toNat = root.node := by
      rw [BitVec.toNat_ofNat]; exact Nat.mod_eq_of_lt (by omega)
    have ha : (overlay nodes s.node).take (BitVec.ofNat 10 nodes.length).toNat = nodes := by rw [hc, take_overlay]
    refine .inr ⟨hpos, { s with
      node := overlay nodes s.node, nodeCount := BitVec.ofNat 10 nodes.length,
      treeRoot := some (BitVec.ofNat 9 root.node) }, BitVec.ofNat 9 root.node, ?_, ⟨rfl, ?_, ?_, ?_, ?_, ?_, ?_, ?_⟩, rfl⟩
    · unfold buildBody; rw [hb]
    · rw [hri, hr]
    · show (BitVec.ofNat 10 nodes.length).toNat = _
      rw [hc, hs]
    · simp only [hc, length_overlay]; omega
    · simp only [State.arena, ha]; exact ht
    · intro i x hi
      simp only [State.arena, ha]; exact hl i x hi
    · simp only [State.arena, ha, hri]; exact hp
    · simp only [State.arena, ha]; exact ho

theorem Built.treeOk {s t : State} {r : BitVec 9} (h : Built s t r) : TreeOk t :=
  ⟨h.stored, fun e => (by rw [h.root] at e; cases e), fun r' e => (by
    rw [h.root] at e; cases e
    exact ⟨_, h.tree, h.rootIndex⟩)⟩

/-! ## DERIVE -/

theorem walk_prefix (nodes : List Node) : ∀ (fuel n : Nat) (path : Code) (e : Byte × Code), e ∈ walk nodes fuel n path →
    path <+: e.2 := by
  intro fuel
  induction fuel with
  | zero => intro n path e h; cases h
  | succ fuel ih =>
    intro n path e h
    cases hn : nodes[n]? with
    | none => rw [walk, hn] at h; cases h
    | some nd =>
      cases nd with
      | leaf x p =>
        rw [walk, hn] at h
        simp only [List.mem_singleton] at h
        subst h; exact List.prefix_refl _
      | internal a b p =>
        rw [walk, hn] at h
        rcases List.mem_append.mp h with h | h
        · exact (List.prefix_append path [false]).trans (ih _ _ _ h)
        · exact (List.prefix_append path [true]).trans (ih _ _ _ h)

/-- Whatever the arena, the walk's paths do not begin with one another (R152). -/
theorem walk_pairwise (nodes : List Node) : ∀ (fuel n : Nat) (path : Code),
    (walk nodes fuel n path).Pairwise fun a b => ¬ a.2 <+: b.2 ∧ ¬ b.2 <+: a.2 := by
  intro fuel
  induction fuel with
  | zero => intro n path; exact List.Pairwise.nil
  | succ fuel ih =>
    intro n path
    cases hn : nodes[n]? with
    | none => rw [walk, hn]; exact List.Pairwise.nil
    | some nd =>
      cases nd with
      | leaf x p => rw [walk, hn]; exact List.pairwise_singleton _ _
      | internal a b p =>
        rw [walk, hn]
        refine List.pairwise_append.mpr ⟨ih _ _, ih _ _, fun e he f hf => ?_⟩
        have h1 := walk_prefix nodes _ _ _ _ he
        have h2 := walk_prefix nodes _ _ _ _ hf
        have key : ∀ {c d : Code}, path ++ [false] <+: c → path ++ [true] <+: d → ¬ (c <+: d ∨ d <+: c) := by
          rintro c d ⟨u, rfl⟩ ⟨v, rfl⟩ (h | h)
          all_goals
            simp only [List.append_assoc] at h
            rw [List.prefix_append_right_inj] at h
            simp at h
        exact ⟨fun h => key h1 h2 (.inl h), fun h => key h1 h2 (.inr h)⟩

/-- Whatever the tree, the entries DERIVE makes present do not begin with one another (R152). -/
theorem derivedEntries_pairwise (s : State) :
    (derivedEntries s).Pairwise fun a b => ¬ a.2 <+: b.2 ∧ ¬ b.2 <+: a.2 := by
  unfold derivedEntries
  split
  · exact List.Pairwise.nil
  · split
    · exact List.pairwise_singleton _ _
    · exact walk_pairwise _ _ _ _

/-- What DERIVE leaves of a good tree (R150, R151, R152). -/
structure Derived (s t : State) : Prop where
  none : s.treeRoot = Option.none → t.codeCount = 0#9 ∧ t.code = noCodes
  single : ∀ r x p, s.treeRoot = some r → s.arena[r.toNat]? = some (Node.leaf x p) → t.codeCount = 1#9 ∧
    ∀ y c, SymTable.get t.code y = some c ↔ y = x ∧ c = singleCode s.sampledCtrl
  tree : ∀ r m, s.treeRoot = some r → TreeOf s.arena m → 2 ≤ m → r.toNat = 2 * m - 2 → t.codeCount.toNat = m ∧
    ∀ x c, SymTable.get t.code x = some c ↔ leafAt s.arena r.toNat x c

/-- DERIVE's body on any state: prefix-free codes, counted. -/
theorem deriveBody_eq (s : State) : ∃ t, deriveBody s = .finished .ok t ∧
    t = { s with code := tableOf (derivedEntries s), codeCount := BitVec.ofNat 9 (presentCount (tableOf (derivedEntries s))) } ∧
    t.codeCount.toNat = presentCount t.code ∧ PrefixFree t.code := by
  refine ⟨_, rfl, rfl, ?_, prefixFree_tableOf (derivedEntries_pairwise s)⟩
  simp only [BitVec.toNat_ofNat]
  have := presentCount_le (tableOf (derivedEntries s))
  exact Nat.mod_eq_of_lt (by omega)

theorem deriveBody_single {s : State} {r : BitVec 9} {x : Byte} {p : Word} (hr : s.treeRoot = some r)
    (hx : s.arena[r.toNat]? = some (.leaf x p)) : derivedEntries s = [(x, singleCode s.sampledCtrl)] := by
  unfold derivedEntries; rw [hr]; simp only [hx]

theorem deriveBody_internal {s : State} {r : BitVec 9} {a b : Nat} {p : Word} (hr : s.treeRoot = some r)
    (hx : s.arena[r.toNat]? = some (.internal a b p)) : derivedEntries s = walk s.arena s.arena.length r.toNat [] := by
  unfold derivedEntries; rw [hr]; simp only [hx]

theorem noCodes_eq : tableOf [] = noCodes := rfl

theorem presentCount_noCodes : presentCount noCodes = 0 := by
  rw [presentCount_eq noCodes [] List.nodup_nil (by simp)]; rfl

/-- Everything DERIVE does. -/
theorem deriveBody_spec (s : State) : ∃ t, deriveBody s = .finished .ok t ∧ Derived s t ∧
    t = { s with code := t.code, codeCount := t.codeCount } ∧ t.codeCount.toNat = presentCount t.code ∧ PrefixFree t.code := by
  obtain ⟨t, h1, h2, h3, h4⟩ := deriveBody_eq s
  have hcode : t.code = tableOf (derivedEntries s) := by rw [h2]
  have hcount : t.codeCount = BitVec.ofNat 9 (presentCount (tableOf (derivedEntries s))) := by rw [h2]
  refine ⟨t, h1, ⟨?_, ?_, ?_⟩, by rw [h2], h3, h4⟩
  · intro hn
    have : derivedEntries s = [] := by unfold derivedEntries; rw [hn]
    rw [this, noCodes_eq] at hcode hcount
    rw [hcount, presentCount_noCodes]
    exact ⟨rfl, hcode⟩
  · intro r x p hr hx
    have he := deriveBody_single hr hx
    have hn : ([(x, singleCode s.sampledCtrl)].map Prod.fst).Nodup := List.nodup_singleton _
    rw [he] at hcode hcount
    rw [presentCount_tableOf hn] at hcount
    refine ⟨hcount, fun y c => ?_⟩
    rw [hcode, get_tableOf hn]
    simp
  · intro r m hr ht hm hrm
    obtain ⟨a, b, p, hi, -⟩ := ht.internals r.toNat (by omega) (by omega)
    have he := deriveBody_internal hr hi
    obtain ⟨w1, w2, w3, w4, w5⟩ := ht.walk_spec
    rw [← hrm] at w1 w2 w3 w4 w5
    rw [he] at hcode hcount
    rw [presentCount_tableOf w2, w5] at hcount
    refine ⟨?_, fun x c => by rw [hcode, get_tableOf w2, w1]⟩
    rw [hcount, BitVec.toNat_ofNat]
    have := ht.atMost
    exact Nat.mod_eq_of_lt (by omega)

/-- DERIVE's codes are short on a good tree (R152). -/
theorem Derived.short {s t : State} (h : Derived s t) (ht : TreeOk s) {x : Byte} {c : Code}
    (hc : SymTable.get t.code x = some c) : c.length ≤ 255 := by
  cases hr : s.treeRoot with
  | none => rw [(h.none hr).2, get_noCodes] at hc; cases hc
  | some r =>
    obtain ⟨m, htree, hrm⟩ := ht.tree r hr
    have hm := htree.nonempty
    have h256 := htree.atMost
    by_cases h2 : 2 ≤ m
    · have := ((h.tree r m hr htree h2 hrm).2 x c).mp hc
      rw [hrm] at this
      have := htree.walk_spec.2.2.2.1 x c this
      omega
    · have h1 : m = 1 := by omega
      subst h1
      obtain ⟨y, p, hy⟩ := htree.leaves 0 (by omega)
      rw [show (0 : Nat) = r.toNat by omega] at hy
      obtain ⟨-, rfl⟩ := ((h.single r y p hr hy).2 x c).mp hc
      unfold singleCode
      split <;> simp

theorem Derived.codesOk {s t : State} (h : Derived s t) (ht : TreeOk s) (h3 : t.codeCount.toNat = presentCount t.code)
    (h4 : PrefixFree t.code) : CodesOk t :=
  ⟨h4, fun _ _ hc => h.short ht hc, h3⟩

/-! ## MATERIALIZE -/

/-- Entries above a closed arena are not reached from it. -/
theorem follow_overlay {t old : List Branch} (h : ArenaOk t) (c : Code) : ∀ {d : Desc}, (∀ i, d = .branch i → i < t.length) →
    follow (overlay t old) d c = follow t d c := by
  induction c with
  | nil => intro d _; simp
  | cons b c ih =>
    intro d hd
    cases d with
    | absent => rfl
    | leaf x => rfl
    | branch i =>
      have hi := hd i rfl
      have : branchAt (overlay t old) i = branchAt t i := by
        simp only [branchAt, getElem?_overlay_lt _ _ hi]
      rw [follow_branch_cons, follow_branch_cons, this]
      exact ih fun n hn => (h.closed i b n hi hn).2

theorem sum_map_le {α : Type} (l : List α) (f : α → Nat) (k : Nat) (h : ∀ x ∈ l, f x ≤ k) : (l.map f).sum ≤ k * l.length := by
  induction l with
  | nil => simp
  | cons x l ih =>
    have h1 := h x (by simp)
    have h2 := ih fun y hy => h y (by simp [hy])
    simp only [List.map_cons, List.sum_cons, List.length_cons, Nat.mul_succ]
    omega

/-- Everything MATERIALIZE does on a prefix-free table (R153, R156, R157). -/
theorem materializeBody_ok {s : State} (hf : PrefixFree s.code) : ∃ sh : Shadow, shadowTree s.code = .ok sh ∧
    materializeBody s = .finished .ok { s with
      dt := overlay sh.nodes s.dt, dtRoot := sh.root, dtNodes := BitVec.ofNat 17 sh.nodes.length } ∧
    ((sh.root = .absent ∧ sh.nodes = []) ∨ (∃ x, sh.root = .leaf x ∧ sh.nodes = []) ∨
      (sh.root = .branch 0 ∧ 0 < sh.nodes.length ∧ ArenaOk sh.nodes)) ∧
    (∀ x c, follow (overlay sh.nodes s.dt) sh.root c = Desc.leaf x ↔ SymTable.get s.code x = some c) ∧
    (∀ q, (∃ i, follow (overlay sh.nodes s.dt) sh.root q = .branch i) ↔
      ∃ x c, SymTable.get s.code x = some c ∧ q <+: c ∧ q ≠ c) ∧
    sh.nodes.length ≤ (symbols.map fun x => ((SymTable.get s.code x).map List.length).getD 0).sum ∧
    sh.nodes.length = (branchPaths s.code).length ∧
    (∀ i q, follow (overlay sh.nodes s.dt) sh.root q = .branch i ↔ (branchPaths s.code)[i]? = some q) := by
  obtain ⟨sh, hsh⟩ := (shadowTree_ok_iff s.code).mpr hf
  have hspec := shadowTree_spec s.code
  rw [hsh] at hspec
  obtain ⟨-, es, hsp, hes, hsum⟩ := hspec
  have hfollow : ∀ c, follow (overlay sh.nodes s.dt) sh.root c = follow sh.nodes sh.root c := by
    intro c
    rcases hsp.shape with ⟨h1, -⟩ | ⟨x, h1, -⟩ | ⟨h1, h2, h3⟩
    · rw [h1, follow_absent, follow_absent]
    · rw [h1, follow_leaf, follow_leaf]
    · exact follow_overlay h3 c fun i hi => by rw [h1] at hi; cases hi; exact h2
  have hnum := shadowTree_numbered hsh
  refine ⟨sh, hsh, ?_, hsp.shape, ?_, ?_, hsum ▸ hsp.count, hnum.size, fun i q => by rw [hfollow]; exact hnum.path i q⟩
  · unfold materializeBody; rw [hsh]
  · intro x c; rw [hfollow, hsp.leaves, hes]
  · intro q
    simp only [hfollow]
    rw [hsp.branches]
    constructor
    · rintro ⟨⟨x, c⟩, he, h1, h2⟩; exact ⟨x, c, (hes x c).mp he, h1, h2⟩
    · rintro ⟨x, c, he, h1, h2⟩; exact ⟨(x, c), (hes x c).mpr he, h1, h2⟩

/-- Everything MATERIALIZE does on any other table: it stops at the first symbol whose code collides with a smaller one's (R154,
R222, R224 item 3). -/
theorem materializeBody_collision {s : State} (hf : ¬ PrefixFree s.code) : ∃ (x y : Byte) (cx cy : Code),
    materializeBody s = .raised .collision (x.setWidth 32) { s with dtRoot := .absent, dtNodes := 0#17 } ∧
    y.toNat < x.toNat ∧ SymTable.get s.code x = some cx ∧ SymTable.get s.code y = some cy ∧ (cx <+: cy ∨ cy <+: cx) ∧
    ∀ a b ca cb, a.toNat < x.toNat → b.toNat < x.toNat → a ≠ b → SymTable.get s.code a = some ca →
      SymTable.get s.code b = some cb → ¬ Collide ca cb := by
  have hspec := shadowTree_spec s.code
  cases hsh : shadowTree s.code with
  | ok sh => exact absurd ((shadowTree_ok_iff s.code).mp ⟨sh, hsh⟩) hf
  | error x =>
    rw [hsh] at hspec
    obtain ⟨⟨y, cx, cy, h1, h2, h3, h4⟩, h5⟩ := hspec
    exact ⟨x, y, cx, cy, by unfold materializeBody; rw [hsh], h1, h2, h3, h4.symm, h5⟩

/-- Codes of at most 255 bits fill no arena (R157). -/
theorem sum_lengths_le {codes : SymTable (Option Code)} (h : ∀ x c, SymTable.get codes x = some c → c.length ≤ 255) :
    (symbols.map fun x => ((SymTable.get codes x).map List.length).getD 0).sum ≤ 65280 := by
  have : ∀ l : List Byte, (l.map fun x => ((SymTable.get codes x).map List.length).getD 0).sum ≤ 255 * l.length := by
    intro l
    induction l with
    | nil => simp
    | cons x l ih =>
      have : ((SymTable.get codes x).map List.length).getD 0 ≤ 255 := by
        cases hc : SymTable.get codes x with
        | none => simp
        | some c => simpa using h x c hc
      simp only [List.map_cons, List.sum_cons, List.length_cons, Nat.mul_succ]
      omega
  have := this symbols
  rw [length_symbols] at this
  exact this

/-- The decode tree MATERIALIZE leaves of a good table is closed and fits (R46, R157). -/
theorem materialized_decodeTreeOk {s : State} (h : ∀ x c, SymTable.get s.code x = some c → c.length ≤ 255) :
    ∃ (e : Ended) (t : State), materializeBody s = e ∧ (e = .finished .ok t ∨ ∃ i, e = .raised .collision i t) ∧ DecodeTreeOk t := by
  by_cases hf : PrefixFree s.code
  · obtain ⟨sh, -, hb, hshape, -, -, hlen, -⟩ := materializeBody_ok hf
    have hle := hlen.trans (sum_lengths_le h)
    have hn : (BitVec.ofNat 17 sh.nodes.length).toNat = sh.nodes.length := by
      rw [BitVec.toNat_ofNat]; exact Nat.mod_eq_of_lt (by omega)
    refine ⟨_, _, hb, .inl rfl, ?_, ?_, ?_, ?_, ?_⟩
    · simp only [hn, length_overlay]; omega
    · simp only [hn]; omega
    · simp only [hn]
      rcases hshape with ⟨h1, h2⟩ | ⟨x, h1, h2⟩ | ⟨h1, h2, -⟩ <;> simp [h1, h2]
    · intro n hn'
      rcases hshape with ⟨h1, h2⟩ | ⟨x, h1, h2⟩ | ⟨h1, h2, -⟩ <;> simp [h1] at hn'
      exact hn'.symm
    · intro i b n hi hc
      simp only [hn] at hi ⊢
      have : branchAt (overlay sh.nodes s.dt) i = branchAt sh.nodes i := by
        simp only [branchAt, getElem?_overlay_lt _ _ hi]
      rcases hshape with ⟨h1, h2⟩ | ⟨x, h1, h2⟩ | ⟨h1, h2, h3⟩
      · rw [h2] at hi; cases hi
      · rw [h2] at hi; cases hi
      · exact h3.closed i b n hi (by rw [← this]; exact hc)
  · obtain ⟨x, y, cx, cy, hb, -⟩ := materializeBody_collision hf
    refine ⟨_, _, hb, .inr ⟨_, rfl⟩, by simp, by simp, by simp, by simp, ?_⟩
    intro i b n hi
    simp at hi

/-! ## SERIALIZE (R190) -/

/-- Everything SERIALIZE does: it is turned away, it emits all, or it stops at the first bad byte. -/
theorem serializeBody_cases (s : State) :
    (s.params.srcBytes < s.srcLen.toNat ∧ serializeBody s = .raised .lenRange 0x010#32 s) ∨
    (s.srcLen.toNat ≤ s.params.srcBytes ∧ (∀ b ∈ s.source, (SymTable.get s.code b).isSome = true) ∧
      (emittedBits s.code s.source).length ≤ s.params.bitbufBits ∧
      serializeBody s = .finished .ok { s with
        mem := { s.mem with bitbuf := cellsWrite s.mem.bitbuf 0 (emittedBits s.code s.source) }
        bitLen := BitVec.ofNat 32 (emittedBits s.code s.source).length, bitCursor := 0#32 }) ∨
    (s.srcLen.toNat ≤ s.params.srcBytes ∧ ∃ pre b rest, s.source = pre ++ b :: rest ∧
      (∀ x ∈ pre, (SymTable.get s.code x).isSome = true) ∧ (emittedBits s.code pre).length ≤ s.params.bitbufBits ∧
      (SymTable.get s.code b = none ∨ ∃ c, SymTable.get s.code b = some c ∧
        s.params.bitbufBits < (emittedBits s.code pre).length + c.length) ∧
      serializeBody s = .raised (if (SymTable.get s.code b).isSome then .bitbufOvf else .encNoCode)
        (BitVec.ofNat 32 pre.length) { s with
          mem := { s.mem with bitbuf := cellsWrite s.mem.bitbuf 0 (emittedBits s.code pre) }, bitLen := 0#32 }) := by
  by_cases h : s.params.srcBytes < s.srcLen.toNat
  · exact .inl ⟨h, by unfold serializeBody; rw [if_pos h]⟩
  · rcases emit_split s.code s.params.bitbufBits s.source 0 (Nat.zero_le _) with ⟨h1, h2⟩ | ⟨pre, b, rest, h1, h2, h3, h4⟩
    · have := emit_ok (i := 0) (m := s.mem.bitbuf) h1 h2
      refine .inr (.inl ⟨by omega, h1, by simpa using h2, ?_⟩)
      unfold serializeBody
      rw [if_neg h, this]
      simp
    · have := emit_error (rest := rest) (i := 0) (m := s.mem.bitbuf) h2 h3 h4
      refine .inr (.inr ⟨by omega, pre, b, rest, h1, h2, by simpa using h3, by simpa using h4, ?_⟩)
      unfold serializeBody
      rw [if_neg h, h1, this]
      simp

end Sys2Proof.Machine
end

