-- ==== Sys2Proof/Laws/Canon.lean ====
section
/-! SUPPORT. What CANON assigns, where it faults, and why its tables are prefix-free (R170 to R175). -/

namespace Sys2Proof.Machine

/-! ## CANON -/

theorem canonStep_ok_iff {i : Nat} {e : Word} {r r' : CanonRun} :
    canonStep i e r = .ok r' ↔ canonLen e ≠ 0 ∧ canonLen e ≤ 31 ∧ SymTable.get r.table (canonSym e) = none ∧
      nextCode i (canonLen e) r < 2 ^ canonLen e ∧
      r' = { code := nextCode i (canonLen e) r, prev := canonLen e,
             table := SymTable.set r.table (canonSym e) (some (bitsOf (nextCode i (canonLen e) r) (canonLen e))) } := by
  unfold canonStep
  by_cases h1 : canonLen e = 0
  · simp [h1]
  rw [if_neg h1]
  by_cases h2 : Config.canonLmax < canonLen e
  · have : ¬ canonLen e ≤ 31 := by unfold Config.canonLmax at h2; omega
    simp [h2, this]
  rw [if_neg h2]
  have h2' : canonLen e ≤ 31 := by unfold Config.canonLmax at h2; omega
  by_cases h3 : (SymTable.get r.table (canonSym e)).isSome = true
  · obtain ⟨c, hc⟩ := Option.isSome_iff_exists.mp h3
    simp [hc]
  rw [if_neg h3]
  have h3' : SymTable.get r.table (canonSym e) = none := by simpa using h3
  by_cases h4 : 2 ^ canonLen e ≤ nextCode i (canonLen e) r
  · rw [if_pos h4]
    constructor
    · intro h; cases h
    · rintro ⟨-, -, -, h5, -⟩; omega
  · rw [if_neg h4]
    simp only [Except.ok.injEq]
    constructor
    · intro h; exact ⟨h1, h2', h3', by omega, h.symm⟩
    · rintro ⟨-, -, -, -, h⟩; exact h.symm

/-- What holds after some entries: the codes of entry order, each with its number and length, and every present code's interval
below the running one (R170, R175). -/
structure CanonInv (r : CanonRun) (i : Nat) : Prop where
  fresh : i = 0 → r.table = noCodes ∧ r.code = 0 ∧ r.prev = 0
  prev : r.prev ≤ 31
  below : ∀ x c, SymTable.get r.table x = some c → 0 < i ∧ c.length ≤ 31 ∧ 1 ≤ c.length ∧
    (codeValue c + 1) * 2 ^ (31 - c.length) ≤ (r.code + 1) * 2 ^ (31 - r.prev)
  free : PrefixFree r.table

theorem canonInv_zero : CanonInv { code := 0, prev := 0, table := noCodes } 0 :=
  ⟨fun _ => ⟨rfl, rfl, rfl⟩, by simp, by simp, by intro x y cx cy _ h; simp at h⟩

/-- The next entry's interval starts at or above the end of the last one (R175). -/
theorem nextCode_ge {i len : Nat} {r : CanonRun} (hi : 0 < i) (hp : r.prev ≤ 31) (hl : len ≤ 31) :
    (r.code + 1) * 2 ^ (31 - r.prev) ≤ nextCode i len r * 2 ^ (31 - len) := by
  unfold nextCode
  rw [if_neg (by omega)]
  split
  · next h =>
    rw [Nat.shiftLeft_eq, Nat.mul_assoc, ← pow_add]
    have : len - r.prev + (31 - len) = 31 - r.prev := by omega
    rw [this]
  · next h =>
    exact Nat.mul_le_mul_left _ (Nat.pow_le_pow_right (by omega) (by omega))

/-- Two codes whose intervals are disjoint do not begin with one another. -/
theorem not_prefix_of_interval {a c : Code} (ha : a.length ≤ 31) (hc : c.length ≤ 31)
    (h : (codeValue a + 1) * 2 ^ (31 - a.length) ≤ codeValue c * 2 ^ (31 - c.length)) : ¬ a <+: c ∧ ¬ c <+: a := by
  constructor
  · intro hp
    obtain ⟨h1, h2⟩ := codeValue_of_prefix hp
    have hl := hp.length_le
    have : codeValue c * 2 ^ (31 - c.length) < (codeValue a + 1) * 2 ^ (31 - a.length) := by
      calc codeValue c * 2 ^ (31 - c.length) < (codeValue a + 1) * 2 ^ (c.length - a.length) * 2 ^ (31 - c.length) :=
            Nat.mul_lt_mul_of_pos_right h2 (by positivity)
        _ = (codeValue a + 1) * 2 ^ (31 - a.length) := by
            rw [Nat.mul_assoc, ← pow_add]; congr 2; omega
    omega
  · intro hp
    obtain ⟨h1, h2⟩ := codeValue_of_prefix hp
    have hl := hp.length_le
    have : codeValue c * 2 ^ (31 - c.length) ≤ codeValue a * 2 ^ (31 - a.length) := by
      calc codeValue c * 2 ^ (31 - c.length) = codeValue c * 2 ^ (a.length - c.length) * 2 ^ (31 - a.length) := by
            rw [Nat.mul_assoc, ← pow_add]; congr 2; omega
        _ ≤ codeValue a * 2 ^ (31 - a.length) := Nat.mul_le_mul_right _ h1
    have h3 : 0 < 2 ^ (31 - a.length) := by positivity
    rw [Nat.add_mul] at h
    omega

theorem canonInv_step {i : Nat} {e : Word} {r r' : CanonRun} (h : CanonInv r i) (hs : canonStep i e r = .ok r') :
    CanonInv r' (i + 1) := by
  obtain ⟨h1, h2, h3, h4, rfl⟩ := canonStep_ok_iff.mp hs
  have hv : codeValue (bitsOf (nextCode i (canonLen e) r) (canonLen e)) = nextCode i (canonLen e) r := by
    rw [codeValue_bitsOf, Nat.mod_eq_of_lt h4]
  have hnew : ∀ x c, SymTable.get r.table x = some c →
      (codeValue c + 1) * 2 ^ (31 - c.length) ≤ nextCode i (canonLen e) r * 2 ^ (31 - canonLen e) := by
    intro x c hx
    obtain ⟨hi, -, -, hb⟩ := h.below x c hx
    exact Nat.le_trans hb (nextCode_ge hi h.prev h2)
  have hcase : ∀ x c, SymTable.get (SymTable.set r.table (canonSym e)
      (some (bitsOf (nextCode i (canonLen e) r) (canonLen e)))) x = some c →
      (x = canonSym e ∧ c = bitsOf (nextCode i (canonLen e) r) (canonLen e)) ∨
      (x ≠ canonSym e ∧ SymTable.get r.table x = some c) := by
    intro x c hx
    rw [get_set] at hx
    split at hx
    · next hh => exact .inl ⟨hh, by simpa using hx.symm⟩
    · next hh => exact .inr ⟨hh, hx⟩
  refine ⟨by omega, h2, ?_, ?_⟩
  · intro x c hx
    rcases hcase x c hx with ⟨rfl, rfl⟩ | ⟨-, hx⟩
    · simp only [length_bitsOf, hv]
      exact ⟨by omega, h2, by omega, Nat.le_refl _⟩
    · obtain ⟨-, hl, hl', -⟩ := h.below x c hx
      refine ⟨by omega, hl, hl', Nat.le_trans (hnew x c hx) ?_⟩
      exact Nat.mul_le_mul_right _ (by simp)
  · intro x y cx cy hxy hx hy
    rcases hcase x cx hx with ⟨rfl, rfl⟩ | ⟨hx', hx⟩ <;> rcases hcase y cy hy with ⟨rfl, rfl⟩ | ⟨hy', hy⟩
    · exact absurd rfl hxy
    · obtain ⟨-, hl, -, -⟩ := h.below y cy hy
      exact (not_prefix_of_interval hl (by simpa using h2) (by rw [hv, length_bitsOf]; exact hnew y cy hy)).2
    · obtain ⟨-, hl, -, -⟩ := h.below x cx hx
      exact (not_prefix_of_interval hl (by simpa using h2) (by rw [hv, length_bitsOf]; exact hnew x cx hx)).1
    · exact h.free x y cx cy hxy hx hy

theorem canonRun_cons (i : Nat) (e : Word) (es : List Word) (r : CanonRun) :
    canonRun i (e :: es) r =
      match canonStep i e r with
      | .error c => .error (c, i)
      | .ok r' => canonRun (i + 1) es r' := rfl

theorem canonRun_append (i : Nat) (a b : List Word) (r : CanonRun) :
    canonRun i (a ++ b) r =
      match canonRun i a r with
      | .ok r' => canonRun (i + a.length) b r'
      | .error e => .error e := by
  induction a generalizing i r with
  | nil => rfl
  | cons e a ih =>
    rw [List.cons_append, canonRun_cons, canonRun_cons]
    cases canonStep i e r with
    | error c => rfl
    | ok r' =>
      simp only
      rw [ih]
      cases canonRun (i + 1) a r' with
      | error c => rfl
      | ok r'' => simp only [List.length_cons]; rw [show i + (a.length + 1) = i + 1 + a.length by omega]

theorem canonInv_run {es : List Word} : ∀ {i : Nat} {r r' : CanonRun}, CanonInv r i → canonRun i es r = .ok r' →
    CanonInv r' (i + es.length) := by
  induction es with
  | nil => intro i r r' h hr; cases hr; exact h
  | cons e es ih =>
    intro i r r' h hr
    unfold canonRun at hr
    cases hs : canonStep i e r with
    | error c => rw [hs] at hr; cases hr
    | ok r1 =>
      rw [hs] at hr
      have := ih (canonInv_step h hs) hr
      simp only [List.length_cons]
      rwa [show i + (es.length + 1) = i + 1 + es.length by omega]

/-- Every table CANON builds is prefix-free, with codes of 1 to 31 bits (R175). -/
theorem canonTable_inv {es : List Word} {t : SymTable (Option Code)} (h : canonTable es = .ok t) :
    PrefixFree t ∧ ∀ x c, SymTable.get t x = some c → 1 ≤ c.length ∧ c.length ≤ 31 := by
  unfold canonTable at h
  cases hr : canonRun 0 es { code := 0, prev := 0, table := noCodes } with
  | error c => rw [hr] at h; cases h
  | ok r =>
    rw [hr] at h
    simp only [Except.map, Except.ok.injEq] at h
    subst h
    have := canonInv_run canonInv_zero hr
    exact ⟨this.free, fun x c hx => ⟨(this.below x c hx).2.2.1, (this.below x c hx).2.1⟩⟩

/-- What a run of good entries has assigned: the entries' symbols, each with its length and the running code (R170, R172). -/
structure CanonGave (es : List Word) (len : Nat → Nat) (r : CanonRun) : Prop where
  code : es ≠ [] → r.code = canonCode len (es.length - 1) ∧ r.prev = len (es.length - 1)
  given : ∀ i e, es[i]? = some e → SymTable.get r.table (canonSym e) = some (bitsOf (canonCode len i) (len i))
  others : ∀ x, x ∉ es.map canonSym → SymTable.get r.table x = none
  start : es = [] → r = { code := 0, prev := 0, table := noCodes }

theorem nextCode_eq {es : List Word} {len : Nat → Nat} {r : CanonRun} (h : CanonGave es len r) :
    nextCode es.length (len es.length) r = canonCode len es.length := by
  unfold nextCode
  by_cases he : es = []
  · rw [h.start he, he]; rfl
  · obtain ⟨h1, h2⟩ := h.code he
    have hl : es.length ≠ 0 := by simpa using he
    obtain ⟨n, hn⟩ := Nat.exists_eq_succ_of_ne_zero hl
    rw [if_neg hl, h1, h2, hn]
    simp only [Nat.succ_eq_add_one, Nat.add_sub_cancel, canonCode]
    split
    · rw [Nat.shiftLeft_eq]
    · next hle => rw [show len (n + 1) - len n = 0 by omega]; simp

/-- A list whose entries pass every check runs to its end, and gives each entry its code. -/
theorem canonRun_good (es : List Word) (len : Nat → Nat) (hn : (es.map canonSym).Nodup)
    (hg : ∀ i e, es[i]? = some e → len i = canonLen e ∧ 1 ≤ len i ∧ len i ≤ 31 ∧ canonCode len i < 2 ^ len i) :
    ∃ r, canonRun 0 es { code := 0, prev := 0, table := noCodes } = .ok r ∧ CanonGave es len r := by
  induction es using List.reverseRecOn with
  | nil => exact ⟨_, rfl, ⟨fun h => absurd rfl h, by simp, by simp, fun _ => rfl⟩⟩
  | append_singleton es e ih =>
    rw [List.map_append, List.nodup_append] at hn
    obtain ⟨r, hr, hgave⟩ := ih hn.1 fun i e' he => hg i e' (by
      rw [List.getElem?_append_left]
      · exact he
      · exact (List.getElem?_eq_some_iff.mp he).1)
    obtain ⟨hl, h1, h2, h3⟩ := hg es.length e (by simp)
    have hnot : canonSym e ∉ es.map canonSym := fun h => hn.2.2 (canonSym e) h (canonSym e) (by simp) rfl
    have hnext := nextCode_eq hgave
    rw [hl] at hnext
    have hstep : canonStep es.length e r = .ok
        { code := canonCode len es.length, prev := canonLen e,
          table := SymTable.set r.table (canonSym e) (some (bitsOf (canonCode len es.length) (canonLen e))) } := by
      rw [canonStep_ok_iff]
      rw [hl] at h1 h2 h3
      exact ⟨by omega, h2, hgave.others _ hnot, by rw [hnext]; exact h3, by rw [hnext]⟩
    refine ⟨CanonRun.mk (canonCode len es.length) (canonLen e)
        (SymTable.set r.table (canonSym e) (some (bitsOf (canonCode len es.length) (canonLen e)))),
      by rw [canonRun_append, hr]; simp only [Nat.zero_add, canonRun, hstep], ?_⟩
    constructor
    · intro _; simp only [List.length_append, List.length_singleton, Nat.add_sub_cancel]; exact ⟨trivial, hl.symm⟩
    · intro i e' he'
      rw [get_set]
      by_cases hi : i < es.length
      · rw [List.getElem?_append_left hi] at he'
        rw [if_neg, hgave.given i e' he']
        intro heq
        exact hnot (heq ▸ List.mem_map_of_mem (List.mem_of_getElem? he'))
      · have hi' : i = es.length := by
          have := (List.getElem?_eq_some_iff.mp he').1
          simp at this; omega
        subst hi'
        simp at he'
        subst he'
        rw [if_pos rfl, hl]
    · intro x hx
      simp only [List.map_append, List.map_cons, List.map_nil, List.mem_append, List.mem_singleton, not_or] at hx
      rw [get_set, if_neg hx.2, hgave.others x hx.1]
    · intro h; simp at h

/-- The first bad entry ends the run with the first check it fails (R171). -/
theorem canonRun_bad (es rest : List Word) (e : Word) (len : Nat → Nat) (hn : (es.map canonSym).Nodup)
    (hg : ∀ i e, es[i]? = some e → len i = canonLen e ∧ 1 ≤ len i ∧ len i ≤ 31 ∧ canonCode len i < 2 ^ len i)
    (hl : len es.length = canonLen e)
    (hb : canonLen e = 0 ∨ 31 < canonLen e ∨ canonSym e ∈ es.map canonSym ∨
      2 ^ canonLen e ≤ canonCode len es.length) :
    canonRun 0 (es ++ e :: rest) { code := 0, prev := 0, table := noCodes } =
      .error ((if canonLen e = 0 then .canonZeroLen
         else if 31 < canonLen e then .canonLenTooLong
         else if canonSym e ∈ es.map canonSym then .canonDupSymbol
         else .canonOversub), es.length) := by
  obtain ⟨r, hr, hgave⟩ := canonRun_good es len hn hg
  have hnext := nextCode_eq hgave
  rw [hl] at hnext
  have hdup : (SymTable.get r.table (canonSym e)).isSome = true ↔ canonSym e ∈ es.map canonSym := by
    constructor
    · intro h
      by_contra hx
      rw [hgave.others _ hx] at h
      simp at h
    · intro h
      obtain ⟨e', he', heq⟩ := List.mem_map.mp h
      obtain ⟨i, hi⟩ := List.mem_iff_getElem?.mp he'
      rw [← heq, hgave.given i e' hi]; rfl
  have hstep : canonStep es.length e r = .error (if canonLen e = 0 then .canonZeroLen
         else if 31 < canonLen e then .canonLenTooLong
         else if canonSym e ∈ es.map canonSym then .canonDupSymbol
         else .canonOversub) := by
    unfold canonStep Config.canonLmax
    rw [hnext]
    by_cases h1 : canonLen e = 0
    · simp [h1]
    by_cases h2 : 31 < canonLen e
    · simp [h1, h2]
    by_cases h3 : canonSym e ∈ es.map canonSym
    · rw [if_neg h1, if_neg h2, if_pos (hdup.mpr h3), if_neg h1, if_neg h2, if_pos h3]
    · have h4 : 2 ^ canonLen e ≤ canonCode len es.length := by
        rcases hb with hb | hb | hb | hb
        · exact absurd hb h1
        · exact absurd hb h2
        · exact absurd hb h3
        · exact hb
      rw [if_neg h1, if_neg h2, if_neg (fun h => h3 (hdup.mp h)), if_pos h4, if_neg h1, if_neg h2, if_neg h3]
  rw [canonRun_append, hr]
  simp only [Nat.zero_add, canonRun, hstep]

/-- A table CANON builds has a code for exactly the symbols of its list, each once. -/
theorem canonTable_count {es : List Word} {t : SymTable (Option Code)} (h : canonTable es = .ok t) :
    (es.map canonSym).Nodup ∧ presentCount t = es.length := by
  have gen : ∀ (es : List Word) (r : CanonRun), canonRun 0 es { code := 0, prev := 0, table := noCodes } = .ok r →
      (es.map canonSym).Nodup ∧ ∀ x, (SymTable.get r.table x).isSome = true ↔ x ∈ es.map canonSym := by
    intro es
    induction es using List.reverseRecOn with
    | nil => intro r hr; cases hr; simp
    | append_singleton es e ih =>
      intro r hr
      rw [canonRun_append] at hr
      cases hr1 : canonRun 0 es { code := 0, prev := 0, table := noCodes } with
      | error c => rw [hr1] at hr; cases hr
      | ok r1 =>
        rw [hr1] at hr
        obtain ⟨h1, h2⟩ := ih r1 hr1
        simp only [canonRun] at hr
        cases hs : canonStep (0 + es.length) e r1 with
        | error c => rw [hs] at hr; cases hr
        | ok r2 =>
          rw [hs] at hr
          cases hr
          obtain ⟨-, -, h3, -, rfl⟩ := canonStep_ok_iff.mp hs
          have hnot : canonSym e ∉ es.map canonSym := fun h => by
            rw [← h2, h3] at h; simp at h
          refine ⟨?_, fun x => ?_⟩
          · rw [List.map_append, List.nodup_append]
            refine ⟨h1, by simp, ?_⟩
            intro a ha b hb
            simp only [List.map_cons, List.map_nil, List.mem_singleton] at hb
            subst hb
            exact fun heq => hnot (heq ▸ ha)
          · simp only [get_set, List.map_append, List.map_cons, List.map_nil, List.mem_append, List.mem_singleton]
            split
            · next hx => simp [hx]
            · next hx => rw [h2]; simp [hx]
  unfold canonTable at h
  cases hr : canonRun 0 es { code := 0, prev := 0, table := noCodes } with
  | error c => rw [hr] at h; cases h
  | ok r =>
    rw [hr] at h
    simp only [Except.map, Except.ok.injEq] at h
    subst h
    obtain ⟨h1, h2⟩ := gen es r hr
    exact ⟨h1, by rw [presentCount_eq _ _ h1 h2, List.length_map]⟩

end Sys2Proof.Machine
end

