-- ==== Sys2Proof/Laws/Encode.lean ====
section
/-! SUPPORT. The codes of a tree BUILD made, and everything ENCODE does (R192). -/

namespace Sys2Proof.Machine

/-! ## The codes of a tree BUILD made -/

/-- The leaves of a built tree are the listed symbols. -/
theorem Built.leaf_iff {s t : State} {r : BitVec 9} (hb : Built s t r) (hl : ListOk s) (x : Byte) :
    (∃ (i : Nat) (p : Word), t.arena[i]? = some (.leaf x p)) ↔ x ∈ s.listed := by
  constructor
  · rintro ⟨i, p, hi⟩
    rcases hb.tree.entry hi with ⟨him, -⟩ | ⟨-, -, a, b, p', e, -⟩
    · rw [← hl.length] at him
      have := hb.leaves i _ (List.getElem?_eq_getElem him)
      rw [hi] at this
      cases this
      exact List.getElem_mem _
    · cases e
  · intro h
    obtain ⟨i, hi⟩ := List.mem_iff_getElem?.mp h
    exact ⟨i, _, hb.leaves i x hi⟩

/-- DERIVE gives a code to exactly the symbols BUILD's tree is over; it is the empty code only for a sole symbol. -/
theorem Built.code_isSome {s t u : State} {r : BitVec 9} (hb : Built s t r) (hl : ListOk s) (hd : Derived t u) (x : Byte) :
    (SymTable.get u.code x).isSome = true ↔ x ∈ s.listed := by
  rw [← hb.leaf_iff hl x]
  have hm := hb.tree.nonempty
  by_cases h2 : 2 ≤ s.numSyms.toNat
  · have h := (hd.tree r _ hb.root hb.tree h2 hb.rootIndex).2
    rw [Option.isSome_iff_exists]
    constructor
    · rintro ⟨c, hc⟩
      obtain ⟨k, p, -, hk⟩ := (h x c).mp hc
      exact ⟨k, p, hk⟩
    · rintro ⟨i, p, hi⟩
      have hil := (List.getElem?_eq_some_iff.mp hi).1
      rw [hb.tree.size] at hil
      obtain ⟨c, hc⟩ := hb.tree.reached hil
      rw [← hb.rootIndex] at hc
      exact ⟨c, (h x c).mpr ⟨i, p, hc, hi⟩⟩
  · have h1 : s.numSyms.toNat = 1 := by omega
    obtain ⟨y, p, hy⟩ := hb.tree.leaves 0 (by omega)
    have hr0 : r.toNat = 0 := by rw [hb.rootIndex, h1]
    have h := (hd.single r y p hb.root (by rw [hr0]; exact hy)).2
    rw [Option.isSome_iff_exists]
    constructor
    · rintro ⟨c, hc⟩
      obtain ⟨rfl, -⟩ := (h x c).mp hc
      exact ⟨0, p, hy⟩
    · rintro ⟨i, q, hi⟩
      have hil := (List.getElem?_eq_some_iff.mp hi).1
      rw [hb.tree.size, h1] at hil
      have : i = 0 := by omega
      subst this
      rw [hy] at hi; cases hi
      exact ⟨_, (h x _).mpr ⟨rfl, rfl⟩⟩

/-! ## ENCODE -/

/-- The states between ENCODE's five bodies, and what each holds (R192). -/
structure EncodeRun (s a b c d : State) : Prop where
  count : countBody s = .finished .ok a
  build : buildBody a = .finished .ok b
  derive : deriveBody b = .finished .ok c
  materialize : materializeBody c = .finished .ok d
  encode : encodeBody s = serializeBody d
  counted : Counted s a
  listOk : ListOk a
  treeOk : TreeOk b
  derived : Derived b c
  codesOk : CodesOk c
  code : ∀ x, (SymTable.get c.code x).isSome = true ↔ x ∈ s.source
  sole : ∀ x, s.source ≠ [] → (∀ y ∈ s.source, y = x) → ∀ y w, SymTable.get c.code y = some w ↔
    y = x ∧ w = singleCode s.sampledCtrl
  frame : d = { s with
    freq := a.freq, list := a.list, numSyms := a.numSyms, node := b.node, nodeCount := b.nodeCount, treeRoot := b.treeRoot,
    code := c.code, codeCount := c.codeCount, dt := d.dt, dtRoot := d.dtRoot, dtNodes := d.dtNodes }
  spells : ∀ x w, follow d.dt d.dtRoot w = Desc.leaf x ↔ SymTable.get c.code x = some w
  branches : ∀ q, (∃ i, follow d.dt d.dtRoot q = .branch i) ↔ ∃ x w, SymTable.get c.code x = some w ∧ q <+: w ∧ q ≠ w
  root : d.dtRoot = .absent ∨ (∃ x, d.dtRoot = .leaf x) ∨ d.dtRoot = .branch 0

/-- ENCODE on an input within capacity reaches SERIALIZE (R192). -/
theorem encode_run {s : State} (hw : s.params.wf = true) (hl : s.srcLen.toNat ≤ s.params.srcBytes) :
    ∃ a b c d, EncodeRun s a b c d := by
  rcases countBody_cases s with ⟨h, -⟩ | ⟨-, a, ha, hcnt, hfa⟩
  · omega
  have hpa : a.params = s.params := by rw [hfa]
  have hla := hcnt.listOk hl
  have hlen : s.source.length < 2 ^ 32 := by rw [length_source]; exact s.srcLen.isLt
  have hocc : ∀ x, x ∈ a.listed ↔ x ∈ s.source := by
    intro x
    rw [hcnt.listed, mem_countedSymbols, ← List.count_pos_iff, ← get_frequencies _ hlen x]
    constructor
    · intro h
      rcases Nat.eq_zero_or_pos (SymTable.get (frequencies s.source) x).toNat with h0 | h0
      · exact absurd (BitVec.eq_of_toNat_eq (y := 0#32) h0) h
      · exact h0
    · intro h e; rw [e] at h; simp at h
  have hbuild : ∃ b, buildBody a = .finished .ok b ∧ TreeOk b ∧
      b = { a with node := b.node, nodeCount := b.nodeCount, treeRoot := b.treeRoot } ∧
      (∀ c, Derived b c → ∀ x, (SymTable.get c.code x).isSome = true ↔ x ∈ a.listed) ∧
      ∀ x, a.listed = [x] → ∀ c, Derived b c → ∀ y w, SymTable.get c.code y = some w ↔
        y = x ∧ w = singleCode b.sampledCtrl := by
    rcases buildBody_cases hla (by rw [hpa]; exact hw) with ⟨h0, hb⟩ | ⟨-, b, r, hb, hbt, hfb⟩
    · have hnil : a.listed = [] := List.length_eq_zero_iff.mp (by rw [hla.length, h0]; rfl)
      refine ⟨_, hb, ⟨by simp, fun _ => rfl, fun r h => (by cases h)⟩, rfl, fun c hd x => ?_, fun x hx => ?_⟩
      · rw [(hd.none rfl).2]
        simp [hnil]
      · rw [hnil] at hx; cases hx
    · refine ⟨b, hb, hbt.treeOk, hfb, fun c hd x => hbt.code_isSome hla hd x, fun x hx c hd => ?_⟩
      have h1 : a.numSyms.toNat = 1 := by rw [← hla.length, hx]; rfl
      refine (hd.single r x (SymTable.get a.freq x) hbt.root ?_).2
      rw [hbt.rootIndex, h1]
      exact hbt.leaves 0 x (by rw [hx]; rfl)
  obtain ⟨b, hb, htb, hfb, hcode, hsole⟩ := hbuild
  obtain ⟨c, hc, hd, hfc, hcc, hpf⟩ := deriveBody_spec b
  have hco := hd.codesOk htb hcc hpf
  obtain ⟨sh, -, hm, hshape, hsp, hbr, -⟩ := materializeBody_ok hpf
  refine ⟨a, b, c, _, ha, hb, hc, hm, ?_, hcnt, hla, htb, hd, hco, ?_, ?_, ?_, hsp, hbr, ?_⟩
  · unfold encodeBody; rw [ha]; simp only [Ended.andThen]; rw [hb]; simp only; rw [hc]; simp only; rw [hm]
  · intro x; rw [hcode c hd, hocc]
  · intro x hne hall
    have hsc : b.sampledCtrl = s.sampledCtrl := by rw [hfb, hfa]; rfl
    rw [← hsc]
    refine hsole x ?_ c hd
    have hmem : ∀ y ∈ a.listed, y = x := fun y hy => hall y ((hocc y).mp hy)
    have hnd := hla.nodup
    obtain ⟨z, hz⟩ := List.exists_mem_of_ne_nil _ hne
    have hz' := (hocc z).mpr hz
    revert hmem hnd hz'
    generalize a.listed = l
    intro hmem hnd hz'
    cases l with
    | nil => cases hz'
    | cons y l =>
      obtain rfl := hmem y (by simp)
      cases l with
      | nil => rfl
      | cons u l =>
        have := hmem u (by simp)
        subst this
        simp at hnd
  · rw [hfc, hfb, hfa]
  · rcases hshape with ⟨h, -⟩ | ⟨x, h, -⟩ | ⟨h, -, -⟩
    · exact .inl h
    · exact .inr (.inl ⟨x, h⟩)
    · exact .inr (.inr h)

/-- Everything ENCODE does on an input within capacity: it emits the codes, or they do not fit (R192). -/
theorem encode_cases {s : State} (hw : s.params.wf = true) (hl : s.srcLen.toNat ≤ s.params.srcBytes) :
    ∃ a b c d, EncodeRun s a b c d ∧
      (((emittedBits c.code s.source).length ≤ s.params.bitbufBits ∧
        encodeBody s = .finished .ok { d with
          mem := { s.mem with bitbuf := cellsWrite s.mem.bitbuf 0 (emittedBits c.code s.source) }
          bitLen := BitVec.ofNat 32 (emittedBits c.code s.source).length, bitCursor := 0#32 }) ∨
      (s.params.bitbufBits < (emittedBits c.code s.source).length ∧ ∃ pre rest, s.source = pre ++ rest ∧
        encodeBody s = .raised .bitbufOvf (BitVec.ofNat 32 pre.length) { d with
          mem := { s.mem with bitbuf := cellsWrite s.mem.bitbuf 0 (emittedBits c.code pre) }, bitLen := 0#32 })) := by
  obtain ⟨a, b, c, d, h⟩ := encode_run hw hl
  refine ⟨a, b, c, d, h, ?_⟩
  have hcode : d.code = c.code := by rw [h.frame]
  have hsrc : d.source = s.source := by rw [h.frame]; rfl
  have hpar : d.params = s.params := by rw [h.frame]
  have hmem : d.mem = s.mem := by rw [h.frame]
  have hlen : d.srcLen = s.srcLen := by rw [h.frame]
  have hsome : ∀ x ∈ d.source, (SymTable.get d.code x).isSome = true := by
    intro x hx; rw [hcode]; rw [hsrc] at hx; exact (h.code x).mpr hx
  rw [h.encode]
  rcases serializeBody_cases d with ⟨h1, -⟩ | ⟨-, h1, h2, h3⟩ | ⟨-, pre, x, rest, h1, h2, h3, h4, h5⟩
  · rw [hpar, hlen] at h1; omega
  · rw [hcode, hsrc, hpar] at h2
    rw [hcode, hsrc, hmem] at h3
    exact .inl ⟨h2, h3.trans (by rw [hcode])⟩
  · have hx := hsome x (by rw [h1]; simp)
    rw [hx, if_pos rfl, hcode, hmem] at h5
    rw [hcode, hpar] at h4
    rw [hcode] at hx
    rcases h4 with h4 | ⟨w, h4, h6⟩
    · rw [h4] at hx; cases hx
    · refine .inr ⟨?_, pre, x :: rest, by rw [← hsrc, h1], h5.trans (by rw [hcode])⟩
      rw [← hsrc, h1, emittedBits_append]
      have : emittedBits c.code (x :: rest) = w ++ emittedBits c.code rest := by simp [emittedBits, h4]
      rw [this]
      simp only [List.length_append]
      omega

end Sys2Proof.Machine
end

