-- ==== Sys2Proof/Laws/State.lean ====
section
/-! SUPPORT. One lemma per field for each named update of State, so that no later proof unfolds the update. -/

namespace Sys2Proof.Machine

/-! ## finish -/

@[simp] theorem finish_params (code : ResultCode) (s : State) : (finish code s).params = s.params := rfl
@[simp] theorem finish_ctrl (code : ResultCode) (s : State) : (finish code s).ctrl = s.ctrl := rfl
@[simp] theorem finish_done (code : ResultCode) (s : State) : (finish code s).done = true := rfl
@[simp] theorem finish_ovr (code : ResultCode) (s : State) : (finish code s).ovr = s.ovr := rfl
@[simp] theorem finish_accerr (code : ResultCode) (s : State) : (finish code s).accerr = s.accerr := rfl
@[simp] theorem finish_result (code : ResultCode) (s : State) : (finish code s).result = code := rfl
@[simp] theorem finish_srcLen (code : ResultCode) (s : State) : (finish code s).srcLen = s.srcLen := rfl
@[simp] theorem finish_bitLen (code : ResultCode) (s : State) : (finish code s).bitLen = s.bitLen := rfl
@[simp] theorem finish_bitCursor (code : ResultCode) (s : State) : (finish code s).bitCursor = s.bitCursor := rfl
@[simp] theorem finish_canonN (code : ResultCode) (s : State) : (finish code s).canonN = s.canonN := rfl
@[simp] theorem finish_dstLen (code : ResultCode) (s : State) : (finish code s).dstLen = s.dstLen := rfl
@[simp] theorem finish_numSyms (code : ResultCode) (s : State) : (finish code s).numSyms = s.numSyms := rfl
@[simp] theorem finish_nodeCount (code : ResultCode) (s : State) : (finish code s).nodeCount = s.nodeCount := rfl
@[simp] theorem finish_treeRoot (code : ResultCode) (s : State) : (finish code s).treeRoot = s.treeRoot := rfl
@[simp] theorem finish_codeCount (code : ResultCode) (s : State) : (finish code s).codeCount = s.codeCount := rfl
@[simp] theorem finish_dtRoot (code : ResultCode) (s : State) : (finish code s).dtRoot = s.dtRoot := rfl
@[simp] theorem finish_dtNodes (code : ResultCode) (s : State) : (finish code s).dtNodes = s.dtNodes := rfl
@[simp] theorem finish_decBitpos (code : ResultCode) (s : State) : (finish code s).decBitpos = s.decBitpos := rfl
@[simp] theorem finish_errInfo (code : ResultCode) (s : State) : (finish code s).errInfo = s.errInfo := rfl
@[simp] theorem finish_freq (code : ResultCode) (s : State) : (finish code s).freq = s.freq := rfl
@[simp] theorem finish_list (code : ResultCode) (s : State) : (finish code s).list = s.list := rfl
@[simp] theorem finish_node (code : ResultCode) (s : State) : (finish code s).node = s.node := rfl
@[simp] theorem finish_code (code : ResultCode) (s : State) : (finish code s).code = s.code := rfl
@[simp] theorem finish_dt (code : ResultCode) (s : State) : (finish code s).dt = s.dt := rfl
@[simp] theorem finish_mem (code : ResultCode) (s : State) : (finish code s).mem = s.mem := rfl
@[simp] theorem finish_engine (code : ResultCode) (s : State) : (finish code s).engine = .idle := rfl
@[simp] theorem finish_resetLine (code : ResultCode) (s : State) : (finish code s).resetLine = s.resetLine := rfl
@[simp] theorem finish_inputs (code : ResultCode) (s : State) : (finish code s).inputs = s.inputs := rfl
@[simp] theorem finish_delays (code : ResultCode) (s : State) : (finish code s).delays = s.delays := rfl
@[simp] theorem finish_response (code : ResultCode) (s : State) : (finish code s).response = s.response := rfl
@[simp] theorem finish_tick (code : ResultCode) (s : State) : (finish code s).tick = s.tick + 1 := rfl

/-! ## raise -/

@[simp] theorem raise_params (code : ResultCode) (info : Word) (s : State) : (raise code info s).params = s.params := rfl
@[simp] theorem raise_ctrl (code : ResultCode) (info : Word) (s : State) : (raise code info s).ctrl = s.ctrl := rfl
@[simp] theorem raise_done (code : ResultCode) (info : Word) (s : State) : (raise code info s).done = true := rfl
@[simp] theorem raise_ovr (code : ResultCode) (info : Word) (s : State) : (raise code info s).ovr = s.ovr := rfl
@[simp] theorem raise_accerr (code : ResultCode) (info : Word) (s : State) : (raise code info s).accerr = s.accerr := rfl
@[simp] theorem raise_result (code : ResultCode) (info : Word) (s : State) : (raise code info s).result = code := rfl
@[simp] theorem raise_srcLen (code : ResultCode) (info : Word) (s : State) : (raise code info s).srcLen = s.srcLen := rfl
@[simp] theorem raise_bitLen (code : ResultCode) (info : Word) (s : State) : (raise code info s).bitLen = s.bitLen := rfl
@[simp] theorem raise_bitCursor (code : ResultCode) (info : Word) (s : State) : (raise code info s).bitCursor = s.bitCursor := rfl
@[simp] theorem raise_canonN (code : ResultCode) (info : Word) (s : State) : (raise code info s).canonN = s.canonN := rfl
@[simp] theorem raise_dstLen (code : ResultCode) (info : Word) (s : State) : (raise code info s).dstLen = s.dstLen := rfl
@[simp] theorem raise_numSyms (code : ResultCode) (info : Word) (s : State) : (raise code info s).numSyms = s.numSyms := rfl
@[simp] theorem raise_nodeCount (code : ResultCode) (info : Word) (s : State) : (raise code info s).nodeCount = s.nodeCount := rfl
@[simp] theorem raise_treeRoot (code : ResultCode) (info : Word) (s : State) : (raise code info s).treeRoot = s.treeRoot := rfl
@[simp] theorem raise_codeCount (code : ResultCode) (info : Word) (s : State) : (raise code info s).codeCount = s.codeCount := rfl
@[simp] theorem raise_dtRoot (code : ResultCode) (info : Word) (s : State) : (raise code info s).dtRoot = s.dtRoot := rfl
@[simp] theorem raise_dtNodes (code : ResultCode) (info : Word) (s : State) : (raise code info s).dtNodes = s.dtNodes := rfl
@[simp] theorem raise_decBitpos (code : ResultCode) (info : Word) (s : State) : (raise code info s).decBitpos = s.decBitpos := rfl
@[simp] theorem raise_errInfo (code : ResultCode) (info : Word) (s : State) : (raise code info s).errInfo = info := rfl
@[simp] theorem raise_freq (code : ResultCode) (info : Word) (s : State) : (raise code info s).freq = s.freq := rfl
@[simp] theorem raise_list (code : ResultCode) (info : Word) (s : State) : (raise code info s).list = s.list := rfl
@[simp] theorem raise_node (code : ResultCode) (info : Word) (s : State) : (raise code info s).node = s.node := rfl
@[simp] theorem raise_code (code : ResultCode) (info : Word) (s : State) : (raise code info s).code = s.code := rfl
@[simp] theorem raise_dt (code : ResultCode) (info : Word) (s : State) : (raise code info s).dt = s.dt := rfl
@[simp] theorem raise_mem (code : ResultCode) (info : Word) (s : State) : (raise code info s).mem = s.mem := rfl
@[simp] theorem raise_engine (code : ResultCode) (info : Word) (s : State) : (raise code info s).engine = .idle := rfl
@[simp] theorem raise_resetLine (code : ResultCode) (info : Word) (s : State) : (raise code info s).resetLine = s.resetLine := rfl
@[simp] theorem raise_inputs (code : ResultCode) (info : Word) (s : State) : (raise code info s).inputs = s.inputs := rfl
@[simp] theorem raise_delays (code : ResultCode) (info : Word) (s : State) : (raise code info s).delays = s.delays := rfl
@[simp] theorem raise_response (code : ResultCode) (info : Word) (s : State) : (raise code info s).response = s.response := rfl
@[simp] theorem raise_tick (code : ResultCode) (info : Word) (s : State) : (raise code info s).tick = s.tick + 1 := rfl

/-! ## accept -/

@[simp] theorem accept_params (w : Word) (s : State) : (accept w s).params = s.params := rfl
@[simp] theorem accept_ctrl (w : Word) (s : State) : (accept w s).ctrl = s.ctrl := rfl
@[simp] theorem accept_done (w : Word) (s : State) : (accept w s).done = s.done := rfl
@[simp] theorem accept_ovr (w : Word) (s : State) : (accept w s).ovr = s.ovr := rfl
@[simp] theorem accept_accerr (w : Word) (s : State) : (accept w s).accerr = s.accerr := rfl
@[simp] theorem accept_result (w : Word) (s : State) : (accept w s).result = s.result := rfl
@[simp] theorem accept_srcLen (w : Word) (s : State) : (accept w s).srcLen = s.srcLen := rfl
@[simp] theorem accept_bitLen (w : Word) (s : State) : (accept w s).bitLen = s.bitLen := rfl
@[simp] theorem accept_bitCursor (w : Word) (s : State) : (accept w s).bitCursor = s.bitCursor := rfl
@[simp] theorem accept_canonN (w : Word) (s : State) : (accept w s).canonN = s.canonN := rfl
@[simp] theorem accept_dstLen (w : Word) (s : State) : (accept w s).dstLen = s.dstLen := rfl
@[simp] theorem accept_numSyms (w : Word) (s : State) : (accept w s).numSyms = s.numSyms := rfl
@[simp] theorem accept_nodeCount (w : Word) (s : State) : (accept w s).nodeCount = s.nodeCount := rfl
@[simp] theorem accept_treeRoot (w : Word) (s : State) : (accept w s).treeRoot = s.treeRoot := rfl
@[simp] theorem accept_codeCount (w : Word) (s : State) : (accept w s).codeCount = s.codeCount := rfl
@[simp] theorem accept_dtRoot (w : Word) (s : State) : (accept w s).dtRoot = s.dtRoot := rfl
@[simp] theorem accept_dtNodes (w : Word) (s : State) : (accept w s).dtNodes = s.dtNodes := rfl
@[simp] theorem accept_decBitpos (w : Word) (s : State) : (accept w s).decBitpos = s.decBitpos := rfl
@[simp] theorem accept_errInfo (w : Word) (s : State) : (accept w s).errInfo = 0#32 := rfl
@[simp] theorem accept_freq (w : Word) (s : State) : (accept w s).freq = s.freq := rfl
@[simp] theorem accept_list (w : Word) (s : State) : (accept w s).list = s.list := rfl
@[simp] theorem accept_node (w : Word) (s : State) : (accept w s).node = s.node := rfl
@[simp] theorem accept_code (w : Word) (s : State) : (accept w s).code = s.code := rfl
@[simp] theorem accept_dt (w : Word) (s : State) : (accept w s).dt = s.dt := rfl
@[simp] theorem accept_mem (w : Word) (s : State) : (accept w s).mem = s.mem := rfl
@[simp] theorem accept_engine (w : Word) (s : State) : (accept w s).engine = .busy w s.ctrl (s.latency w) := rfl
@[simp] theorem accept_resetLine (w : Word) (s : State) : (accept w s).resetLine = s.resetLine := rfl
@[simp] theorem accept_inputs (w : Word) (s : State) : (accept w s).inputs = s.inputs := rfl
@[simp] theorem accept_delays (w : Word) (s : State) : (accept w s).delays = s.delays.tail := rfl
@[simp] theorem accept_response (w : Word) (s : State) : (accept w s).response = s.response := rfl
@[simp] theorem accept_tick (w : Word) (s : State) : (accept w s).tick = s.tick := rfl

/-! ## acknowledge -/

@[simp] theorem acknowledge_params (v : Word) (s : State) : (acknowledge v s).params = s.params := rfl
@[simp] theorem acknowledge_ctrl (v : Word) (s : State) : (acknowledge v s).ctrl = s.ctrl := rfl
@[simp] theorem acknowledge_done (v : Word) (s : State) : (acknowledge v s).done = (s.done && !v.getLsbD 1) := rfl
@[simp] theorem acknowledge_ovr (v : Word) (s : State) : (acknowledge v s).ovr = (s.ovr && !v.getLsbD 2) := rfl
@[simp] theorem acknowledge_accerr (v : Word) (s : State) : (acknowledge v s).accerr = (s.accerr && !v.getLsbD 3) := rfl
@[simp] theorem acknowledge_result (v : Word) (s : State) : (acknowledge v s).result = s.result := rfl
@[simp] theorem acknowledge_srcLen (v : Word) (s : State) : (acknowledge v s).srcLen = s.srcLen := rfl
@[simp] theorem acknowledge_bitLen (v : Word) (s : State) : (acknowledge v s).bitLen = s.bitLen := rfl
@[simp] theorem acknowledge_bitCursor (v : Word) (s : State) : (acknowledge v s).bitCursor = s.bitCursor := rfl
@[simp] theorem acknowledge_canonN (v : Word) (s : State) : (acknowledge v s).canonN = s.canonN := rfl
@[simp] theorem acknowledge_dstLen (v : Word) (s : State) : (acknowledge v s).dstLen = s.dstLen := rfl
@[simp] theorem acknowledge_numSyms (v : Word) (s : State) : (acknowledge v s).numSyms = s.numSyms := rfl
@[simp] theorem acknowledge_nodeCount (v : Word) (s : State) : (acknowledge v s).nodeCount = s.nodeCount := rfl
@[simp] theorem acknowledge_treeRoot (v : Word) (s : State) : (acknowledge v s).treeRoot = s.treeRoot := rfl
@[simp] theorem acknowledge_codeCount (v : Word) (s : State) : (acknowledge v s).codeCount = s.codeCount := rfl
@[simp] theorem acknowledge_dtRoot (v : Word) (s : State) : (acknowledge v s).dtRoot = s.dtRoot := rfl
@[simp] theorem acknowledge_dtNodes (v : Word) (s : State) : (acknowledge v s).dtNodes = s.dtNodes := rfl
@[simp] theorem acknowledge_decBitpos (v : Word) (s : State) : (acknowledge v s).decBitpos = s.decBitpos := rfl
@[simp] theorem acknowledge_errInfo (v : Word) (s : State) : (acknowledge v s).errInfo = s.errInfo := rfl
@[simp] theorem acknowledge_freq (v : Word) (s : State) : (acknowledge v s).freq = s.freq := rfl
@[simp] theorem acknowledge_list (v : Word) (s : State) : (acknowledge v s).list = s.list := rfl
@[simp] theorem acknowledge_node (v : Word) (s : State) : (acknowledge v s).node = s.node := rfl
@[simp] theorem acknowledge_code (v : Word) (s : State) : (acknowledge v s).code = s.code := rfl
@[simp] theorem acknowledge_dt (v : Word) (s : State) : (acknowledge v s).dt = s.dt := rfl
@[simp] theorem acknowledge_mem (v : Word) (s : State) : (acknowledge v s).mem = s.mem := rfl
@[simp] theorem acknowledge_engine (v : Word) (s : State) : (acknowledge v s).engine = s.engine := rfl
@[simp] theorem acknowledge_resetLine (v : Word) (s : State) : (acknowledge v s).resetLine = s.resetLine := rfl
@[simp] theorem acknowledge_inputs (v : Word) (s : State) : (acknowledge v s).inputs = s.inputs := rfl
@[simp] theorem acknowledge_delays (v : Word) (s : State) : (acknowledge v s).delays = s.delays := rfl
@[simp] theorem acknowledge_response (v : Word) (s : State) : (acknowledge v s).response = s.response := rfl
@[simp] theorem acknowledge_tick (v : Word) (s : State) : (acknowledge v s).tick = s.tick := rfl

/-! ## withTraversal -/

@[simp] theorem withTraversal_params (s : State) (t : Traversal) : (s.withTraversal t).params = s.params := rfl
@[simp] theorem withTraversal_ctrl (s : State) (t : Traversal) : (s.withTraversal t).ctrl = s.ctrl := rfl
@[simp] theorem withTraversal_done (s : State) (t : Traversal) : (s.withTraversal t).done = s.done := rfl
@[simp] theorem withTraversal_ovr (s : State) (t : Traversal) : (s.withTraversal t).ovr = s.ovr := rfl
@[simp] theorem withTraversal_accerr (s : State) (t : Traversal) : (s.withTraversal t).accerr = s.accerr := rfl
@[simp] theorem withTraversal_result (s : State) (t : Traversal) : (s.withTraversal t).result = s.result := rfl
@[simp] theorem withTraversal_srcLen (s : State) (t : Traversal) : (s.withTraversal t).srcLen = s.srcLen := rfl
@[simp] theorem withTraversal_bitLen (s : State) (t : Traversal) : (s.withTraversal t).bitLen = s.bitLen := rfl
@[simp] theorem withTraversal_bitCursor (s : State) (t : Traversal) : (s.withTraversal t).bitCursor = s.bitCursor := rfl
@[simp] theorem withTraversal_canonN (s : State) (t : Traversal) : (s.withTraversal t).canonN = s.canonN := rfl
@[simp] theorem withTraversal_dstLen (s : State) (t : Traversal) : (s.withTraversal t).dstLen = BitVec.ofNat 32 t.out := rfl
@[simp] theorem withTraversal_numSyms (s : State) (t : Traversal) : (s.withTraversal t).numSyms = s.numSyms := rfl
@[simp] theorem withTraversal_nodeCount (s : State) (t : Traversal) : (s.withTraversal t).nodeCount = s.nodeCount := rfl
@[simp] theorem withTraversal_treeRoot (s : State) (t : Traversal) : (s.withTraversal t).treeRoot = s.treeRoot := rfl
@[simp] theorem withTraversal_codeCount (s : State) (t : Traversal) : (s.withTraversal t).codeCount = s.codeCount := rfl
@[simp] theorem withTraversal_dtRoot (s : State) (t : Traversal) : (s.withTraversal t).dtRoot = s.dtRoot := rfl
@[simp] theorem withTraversal_dtNodes (s : State) (t : Traversal) : (s.withTraversal t).dtNodes = s.dtNodes := rfl
@[simp] theorem withTraversal_decBitpos (s : State) (t : Traversal) : (s.withTraversal t).decBitpos = BitVec.ofNat 32 t.last := rfl
@[simp] theorem withTraversal_errInfo (s : State) (t : Traversal) : (s.withTraversal t).errInfo = s.errInfo := rfl
@[simp] theorem withTraversal_freq (s : State) (t : Traversal) : (s.withTraversal t).freq = s.freq := rfl
@[simp] theorem withTraversal_list (s : State) (t : Traversal) : (s.withTraversal t).list = s.list := rfl
@[simp] theorem withTraversal_node (s : State) (t : Traversal) : (s.withTraversal t).node = s.node := rfl
@[simp] theorem withTraversal_code (s : State) (t : Traversal) : (s.withTraversal t).code = s.code := rfl
@[simp] theorem withTraversal_dt (s : State) (t : Traversal) : (s.withTraversal t).dt = s.dt := rfl
@[simp] theorem withTraversal_mem (s : State) (t : Traversal) : (s.withTraversal t).mem = { s.mem with dst := t.dst } := rfl
@[simp] theorem withTraversal_engine (s : State) (t : Traversal) : (s.withTraversal t).engine = s.engine := rfl
@[simp] theorem withTraversal_resetLine (s : State) (t : Traversal) : (s.withTraversal t).resetLine = s.resetLine := rfl
@[simp] theorem withTraversal_inputs (s : State) (t : Traversal) : (s.withTraversal t).inputs = s.inputs := rfl
@[simp] theorem withTraversal_delays (s : State) (t : Traversal) : (s.withTraversal t).delays = s.delays := rfl
@[simp] theorem withTraversal_response (s : State) (t : Traversal) : (s.withTraversal t).response = s.response := rfl
@[simp] theorem withTraversal_tick (s : State) (t : Traversal) : (s.withTraversal t).tick = s.tick := rfl

/-! ## withFetchWord -/

@[simp] theorem withFetchWord_params (s : State) (n w : Nat) : (s.withFetchWord n w).params = s.params := rfl
@[simp] theorem withFetchWord_ctrl (s : State) (n w : Nat) : (s.withFetchWord n w).ctrl = s.ctrl := rfl
@[simp] theorem withFetchWord_done (s : State) (n w : Nat) : (s.withFetchWord n w).done = s.done := rfl
@[simp] theorem withFetchWord_ovr (s : State) (n w : Nat) : (s.withFetchWord n w).ovr = s.ovr := rfl
@[simp] theorem withFetchWord_accerr (s : State) (n w : Nat) : (s.withFetchWord n w).accerr = s.accerr := rfl
@[simp] theorem withFetchWord_result (s : State) (n w : Nat) : (s.withFetchWord n w).result = s.result := rfl
@[simp] theorem withFetchWord_srcLen (s : State) (n w : Nat) : (s.withFetchWord n w).srcLen = s.srcLen := rfl
@[simp] theorem withFetchWord_bitLen (s : State) (n w : Nat) : (s.withFetchWord n w).bitLen = s.bitLen := rfl
@[simp] theorem withFetchWord_bitCursor (s : State) (n w : Nat) : (s.withFetchWord n w).bitCursor = s.bitCursor := rfl
@[simp] theorem withFetchWord_canonN (s : State) (n w : Nat) : (s.withFetchWord n w).canonN = s.canonN := rfl
@[simp] theorem withFetchWord_dstLen (s : State) (n w : Nat) : (s.withFetchWord n w).dstLen = s.dstLen := rfl
@[simp] theorem withFetchWord_numSyms (s : State) (n w : Nat) : (s.withFetchWord n w).numSyms = s.numSyms := rfl
@[simp] theorem withFetchWord_nodeCount (s : State) (n w : Nat) : (s.withFetchWord n w).nodeCount = s.nodeCount := rfl
@[simp] theorem withFetchWord_treeRoot (s : State) (n w : Nat) : (s.withFetchWord n w).treeRoot = s.treeRoot := rfl
@[simp] theorem withFetchWord_codeCount (s : State) (n w : Nat) : (s.withFetchWord n w).codeCount = s.codeCount := rfl
@[simp] theorem withFetchWord_dtRoot (s : State) (n w : Nat) : (s.withFetchWord n w).dtRoot = s.dtRoot := rfl
@[simp] theorem withFetchWord_dtNodes (s : State) (n w : Nat) : (s.withFetchWord n w).dtNodes = s.dtNodes := rfl
@[simp] theorem withFetchWord_decBitpos (s : State) (n w : Nat) : (s.withFetchWord n w).decBitpos = s.decBitpos := rfl
@[simp] theorem withFetchWord_errInfo (s : State) (n w : Nat) : (s.withFetchWord n w).errInfo = 0#32 := rfl
@[simp] theorem withFetchWord_freq (s : State) (n w : Nat) : (s.withFetchWord n w).freq = s.freq := rfl
@[simp] theorem withFetchWord_list (s : State) (n w : Nat) : (s.withFetchWord n w).list = s.list := rfl
@[simp] theorem withFetchWord_node (s : State) (n w : Nat) : (s.withFetchWord n w).node = s.node := rfl
@[simp] theorem withFetchWord_code (s : State) (n w : Nat) : (s.withFetchWord n w).code = s.code := rfl
@[simp] theorem withFetchWord_dt (s : State) (n w : Nat) : (s.withFetchWord n w).dt = s.dt := rfl
@[simp] theorem withFetchWord_mem (s : State) (n w : Nat) : (s.withFetchWord n w).mem = s.mem := rfl
@[simp] theorem withFetchWord_engine (s : State) (n w : Nat) : (s.withFetchWord n w).engine = .busy (BitVec.ofNat 32 w) s.ctrl 0 := rfl
@[simp] theorem withFetchWord_resetLine (s : State) (n w : Nat) : (s.withFetchWord n w).resetLine = s.resetLine := rfl
@[simp] theorem withFetchWord_inputs (s : State) (n w : Nat) : (s.withFetchWord n w).inputs = s.inputs := rfl
@[simp] theorem withFetchWord_delays (s : State) (n w : Nat) : (s.withFetchWord n w).delays = s.delays := rfl
@[simp] theorem withFetchWord_response (s : State) (n w : Nat) : (s.withFetchWord n w).response = s.response := rfl
@[simp] theorem withFetchWord_tick (s : State) (n w : Nat) : (s.withFetchWord n w).tick = s.tick := rfl

/-! ## Derived views -/

@[simp] theorem finish_busy (code : ResultCode) (s : State) : (finish code s).busy = false := rfl
@[simp] theorem raise_busy (code : ResultCode) (info : Word) (s : State) : (raise code info s).busy = false := rfl
@[simp] theorem accept_busy (w : Word) (s : State) : (accept w s).busy = true := rfl
@[simp] theorem finish_sampledCtrl (code : ResultCode) (s : State) : (finish code s).sampledCtrl = s.ctrl := rfl
@[simp] theorem accept_sampledCtrl (w : Word) (s : State) : (accept w s).sampledCtrl = s.ctrl := rfl
@[simp] theorem complete_finished (code : ResultCode) (s : State) : (Ended.finished code s).complete = finish code s := rfl
@[simp] theorem complete_raised (code : ResultCode) (info : Word) (s : State) :
    (Ended.raised code info s).complete = raise code info s := rfl
@[simp] theorem andThen_finished (code : ResultCode) (s : State) (f : State → Ended) :
    (Ended.finished code s).andThen f = f s := rfl
@[simp] theorem andThen_raised (code : ResultCode) (info : Word) (s : State) (f : State → Ended) :
    (Ended.raised code info s).andThen f = .raised code info s := rfl

/-- BUSY is exactly the engine's phase (R51). -/
theorem busy_iff (s : State) : s.busy = true ↔ ∃ w c d, s.engine = .busy w c d := by
  unfold State.busy
  cases s.engine <;> simp

theorem not_busy_iff (s : State) : s.busy = false ↔ s.engine = .idle := by
  unfold State.busy
  cases s.engine <;> simp

/-- What reset leaves besides the spec's state (R250). -/
theorem resetEvent_eq (s : State) :
    resetEvent s = { State.reset with
      params := s.params, inputs := s.inputs, delays := s.delays, tick := s.tick + 1, resetLine := true } := rfl

end Sys2Proof.Machine
end

