-- ==== Sys2Proof/Laws/Window.lean ====
section
/-! SUPPORT. The window's map region by region, and what a host access or an input can do, each said once. -/

namespace Sys2Proof.Machine

/-! ## The map (R61) -/

theorem target_register (p : Params) {off : Nat} (h : off < 0x0001000) : target p off = registerTarget off := by
  unfold target; rw [if_pos h]

theorem registerTarget_offset (r : Reg) : registerTarget r.offset = .reg r := by cases r <;> decide

@[simp] theorem target_offset (p : Params) (r : Reg) : target p r.offset = .reg r := by
  rw [target_register p (by cases r <;> decide), registerTarget_offset]

theorem target_register_unnamed (p : Params) {off : Nat} (h : 0x054 ≤ off) (h' : off < 0x0001000) :
    target p off = .unnamed := by
  rw [target_register p h']
  have hn : Reg.all.find? (fun r => r.offset == off) = none := by
    rw [List.find?_eq_none]
    intro r _
    have : r.offset ≤ 0x050 := by cases r <;> decide
    simp; omega
  simp [registerTarget, hn]

/-- A property that each side of a branch has, the branch has. -/
theorem ite_elim {α : Type} {P : α → Prop} {c : Prop} [Decidable c] {a b : α} (ha : c → P a) (hb : ¬ c → P b) :
    P (if c then a else b) := by
  by_cases h : c
  · rw [if_pos h]; exact ha h
  · rw [if_neg h]; exact hb h

theorem target_canon (p : Params) {off : Nat} (h : 0x0001800 ≤ off) (h' : off < 0x0001C00) :
    target p off = .canon (off % 0x400 / 4) := by
  unfold target
  repeat rw [if_neg (by omega)]
  rw [if_pos h']

theorem target_freq (p : Params) {off : Nat} (h : 0x0001000 ≤ off) (h' : off < 0x0001400) :
    target p off = .freq (BitVec.ofNat 8 (off % 0x400 / 4)) := by
  unfold target
  repeat rw [if_neg (by omega)]
  rw [if_pos h']

theorem target_list (p : Params) {off : Nat} (h : 0x0001400 ≤ off) (h' : off < 0x0001800) :
    target p off = .list (off % 0x400 / 4) := by
  unfold target
  repeat rw [if_neg (by omega)]
  rw [if_pos h']

theorem target_node (p : Params) {off : Nat} (h : 0x0002000 ≤ off) (h' : off < 0x0002FF8) :
    target p off = .node (off % 0x1000 / 8) (off % 8 == 4) := by
  unfold target
  repeat rw [if_neg (by omega)]
  rw [if_pos h']

theorem target_code (p : Params) {off : Nat} (h : 0x0004000 ≤ off) (h' : off < 0x0008000) :
    target p off = .code (BitVec.ofNat 8 (off % 0x4000 / 64)) (off % 64 / 4) := by
  unfold target
  repeat rw [if_neg (by omega)]
  rw [if_pos h']

theorem target_dt (p : Params) {off : Nat} (h : 0x0100000 ≤ off) (h' : off < 0x0180000) :
    target p off = .dt (off % 0x80000 / 8) (off % 8 == 4) := by
  unfold target
  repeat rw [if_neg (by omega)]
  rw [if_pos h']

theorem target_src (p : Params) {off : Nat} (h : 0x0200000 ≤ off) (h' : off < 0x0300000)
    (hp : off % 0x100000 < p.srcBytes) : target p off = .src (off % 0x100000) := by
  unfold target
  repeat rw [if_neg (by omega)]
  rw [if_pos h', if_pos hp]

theorem target_dst (p : Params) {off : Nat} (h : 0x0300000 ≤ off) (h' : off < 0x0400000)
    (hp : off % 0x100000 < p.dstBytes) : target p off = .dst (off % 0x100000) := by
  unfold target
  repeat rw [if_neg (by omega)]
  rw [if_pos h', if_pos hp]

theorem target_bitbuf (p : Params) {off : Nat} (h : 0x1000000 ≤ off) (h' : off < 0x2000000)
    (hp : 8 * (off % 0x1000000) < p.bitbufBits) : target p off = .bitbuf (8 * (off % 0x1000000)) := by
  unfold target
  repeat rw [if_neg (by omega)]
  rw [if_pos h', if_pos hp]

/-- The reserved ranges of the map above the register block, and the ends of SRC, DST and BITBUF that name no entry. -/
theorem target_unnamed (p : Params) {off : Nat}
    (h : (0x0001C00 ≤ off ∧ off < 0x0002000) ∨ (0x0002FF8 ≤ off ∧ off < 0x0004000) ∨
      (0x0008000 ≤ off ∧ off < 0x0100000) ∨ (0x0180000 ≤ off ∧ off < 0x0200000) ∨
      (0x0200000 ≤ off ∧ off < 0x0300000 ∧ p.srcBytes ≤ off % 0x100000) ∨
      (0x0300000 ≤ off ∧ off < 0x0400000 ∧ p.dstBytes ≤ off % 0x100000) ∨
      (0x0400000 ≤ off ∧ off < 0x1000000) ∨
      (0x1000000 ≤ off ∧ p.bitbufBits ≤ 8 * (off % 0x1000000)) ∨ 0x2000000 ≤ off) :
    target p off = .unnamed := by
  unfold target
  repeat' refine ite_elim (P := (· = Target.unnamed)) (fun _ => ?_) fun _ => ?_
  all_goals first | rfl | omega

/-- Where an offset lies that names a target, and which entry it then is: for a register its own offset, for a memory word a
place within the capacity. -/
def Target.At (p : Params) (off : Nat) : Target → Prop
  | .reg r => off = r.offset
  | .freq _ => 0x0001000 ≤ off ∧ off < 0x0001400
  | .list i => 0x0001400 ≤ off ∧ off < 0x0001800 ∧ i < 256
  | .canon i => 0x0001800 ≤ off ∧ off < 0x0001C00 ∧ i < 256
  | .node i _ => 0x0002000 ≤ off ∧ off < 0x0002FF8 ∧ i < 511
  | .code _ k => 0x0004000 ≤ off ∧ off < 0x0008000 ∧ k < 16
  | .dt i _ => 0x0100000 ≤ off ∧ off < 0x0180000 ∧ i < 65536
  | .src i => 0x0200000 ≤ off ∧ off < 0x0300000 ∧ i = off % 0x100000 ∧ i < p.srcBytes
  | .dst i => 0x0300000 ≤ off ∧ off < 0x0400000 ∧ i = off % 0x100000 ∧ i < p.dstBytes
  | .bitbuf i => 0x1000000 ≤ off ∧ off < 0x2000000 ∧ i = 8 * (off % 0x1000000) ∧ i < p.bitbufBits
  | .unnamed => True

/-- Everything the map can name at an offset (R61). -/
theorem target_at (p : Params) (off : Nat) : (target p off).At p off := by
  unfold target
  refine ite_elim (fun _ => ?_) fun _ => ?_
  · unfold registerTarget
    split
    · next r h => have hr := List.find?_some h; exact (eq_of_beq hr).symm
    · trivial
  repeat' refine ite_elim (P := Target.At p off) (fun _ => ?_) fun _ => ?_
  all_goals first | trivial | (simp only [Target.At, true_and]; omega)

/-- A CANON index named by the map is below 256. -/
theorem target_canon_bound (p : Params) {off i : Nat} (h : target p off = .canon i) : i < 256 := by
  have := target_at p off
  rw [h] at this
  exact this.2.2

/-- A SRC target starts at a byte below the capacity. -/
theorem target_src_bound (p : Params) {off i : Nat} (h : target p off = .src i) :
    i < p.srcBytes ∧ i = off % 0x100000 := by
  have := target_at p off
  rw [h] at this
  exact this.2.2.symm

/-- A BITBUF target starts at a bit below the capacity. -/
theorem target_bitbuf_bound (p : Params) {off i : Nat} (h : target p off = .bitbuf i) :
    i < p.bitbufBits ∧ i = 8 * (off % 0x1000000) := by
  have := target_at p off
  rw [h] at this
  exact this.2.2.symm

/-! ## Accesses -/

/-- What a supported read does: it answers, and nothing else but the model's tick changes (R69). -/
theorem hostAccess_read (s : State) {w : Width} {addr off : Nat} (h : supported w off = true) :
    hostAccess (.read w addr) off s = { s with response := some (s.hostRead off), tick := s.tick + 1 } := by
  simp [hostAccess, h]

theorem hostAccess_write (s : State) {w : Width} {addr off : Nat} (v : Word) (h : supported w off = true) :
    hostAccess (.write w addr v) off s = { hostWrite off v s with response := none } := by
  simp [hostAccess, h]

theorem supported_word {off : Nat} (h : off % 4 = 0) : supported .word off = true := by simp [supported, h]

theorem hostRead_idle (s : State) (off : Nat) (h : s.busy = false) :
    s.hostRead off = (s.readTarget (target s.params off)).getD (Config.freeWord s.tick off) := by
  simp [State.hostRead, h]

theorem hostRead_exact (s : State) (off : Nat) (h : (target s.params off).isOutput = false) :
    s.hostRead off = (s.readTarget (target s.params off)).getD (Config.freeWord s.tick off) := by
  simp [State.hostRead, h]

/-- A read that BUSY makes unspecified is free in the target's open bits and 0 in the others (R23, R70). -/
theorem hostRead_unspecified (s : State) (off : Nat) (h : s.busy = true) (ht : (target s.params off).isOutput = true) :
    s.hostRead off = Config.freeWord s.tick off &&& (target s.params off).openBits := by
  simp [State.hostRead, h, ht]

/-- A narrow value has no bit above its width. -/
theorem setWidth_and_above {n : Nat} (x : BitVec n) {m : Word} (h : ∀ i, i < n → m.getLsbD i = false) :
    x.setWidth 32 &&& m = 0#32 := by
  apply BitVec.eq_of_getLsbD_eq
  intro i hi
  rw [BitVec.getLsbD_and, BitVec.getLsbD_setWidth, BitVec.getLsbD_zero]
  by_cases hn : i < n
  · rw [h i hn, Bool.and_false]
  · rw [BitVec.getLsbD_of_ge x i (by omega)]; simp

/-- In every register the bits its rule does not name read as 0 (R23, U11). -/
theorem readReg_unnamed (s : State) (r : Reg) : s.readReg r &&& ~~~r.namedBits = 0#32 := by
  have full : ∀ w : Word, w &&& ~~~0xFFFFFFFF#32 = 0#32 := fun w => by
    rw [show (~~~0xFFFFFFFF#32 : Word) = 0#32 by decide, BitVec.and_zero]
  cases r with
  | ctrl =>
    simp only [State.readReg, Ctrl.toWord, Reg.namedBits, bitAt]
    cases s.ctrl.irqEn <;> cases s.ctrl.singleOnebit <;> decide
  | status =>
    simp only [State.readReg, State.statusWord, Reg.namedBits, bitAt]
    cases s.busy <;> cases s.done <;> cases s.ovr <;> cases s.accerr <;> cases s.result <;> decide
  | numSyms => exact setWidth_and_above _ (by decide)
  | nodeCount => exact setWidth_and_above _ (by decide)
  | codeCount => exact setWidth_and_above _ (by decide)
  | dtNodes => exact setWidth_and_above _ (by decide)
  | treeRoot =>
    simp only [State.readReg]
    cases s.treeRoot with
    | none => decide
    | some i =>
      simp only [treeRootWord, Reg.namedBits, BitVec.and_or_distrib_right]
      rw [setWidth_and_above i (by decide)]
      decide
  | dtRoot =>
    simp only [State.readReg]
    cases s.dtRoot with
    | absent => decide
    | branch i =>
      simp only [Desc.toWord, Reg.namedBits, BitVec.and_or_distrib_right]
      rw [setWidth_and_above _ (by decide)]
      decide
    | leaf x =>
      simp only [Desc.toWord, Reg.namedBits, BitVec.and_or_distrib_right]
      rw [setWidth_and_above x (by decide)]
      decide
  | id => exact full _
  | cmd => exact full _
  | srcLen => exact full _
  | bitLen => exact full _
  | bitCursor => exact full _
  | canonN => exact full _
  | dstLen => exact full _
  | decBitpos => exact full _
  | errInfo => exact full _
  | cfgSrcBytes => exact full _
  | cfgDstBytes => exact full _
  | cfgBitbufBits => exact full _
  | cfgCanonLmax => exact full _

theorem hostWrite_dropped (s : State) (off : Nat) (v : Word) (h : s.busy = true)
    (ht : (target s.params off).isInput = true) : hostWrite off v s = { s with ovr := true } := by
  simp [hostWrite, h, ht]

theorem hostWrite_performed (s : State) (off : Nat) (v : Word)
    (h : s.busy = false ∨ (target s.params off).isInput = false) :
    hostWrite off v s = writeTarget v s (target s.params off) := by
  unfold hostWrite
  rcases h with h | h <;> simp [h]

/-- A write to a target that is no command input changes at most CTRL and the flags (R64, R70). -/
theorem writeTarget_notInput (v : Word) (s : State) (t : Target) (h : t.isInput = false) :
    writeTarget v s t = s ∨ writeTarget v s t = { s with ctrl := Ctrl.ofWord v } ∨
      writeTarget v s t = acknowledge v s := by
  cases t with
  | reg r => cases r <;> simp_all [Target.isInput, writeTarget, writeReg]
  | _ => simp_all [Target.isInput, writeTarget]

/-- Everything a write to a target can do (R64). -/
theorem writeTarget_cases (v : Word) (s : State) (t : Target) :
    writeTarget v s t = s ∨ writeTarget v s t = { s with ctrl := Ctrl.ofWord v } ∨
      writeTarget v s t = acknowledge v s ∨ (t = .reg .cmd ∧ writeTarget v s t = accept v s) ∨
      writeTarget v s t = { s with srcLen := v } ∨ writeTarget v s t = { s with bitLen := v } ∨
      writeTarget v s t = { s with bitCursor := v } ∨ writeTarget v s t = { s with canonN := v } ∨
      (∃ i, t = .canon i ∧
        writeTarget v s t = { s with mem := { s.mem with canon := cellWrite s.mem.canon i v } }) ∨
      (∃ i, t = .src i ∧
        writeTarget v s t = { s with mem := { s.mem with src := cellsWrite s.mem.src i (bytesOfWord v) } }) ∨
      (∃ i, t = .bitbuf i ∧
        writeTarget v s t = { s with mem := { s.mem with bitbuf := cellsWrite s.mem.bitbuf i (bitsOfWord v) } }) := by
  cases t with
  | reg r => cases r <;> simp [writeTarget, writeReg]
  | _ => simp [writeTarget]

/-- Everything an aligned word write at an offset can do: it is dropped (while BUSY), or performed as the map says (R70). -/
theorem hostWrite_cases (off : Nat) (v : Word) (s : State) :
    (s.busy = true ∧ (target s.params off).isInput = true ∧ hostWrite off v s = { s with ovr := true }) ∨
      ((s.busy = false ∨ (target s.params off).isInput = false) ∧
        hostWrite off v s = writeTarget v s (target s.params off)) := by
  by_cases hb : s.busy = true
  · by_cases ht : (target s.params off).isInput = true
    · exact .inl ⟨hb, ht, hostWrite_dropped s off v hb ht⟩
    · have ht' : (target s.params off).isInput = false := by simpa using ht
      exact .inr ⟨.inr ht', hostWrite_performed s off v (.inr ht')⟩
  · have hb' : s.busy = false := by simpa using hb
    exact .inr ⟨.inl hb', hostWrite_performed s off v (.inl hb')⟩

/-- Everything a host access can do: a flag (R62), a read that changes nothing else (R69), or an aligned word write. -/
theorem hostAccess_cases (a : Access) (off : Nat) (s : State) :
    (∃ r, hostAccess a off s = { s with accerr := true, response := r }) ∨
      (∃ r, hostAccess a off s = { s with response := r, tick := s.tick + 1 }) ∨
      (∃ v, off % 4 = 0 ∧ hostAccess a off s = { hostWrite off v s with response := none }) := by
  cases a with
  | read w ad =>
    by_cases h : supported w off = true
    · exact .inr (.inl ⟨_, hostAccess_read s h⟩)
    · exact .inl ⟨_, by simp [hostAccess, h]; rfl⟩
  | write w ad v =>
    by_cases h : supported w off = true
    · refine .inr (.inr ⟨v, ?_, hostAccess_write s v h⟩)
      simp [supported] at h; exact h.2
    · exact .inl ⟨_, by simp [hostAccess, h]; rfl⟩

theorem windowOffset_eq_some {p : Params} {a off : Nat} :
    windowOffset p a = some off ↔ off < Config.windowBytes ∧ a = p.base + off := by
  unfold windowOffset
  by_cases h : p.base ≤ a ∧ a < p.base + Config.windowBytes
  · rw [if_pos h, Option.some.injEq]; omega
  · rw [if_neg h]
    exact ⟨fun e => (nomatch e), fun e => absurd ⟨by omega, by omega⟩ h⟩

/-- An access that reaches the window while reset is released is performed. -/
theorem takeInput_access {s : State} {a : Access} {off : Nat} (hr : s.resetLine = false)
    (ho : windowOffset s.params a.addr = some off) : takeInput (.access a) s = .next (hostAccess a off s) := by
  simp only [takeInput]
  rw [hr, ho]
  rfl

/-- Everything an input that answers a next state can be: a reset move, or an access at an offset while reset is released. -/
theorem takeInput_cases {i : Input} {s t : State} (h : takeInput i s = .next t) :
    (i = .reset true ∧ t = resetEvent s) ∨ (i = .reset false ∧ t = { s with resetLine := false }) ∨
      (∃ a off, i = .access a ∧ s.resetLine = false ∧ windowOffset s.params a.addr = some off ∧
        t = hostAccess a off s) := by
  cases i with
  | reset b => cases b <;> simp [takeInput] at h <;> simp [h]
  | access a =>
    simp only [takeInput] at h
    split at h
    · cases h
    · next hr =>
      split at h
      · cases h
      · next off ho =>
        cases h
        exact .inr (.inr ⟨a, off, rfl, by simpa using hr, ho, rfl⟩)

end Sys2Proof.Machine
end

