-- ==== Sys2Proof/Laws/Engine.lean ====
section
/-! SUPPORT. The decoder's cases, and everything a step can do, said once. -/

namespace Sys2Proof.Machine

/-! ## Decoding -/

theorem decode_encode (i : Instr) : decode (encode i) = .command i := by cases i <;> decide

/-- A word is a command's own word, or it is illegal (R92). -/
theorem decode_cases (w : Word) :
    (∃ i, w = encode i ∧ decode w = .command i) ∨ ((∀ i, w ≠ encode i) ∧ decode w = .illegalCmd w) := by
  by_cases h : ∃ i, w = encode i
  · obtain ⟨i, rfl⟩ := h
    exact .inl ⟨i, rfl, decode_encode i⟩
  · refine .inr ⟨fun i hi => h ⟨i, hi⟩, ?_⟩
    have hm : ∀ v : Word, v &&& 0xFFFFFFFF#32 = v := fun v => by
      rw [show (0xFFFFFFFF#32) = BitVec.allOnes 32 by decide, BitVec.and_allOnes]
    have hn : opcodeTable.find? (fun r => r.selects w) = none := by
      rw [List.find?_eq_none]
      intro r hr hs
      have hr' : ∃ i, r.mask = 0xFFFFFFFF#32 ∧ r.value = encode i := by
        simp only [opcodeTable, List.mem_cons, List.not_mem_nil, or_false] at hr
        rcases hr with rfl | rfl | rfl | rfl | rfl | rfl | rfl | rfl | rfl | rfl
        exacts [⟨.nop, rfl, by decide⟩, ⟨.clear, rfl, by decide⟩, ⟨.count, rfl, by decide⟩, ⟨.build, rfl, by decide⟩,
          ⟨.derive, rfl, by decide⟩, ⟨.materialize, rfl, by decide⟩, ⟨.serialize, rfl, by decide⟩,
          ⟨.encode, rfl, by decide⟩, ⟨.canon, rfl, by decide⟩, ⟨.decode, rfl, by decide⟩]
      obtain ⟨i, h1, h2⟩ := hr'
      simp only [OpRow.selects, h1, h2, hm, beq_iff_eq] at hs
      exact h ⟨i, hs⟩
    simp [decode, hn]

/-! ## Running a word -/

/-- The body of a command: its pseudocode up to the completion step. -/
def bodyOf : Instr → State → Ended
  | .nop => fun s => .finished .ok s
  | .clear => clearBody
  | .count => countBody
  | .build => buildBody
  | .derive => deriveBody
  | .materialize => materializeBody
  | .serialize => serializeBody
  | .encode => encodeBody
  | .canon => canonBody
  | .decode => decodeBody

/-- Every command is its body and then the completion step (R221). -/
theorem exec_eq (i : Instr) (s : State) : exec i s = .next (bodyOf i s).complete := by cases i <;> rfl

theorem exec_next {i : Instr} {s t : State} (h : exec i s = .next t) : t = (bodyOf i s).complete := by
  rw [exec_eq] at h; cases h; rfl

/-- What an accepted word does when it is due: an illegal word's completion, or its command (R92). -/
theorem runCommand_cases (w : Word) (s : State) :
    runCommand w s = .next (raise .illegalCmd w s) ∨ ∃ i, w = encode i ∧ runCommand w s = exec i s := by
  rcases decode_cases w with ⟨i, h, h'⟩ | ⟨-, h'⟩
  · exact .inr ⟨i, h, by simp [runCommand, h']⟩
  · exact .inl (by simp [runCommand, h', illegalCommand])

theorem step_due {s : State} {w : Word} {c : Ctrl} {d : Nat} (h : s.engine = .busy w c d) (hd : d = 0 ∨ s.inputs = []) :
    step s = runCommand w s := by
  unfold step; rw [h]
  rcases hd with rfl | hd
  · cases s.inputs <;> rfl
  · rw [hd]; cases d <;> rfl

/-- An IDLE machine takes its next input. -/
theorem step_idle {s : State} {i : Input} {rest : List Input} (h : s.engine = .idle) (hi : s.inputs = i :: rest) :
    step s = takeInput i { s with inputs := rest } := by
  unfold step; rw [h, hi]

/-- Everything a step can do: nothing (IDLE, no input), the running command whole, or one input (R71). -/
theorem step_cases (s : State) :
    (s.engine = .idle ∧ s.inputs = [] ∧ step s = .next s) ∨
    (∃ w c d, s.engine = .busy w c d ∧ step s = runCommand w s) ∨
    (∃ i rest, s.engine = .idle ∧ s.inputs = i :: rest ∧ step s = takeInput i { s with inputs := rest }) ∨
    (∃ w c d i rest, s.engine = .busy w c (d + 1) ∧ s.inputs = i :: rest ∧
      step s = takeInput i { s with engine := .busy w c d, inputs := rest }) := by
  cases he : s.engine with
  | idle =>
    cases hi : s.inputs with
    | nil => exact .inl ⟨rfl, rfl, by unfold step; rw [he, hi]⟩
    | cons i rest => exact .inr (.inr (.inl ⟨i, rest, rfl, rfl, by unfold step; rw [he, hi]⟩))
  | busy w c d =>
    cases d with
    | zero => exact .inr (.inl ⟨w, c, 0, rfl, step_due he (.inl rfl)⟩)
    | succ d =>
      cases hi : s.inputs with
      | nil => exact .inr (.inl ⟨w, c, d + 1, rfl, step_due he (.inr hi)⟩)
      | cons i rest => exact .inr (.inr (.inr ⟨w, c, d, i, rest, rfl, rfl, by unfold step; rw [he, hi]⟩))

/-- Everything a step that answers a next state can do, down to the access. -/
theorem step_next {s t : State} (h : step s = .next t) :
    (s.engine = .idle ∧ t = s) ∨
    (∃ w c d, s.engine = .busy w c d ∧ t = raise .illegalCmd w s) ∨
    (∃ w c d i, s.engine = .busy w c d ∧ w = encode i ∧ t = (bodyOf i s).complete) ∨
    (∃ eng rest, ((s.engine = .idle ∧ eng = .idle) ∨ ∃ w c d, s.engine = .busy w c (d + 1) ∧ eng = .busy w c d) ∧
      ((s.inputs = .reset true :: rest ∧ t = resetEvent { s with engine := eng, inputs := rest }) ∨
       (s.inputs = .reset false :: rest ∧ t = { s with engine := eng, inputs := rest, resetLine := false }) ∨
       (∃ a off, s.inputs = .access a :: rest ∧ s.resetLine = false ∧ windowOffset s.params a.addr = some off ∧
        t = hostAccess a off { s with engine := eng, inputs := rest }))) := by
  have key : ∀ (u : State) (i : Input), takeInput i u = .next t → (i = .reset true ∧ t = resetEvent u) ∨
      (i = .reset false ∧ t = { u with resetLine := false }) ∨
      (∃ a off, i = .access a ∧ u.resetLine = false ∧ windowOffset u.params a.addr = some off ∧
        t = hostAccess a off u) := fun u i => takeInput_cases
  rcases step_cases s with ⟨h1, -, h3⟩ | ⟨w, c, d, h1, h2⟩ | ⟨i, rest, h1, h2, h3⟩ | ⟨w, c, d, i, rest, h1, h2, h3⟩
  · rw [h3] at h; cases h; exact .inl ⟨h1, rfl⟩
  · rw [h2] at h
    rcases runCommand_cases w s with h4 | ⟨i, h4, h5⟩
    · rw [h4] at h; cases h; exact .inr (.inl ⟨w, c, d, h1, rfl⟩)
    · rw [h5] at h; exact .inr (.inr (.inl ⟨w, c, d, i, h1, h4, exec_next h⟩))
  · rw [h3] at h
    refine .inr (.inr (.inr ⟨.idle, rest, .inl ⟨h1, rfl⟩, ?_⟩))
    rw [← h1]
    rcases key _ _ h with ⟨rfl, h9⟩ | ⟨rfl, h9⟩ | ⟨a, off, rfl, h4, h5, h6⟩
    · exact .inl ⟨h2, h9⟩
    · exact .inr (.inl ⟨h2, h9⟩)
    · exact .inr (.inr ⟨a, off, h2, h4, h5, h6⟩)
  · rw [h3] at h
    refine .inr (.inr (.inr ⟨.busy w c d, rest, .inr ⟨w, c, d, h1, rfl⟩, ?_⟩))
    rcases key _ _ h with ⟨rfl, h9⟩ | ⟨rfl, h9⟩ | ⟨a, off, rfl, h4, h5, h6⟩
    · exact .inl ⟨h2, h9⟩
    · exact .inr (.inl ⟨h2, h9⟩)
    · exact .inr (.inr ⟨a, off, h2, h4, h5, h6⟩)

/-! ## Completion -/

/-- What the completion step leaves of everything but STATUS, the phase and ERR_INFO: what the body left. -/
theorem complete_fields (e : Ended) :
    ∃ (s : State) (code : ResultCode) (info : Word), e.complete = { s with
      result := code, done := true, engine := .idle, errInfo := info, tick := s.tick + 1 } ∧
      ((e = .finished code s ∧ info = s.errInfo) ∨ e = .raised code info s) := by
  cases e with
  | finished code s => exact ⟨s, code, s.errInfo, rfl, .inl ⟨rfl, rfl⟩⟩
  | raised code info s => exact ⟨s, code, info, rfl, .inr rfl⟩

@[simp] theorem complete_done (e : Ended) : e.complete.done = true := by cases e <;> rfl
@[simp] theorem complete_engine (e : Ended) : e.complete.engine = .idle := by cases e <;> rfl
@[simp] theorem complete_busy (e : Ended) : e.complete.busy = false := by cases e <;> rfl

end Sys2Proof.Machine
end

