-- ==== Sys2Proof/Laws/Frames.lean ====
section
/-! SUPPORT. What each body and each input may change, said once each (R93). -/

namespace Sys2Proof.Machine

/-! ## What each body may change (R93) -/

theorem buildBody_frame (s : State) : ∃ nd nc tr,
    buildBody s = .finished .ok { s with node := nd, nodeCount := nc, treeRoot := tr } := by
  unfold buildBody
  split
  · exact ⟨_, _, _, rfl⟩
  · exact ⟨_, _, _, rfl⟩

theorem materializeBody_frame (s : State) :
    (PrefixFree s.code ∧ ∃ dt r n, materializeBody s = .finished .ok { s with dt := dt, dtRoot := r, dtNodes := n }) ∨
    (¬ PrefixFree s.code ∧
      ∃ x, materializeBody s = .raised .collision x { s with dtRoot := .absent, dtNodes := 0#17 }) := by
  by_cases hf : PrefixFree s.code
  · obtain ⟨sh, -, hb, -⟩ := materializeBody_ok hf; exact .inl ⟨hf, _, _, _, hb⟩
  · obtain ⟨x, y, cx, cy, hb, -⟩ := materializeBody_collision hf; exact .inr ⟨hf, _, hb⟩

theorem serializeBody_frame (s : State) :
    (∃ bb bl, serializeBody s = .finished .ok { s with
      mem := { s.mem with bitbuf := bb }, bitLen := bl, bitCursor := 0#32 }) ∨
    ∃ c x bb bl, c ≠ .collision ∧ c.isFault = true ∧
      serializeBody s = .raised c x { s with mem := { s.mem with bitbuf := bb }, bitLen := bl } := by
  rcases serializeBody_cases s with ⟨-, hb⟩ | ⟨-, -, -, hb⟩ | ⟨-, pre, b, rest, -, -, -, -, hb⟩
  · exact .inr ⟨_, _, s.mem.bitbuf, s.bitLen, by decide, by decide, hb⟩
  · exact .inl ⟨_, _, hb⟩
  · refine .inr ⟨_, _, _, _, ?_, ?_, hb⟩ <;> split <;> decide

theorem encodeBody_lenRange {s : State} (h : s.params.srcBytes < s.srcLen.toNat) :
    encodeBody s = .raised .lenRange 0x010#32 s := by
  unfold encodeBody countBody; rw [if_pos h]; rfl

/-- The states between ENCODE's bodies, whatever the parameters (R192). -/
theorem encodeBody_stages {s : State} (hl : s.srcLen.toNat ≤ s.params.srcBytes) : ∃ a b c d,
    countBody s = .finished .ok a ∧ buildBody a = .finished .ok b ∧ deriveBody b = .finished .ok c ∧
    materializeBody c = .finished .ok d ∧ encodeBody s = serializeBody d ∧ Counted s a ∧ Derived b c ∧
    c.codeCount.toNat = presentCount c.code ∧ PrefixFree c.code ∧
    a = { s with freq := a.freq, list := a.list, numSyms := a.numSyms } ∧
    b = { a with node := b.node, nodeCount := b.nodeCount, treeRoot := b.treeRoot } ∧
    c = { b with code := c.code, codeCount := c.codeCount } ∧
    d = { c with dt := d.dt, dtRoot := d.dtRoot, dtNodes := d.dtNodes } := by
  rcases countBody_cases s with ⟨h, -⟩ | ⟨-, a, ha, hcnt, hfa⟩
  · omega
  · obtain ⟨nd, nc, tr, hb⟩ := buildBody_frame a
    obtain ⟨c, hc, hd, hfc, hcc, hpf⟩ := deriveBody_spec { a with node := nd, nodeCount := nc, treeRoot := tr }
    rcases materializeBody_frame c with ⟨-, dt, r, n, hm⟩ | ⟨hm, -⟩
    · refine ⟨a, _, c, _, ha, hb, hc, hm, ?_, hcnt, hd, hcc, hpf, hfa, rfl, hfc, rfl⟩
      unfold encodeBody; rw [ha]; simp only [Ended.andThen]; rw [hb]; simp only; rw [hc]; simp only; rw [hm]
    · exact absurd hpf hm

theorem encodeBody_frame (s : State) :
    encodeBody s = .raised .lenRange 0x010#32 s ∨ ∃ f l n nd nc tr co cc dt r dn bb bl,
      encodeBody s = .finished .ok { s with
        freq := f, list := l, numSyms := n, node := nd, nodeCount := nc, treeRoot := tr, code := co, codeCount := cc
        dt := dt, dtRoot := r, dtNodes := dn, mem := { s.mem with bitbuf := bb }, bitLen := bl, bitCursor := 0#32 } ∨
      ∃ c x, c ≠ .collision ∧ c.isFault = true ∧ encodeBody s = .raised c x { s with
        freq := f, list := l, numSyms := n, node := nd, nodeCount := nc, treeRoot := tr, code := co, codeCount := cc
        dt := dt, dtRoot := r, dtNodes := dn, mem := { s.mem with bitbuf := bb }, bitLen := bl } := by
  by_cases h : s.srcLen.toNat ≤ s.params.srcBytes
  · obtain ⟨a, b, c, d, -, -, -, -, he, -, -, -, -, hfa, hfb, hfc, hfd⟩ := encodeBody_stages h
    rw [hfa] at hfb
    rw [hfb] at hfc
    rw [hfc] at hfd
    right
    rcases serializeBody_frame d with ⟨bb, bl, hs⟩ | ⟨k, x, bb, bl, h1, h2, hs⟩
    · refine ⟨a.freq, a.list, a.numSyms, b.node, b.nodeCount, b.treeRoot, c.code, c.codeCount, d.dt, d.dtRoot, d.dtNodes,
        bb, bl, .inl ?_⟩
      rw [he, hs, hfd]
    · refine ⟨a.freq, a.list, a.numSyms, b.node, b.nodeCount, b.treeRoot, c.code, c.codeCount, d.dt, d.dtRoot, d.dtNodes,
        bb, bl, .inr ⟨k, x, h1, h2, ?_⟩⟩
      rw [he, hs, hfd]
  · exact .inl (encodeBody_lenRange (by omega))

theorem canonStep_error {i : Nat} {e : Word} {r : CanonRun} {c : ResultCode} (h : canonStep i e r = .error c) :
    c ≠ .collision ∧ c.isFault = true := by
  unfold canonStep at h
  split_ifs at h <;> cases h <;> decide

theorem canonRun_error {c : ResultCode} {k : Nat} (es : List Word) : ∀ (i : Nat) (r : CanonRun),
    canonRun i es r = .error (c, k) → c ≠ .collision ∧ c.isFault = true := by
  induction es with
  | nil => intro i r h; cases h
  | cons e es ih =>
    intro i r h
    rw [canonRun] at h
    cases hs : canonStep i e r with
    | ok r' => rw [hs] at h; exact ih _ _ h
    | error c' => rw [hs] at h; cases h; exact canonStep_error hs

/-- Everything CANON does: it is turned away, it stops at a bad entry and leaves no code, or it gives the table (R170, R222). -/
theorem canonBody_cases (s : State) :
    canonBody s = .raised .lenRange 0x01C#32 s ∨
    (∃ c i, c ≠ .collision ∧ c.isFault = true ∧ canonTable s.canonInput = .error (c, i) ∧
      canonBody s = .raised c (BitVec.ofNat 32 i) { s with code := noCodes, codeCount := 0#9 }) ∨
    ∃ t, s.canonN.toNat ≤ 256 ∧ canonTable s.canonInput = .ok t ∧
      canonBody s = .finished .ok { s with code := t, codeCount := s.canonN.setWidth 9 } := by
  unfold canonBody
  by_cases h : 256 < s.canonN.toNat
  · exact .inl (if_pos h)
  · rw [if_neg h]
    right
    cases ht : canonTable s.canonInput with
    | ok t => exact .inr ⟨t, by omega, rfl, rfl⟩
    | error e =>
      obtain ⟨c, i⟩ := e
      have hr : canonRun 0 s.canonInput { code := 0, prev := 0, table := noCodes } = .error (c, i) := by
        unfold canonTable at ht
        cases hr : canonRun 0 s.canonInput { code := 0, prev := 0, table := noCodes } with
        | ok r => rw [hr] at ht; cases ht
        | error e => rw [hr] at ht; cases ht; rfl
      obtain ⟨h1, h2⟩ := canonRun_error _ _ _ hr
      exact .inl ⟨c, i, h1, h2, rfl, rfl⟩

/-! ## DECODE (R193 to R195) -/

theorem decodeBody_branch {s : State} {n : Nat} (hl : s.bitLen.toNat ≤ s.params.bitbufBits) (hr : s.dtRoot = .branch n) :
    decodeBody s =
      match traverse s.dt s.params.dstBytes s.stream 0 { node := 0, out := 0, last := 0, dst := s.mem.dst } with
      | .fault c pos t => .raised c (BitVec.ofNat 32 pos) (s.withTraversal t)
      | .exhausted t => .finished (if t.last < s.bitLen.toNat then .okTruncated else .ok) (s.withTraversal t) := by
  unfold decodeBody; rw [if_neg (Nat.not_lt.mpr hl), hr] <;> rfl

theorem decodeBody_rootless {s : State} (hl : s.bitLen.toNat ≤ s.params.bitbufBits)
    (hr : s.dtRoot = .absent ∨ ∃ x, s.dtRoot = .leaf x) : decodeBody s = decodeRootless s := by
  unfold decodeBody; rw [if_neg (Nat.not_lt.mpr hl)]
  rcases hr with hr | ⟨x, hr⟩ <;> rw [hr]

theorem decodeBody_lenRange {s : State} (h : s.params.bitbufBits < s.bitLen.toNat) :
    decodeBody s = .raised .lenRange 0x014#32 s := by
  unfold decodeBody; rw [if_pos h]

theorem Desc.cases_root (d : Desc) : (d = .absent ∨ ∃ x, d = .leaf x) ∨ ∃ n, d = .branch n := by cases d <;> simp

theorem length_stream (s : State) : s.stream.length = s.bitLen.toNat := by simp [State.stream]

/-- What DECODE may change, and the bounds its outputs keep. -/
theorem decodeBody_frame (s : State) :
    decodeBody s = .raised .lenRange 0x014#32 s ∨
    ∃ d dl bp, dl.toNat ≤ s.params.dstBytes ∧ bp.toNat ≤ s.params.bitbufBits ∧
      ((∃ c, c.isFault = false ∧
        decodeBody s = .finished c { s with mem := { s.mem with dst := d }, dstLen := dl, decBitpos := bp }) ∨
      ∃ c x, c ≠ .collision ∧ c.isFault = true ∧
        decodeBody s = .raised c x { s with mem := { s.mem with dst := d }, dstLen := dl, decBitpos := bp }) := by
  by_cases h : s.params.bitbufBits < s.bitLen.toNat
  · exact .inl (decodeBody_lenRange h)
  right
  have hl : s.bitLen.toNat ≤ s.params.bitbufBits := by omega
  have hsl := length_stream s
  rcases Desc.cases_root s.dtRoot with hr | ⟨n, hr⟩
  · refine ⟨s.mem.dst, 0#32, 0#32, by simp, by simp, ?_⟩
    rw [decodeBody_rootless hl hr]
    unfold decodeRootless
    split
    · exact .inl ⟨.ok, by decide, rfl⟩
    · exact .inr ⟨_, _, by decide, by decide, rfl⟩
  · have bd := traverse_bounds (dt := s.dt) (cap := s.params.dstBytes) s.stream 0
      { node := 0, out := 0, last := 0, dst := s.mem.dst } (Nat.zero_le _) (Nat.le_refl _)
    rw [decodeBody_branch hl hr]
    have hmod : ∀ {k m : Nat}, k ≤ m → (BitVec.ofNat 32 k).toNat ≤ m := by
      intro k m hk; rw [BitVec.toNat_ofNat]; exact (Nat.mod_le _ _).trans hk
    cases ht : traverse s.dt s.params.dstBytes s.stream 0 { node := 0, out := 0, last := 0, dst := s.mem.dst } with
    | exhausted u =>
      have := bd.1 u ht
      refine ⟨u.dst, BitVec.ofNat 32 u.out, BitVec.ofNat 32 u.last, hmod this.1, hmod (by omega), .inl
        ⟨if u.last < s.bitLen.toNat then .okTruncated else .ok, ?_, rfl⟩⟩
      split <;> decide
    | fault c p u =>
      have := bd.2 c p u ht
      refine ⟨u.dst, BitVec.ofNat 32 u.out, BitVec.ofNat 32 u.last, hmod this.1, hmod (by omega), .inr
        ⟨c, BitVec.ofNat 32 p, ?_, ?_, rfl⟩⟩
      all_goals rcases this.2.2.2 with rfl | rfl <;> decide

/-! ## What inputs leave of the derived state -/

/-- The tables, trees, counts and outputs of `t` are those of `s`. -/
structure KeepsDerived (s t : State) : Prop where
  freq : t.freq = s.freq
  list : t.list = s.list
  numSyms : t.numSyms = s.numSyms
  node : t.node = s.node
  nodeCount : t.nodeCount = s.nodeCount
  treeRoot : t.treeRoot = s.treeRoot
  code : t.code = s.code
  codeCount : t.codeCount = s.codeCount
  dt : t.dt = s.dt
  dtRoot : t.dtRoot = s.dtRoot
  dtNodes : t.dtNodes = s.dtNodes
  params : t.params = s.params
  dstLen : t.dstLen = s.dstLen
  decBitpos : t.decBitpos = s.decBitpos

theorem keepsDerived_hostAccess (a : Access) (off : Nat) (u : State) : KeepsDerived u (hostAccess a off u) := by
  rcases hostAccess_cases a off u with ⟨r, h⟩ | ⟨r, h⟩ | ⟨v, h4, h⟩
  · rw [h]; constructor <;> rfl
  · rw [h]; constructor <;> rfl
  · rw [h]
    rcases hostWrite_cases off v u with ⟨hb, -, h'⟩ | ⟨hb, h'⟩
    · rw [h']; constructor <;> rfl
    · rw [h']
      rcases writeTarget_cases v u (target u.params off) with h' | h' | h' | ⟨ht, h'⟩ | h' | h' | h' | h' | ⟨i, -, h'⟩ |
        ⟨i, -, h'⟩ | ⟨i, -, h'⟩
      all_goals (rw [h']; constructor <;> simp [acknowledge, accept])

/-- A step keeps the derived state, or resets it, or is the body of the running command and its completion. -/
theorem step_derived {s t : State} (h : step s = .next t) :
    KeepsDerived s t ∨ (∃ u, u.params = s.params ∧ t = resetEvent u) ∨
      ∃ i w c d, s.engine = .busy w c d ∧ t = (bodyOf i s).complete := by
  rcases step_next h with ⟨h1, rfl⟩ | ⟨w, c, d, h1, rfl⟩ | ⟨w, c, d, i, h1, -, rfl⟩ | ⟨eng, rest, heng, h1⟩
  · left; constructor <;> rfl
  · left; constructor <;> rfl
  · exact .inr (.inr ⟨i, w, c, d, h1, rfl⟩)
  · rcases h1 with ⟨h1, rfl⟩ | ⟨h1, rfl⟩ | ⟨a, off, h1, -, -, rfl⟩
    · exact .inr (.inl ⟨{ s with engine := eng, inputs := rest }, rfl, rfl⟩)
    · left; constructor <;> rfl
    · obtain ⟨k1, k2, k3, k4, k5, k6, k7, k8, k9, k10, k11, k12, k13, k14⟩ :=
        keepsDerived_hostAccess a off { s with engine := eng, inputs := rest }
      exact .inl ⟨k1, k2, k3, k4, k5, k6, k7, k8, k9, k10, k11, k12, k13, k14⟩

theorem KeepsDerived.listOk {s t : State} (k : KeepsDerived s t) (h : ListOk s) : ListOk t := by
  obtain ⟨h1, h2, h3, h4, h5⟩ := h
  have e : t.listed = s.listed := by unfold State.listed; rw [k.list, k.numSyms]
  exact ⟨by rw [k.numSyms]; exact h1, by rw [k.numSyms, k.list]; exact h2, by rw [e, k.freq]; exact h3,
    by rw [e, k.freq]; exact h4, by rw [k.freq, k.params]; exact h5⟩

theorem KeepsDerived.treeOk {s t : State} (k : KeepsDerived s t) (h : TreeOk s) : TreeOk t := by
  obtain ⟨h1, h2, h3⟩ := h
  have e : t.arena = s.arena := by unfold State.arena; rw [k.node, k.nodeCount]
  exact ⟨by rw [k.nodeCount, k.node]; exact h1, by rw [k.treeRoot, k.nodeCount]; exact h2,
    by rw [k.treeRoot, e]; exact h3⟩

theorem KeepsDerived.codesOk {s t : State} (k : KeepsDerived s t) (h : CodesOk s) : CodesOk t := by
  obtain ⟨h1, h2, h3⟩ := h
  exact ⟨by rw [k.code]; exact h1, by rw [k.code]; exact h2, by rw [k.code, k.codeCount]; exact h3⟩

theorem KeepsDerived.decodeTreeOk {s t : State} (k : KeepsDerived s t) (h : DecodeTreeOk s) : DecodeTreeOk t := by
  obtain ⟨h1, h2, h3, h4, h5⟩ := h
  exact ⟨by rw [k.dtNodes, k.dt]; exact h1, by rw [k.dtNodes]; exact h2, by rw [k.dtNodes, k.dtRoot]; exact h3,
    by rw [k.dtRoot]; exact h4, by rw [k.dt, k.dtNodes]; exact h5⟩

theorem KeepsDerived.outputsOk {s t : State} (k : KeepsDerived s t) (h : OutputsOk s) : OutputsOk t := by
  obtain ⟨h1, h2⟩ := h
  exact ⟨by rw [k.dstLen, k.params]; exact h1, by rw [k.decBitpos, k.params]; exact h2⟩

end Sys2Proof.Machine
end

