-- ==== Sys2Proof/Laws/HostProgram.lean ====
section
/-! SUPPORT. What the host's next access is, and what one transaction of a host program does. -/

namespace Sys2Proof.Machine

/-! ## The next input -/

theorem nextInput_idle {s : State} (h : s.engine = .idle) : s.nextInput = s.inputs.head? := by
  unfold State.nextInput; rw [h]

theorem nextInput_running {s : State} {w : Word} {c : Ctrl} {d : Nat} (h : s.engine = .busy w c (d + 1)) :
    s.nextInput = s.inputs.head? := by
  unfold State.nextInput; rw [h]

/-- The targets whose writes BUSY drops are the commands' inputs (R70). -/
theorem namesCommandInput_of_isInput {p : Params} {off : Nat} (h : (target p off).isInput = true) :
    NamesCommandInput p off := by
  have ha := target_at p off
  cases ht : target p off with
  | reg r =>
    rw [ht] at h ha
    have hr : off = r.offset := ha
    subst hr
    cases r <;> first | (left; decide) | cases h
  | canon i => rw [ht] at ha; exact .inr (.inl ⟨ha.1, ha.2.1⟩)
  | src i => rw [ht] at ha; obtain ⟨h1, h2, h3, h4⟩ := ha; exact .inr (.inr (.inl ⟨h1, h2, by omega⟩))
  | bitbuf i => rw [ht] at ha; obtain ⟨h1, h2, h3, h4⟩ := ha; exact .inr (.inr (.inr ⟨h1, h2, by omega⟩))
  | freq x => rw [ht] at h; cases h
  | list i => rw [ht] at h; cases h
  | node i b => rw [ht] at h; cases h
  | code x k => rw [ht] at h; cases h
  | dt i b => rw [ht] at h; cases h
  | dst i => rw [ht] at h; cases h
  | unnamed => rw [ht] at h; cases h

/-! ## Transactions -/

theorem windowOffset_register (p : Params) (r : Reg) : windowOffset p (p.base + r.offset) = some r.offset :=
  windowOffset_eq_some.mpr ⟨by cases r <;> decide, rfl⟩

theorem Reg.offset_mod (r : Reg) : r.offset % 4 = 0 := by cases r <;> decide

/-- A read of a register answers its value, if BUSY does not make it unspecified, and changes nothing else (R69, R70). -/
theorem takeInput_rd_register {s : State} {r : Reg} (hr : s.resetLine = false) (h : s.busy = false ∨ r.isOutput = false) :
    takeInput (rd s.params r.offset) s = .next { s with response := some (s.readReg r), tick := s.tick + 1 } := by
  have hv : s.hostRead r.offset = s.readReg r := by
    rcases h with h | h
    · rw [hostRead_idle s _ h, target_offset]; rfl
    · rw [hostRead_exact s _ (by rw [target_offset]; exact h), target_offset]; rfl
  unfold rd
  rw [takeInput_access (a := .read .word _) hr (windowOffset_register s.params r), hostAccess_read s (supported_word r.offset_mod), hv]

/-- A write of a register that is performed does what the register's rule says (R64, R70). -/
theorem takeInput_wr_register {s : State} {r : Reg} (v : Word) (hr : s.resetLine = false)
    (h : s.busy = false ∨ (Target.reg r).isInput = false) :
    takeInput (wr s.params r.offset v) s = .next { writeReg v s r with response := none } := by
  unfold wr
  rw [takeInput_access (a := .write .word _ v) hr (windowOffset_register s.params r), hostAccess_write s v (supported_word r.offset_mod),
    hostWrite_performed s _ v (by rw [target_offset]; exact h), target_offset]
  rfl

/-- Bit 0 of STATUS is BUSY (R27). -/
theorem statusWord_bit0 (s : State) : s.statusWord.getLsbD 0 = s.busy := by
  unfold State.statusWord bitAt
  cases s.busy <;> cases s.done <;> cases s.ovr <;> cases s.accerr <;> cases s.result <;> decide

/-- A transaction while IDLE is taken at once. -/
theorem transact_idle {s : State} (i : Input) (h : s.engine = .idle) : transact i s = takeInput i s := by
  cases s; cases h; rfl

/-- A transaction while the running command lets an input pass is taken at once, and uses up one of its delay. -/
theorem transact_running {s : State} (i : Input) {w : Word} {c : Ctrl} {d : Nat} (h : s.engine = .busy w c (d + 1)) :
    transact i s = takeInput i { s with engine := .busy w c d } := by
  unfold transact; rw [h]
  simp only [step]

/-- A transaction when the running command is due comes after its completion (R71). -/
theorem transact_due {s : State} (i : Input) {w : Word} {c : Ctrl} (h : s.engine = .busy w c 0) :
    transact i s = onNext (runCommand w { s with inputs := i :: s.inputs }) step := by
  unfold transact; rw [h]
  simp only [step]

end Sys2Proof.Machine
end

