-- ==== Sys2Proof/Laws/PerInstr.lean ====
section
/-! SUPPORT. Statements made of every command as syntax, one lemma for each constructor. -/

namespace Sys2Proof.Laws.RoundTrip

/-- The command's word decodes to the command and to no other (R90, R91), and has zeros above OP. -/
def Statement (i : Instr) : Prop :=
  i.wf = true ∧ Sys2Proof.decode (Sys2Proof.encode i) = .command i ∧
    (Sys2Proof.encode i).extractLsb' 8 24 = 0#24 ∧ (Sys2Proof.encode i).extractLsb' 0 8 = opcode i

theorem nop : Statement .nop := by unfold Statement; decide
theorem clear : Statement .clear := by unfold Statement; decide
theorem count : Statement .count := by unfold Statement; decide
theorem build : Statement .build := by unfold Statement; decide
theorem derive : Statement .derive := by unfold Statement; decide
theorem materialize : Statement .materialize := by unfold Statement; decide
theorem serialize : Statement .serialize := by unfold Statement; decide
theorem encode : Statement .encode := by unfold Statement; decide
theorem canon : Statement .canon := by unfold Statement; decide
theorem decode : Statement .decode := by unfold Statement; decide

end Sys2Proof.Laws.RoundTrip
end

