-- ==== Sys2Proof/Tests/Slice0.lean ====
section
/-! SUPPORT. Small checks against the spec's own vectors (95_test_vectors.md, named V-, W- and P- as there), the smoke test of
WellFormed, the command words written out from R90 and R91, and a witness for the hypotheses of every obligation that has any. -/

open Sys2Proof Sys2Proof.Machine

namespace Sys2Proof.Tests

/-! ## WellFormed: one ill-formed choice of parameters for each check of R6 -/

theorem test_default_params_wf : Config.defaultParams.wf = true := by decide
theorem test_smallest_params_wf :
    ({ srcBytes := 4, dstBytes := 4, bitbufBits := 32, base := 0 } : Params).wf = true := by decide
theorem test_largest_params_wf :
    ({ srcBytes := 1048576, dstBytes := 1048576, bitbufBits := 134217728, base := 0x2000000 } : Params).wf = true := by
  decide
theorem test_src_not_multiple_of_4 : ({ Config.defaultParams with srcBytes := 6 } : Params).wf = false := by decide
theorem test_src_zero : ({ Config.defaultParams with srcBytes := 0 } : Params).wf = false := by decide
theorem test_src_too_large : ({ Config.defaultParams with srcBytes := 1048580 } : Params).wf = false := by decide
theorem test_dst_not_multiple_of_4 : ({ Config.defaultParams with dstBytes := 5 } : Params).wf = false := by decide
theorem test_dst_zero : ({ Config.defaultParams with dstBytes := 0 } : Params).wf = false := by decide
theorem test_dst_too_large : ({ Config.defaultParams with dstBytes := 1048580 } : Params).wf = false := by decide
theorem test_bits_not_multiple_of_32 : ({ Config.defaultParams with bitbufBits := 48 } : Params).wf = false := by decide
theorem test_bits_zero : ({ Config.defaultParams with bitbufBits := 0 } : Params).wf = false := by decide
theorem test_bits_too_large : ({ Config.defaultParams with bitbufBits := 134217760 } : Params).wf = false := by decide
theorem test_base_misaligned : ({ Config.defaultParams with base := 0x1000000 } : Params).wf = false := by decide
theorem test_every_command_wf : Instr.all.all Instr.wf = true := by decide

/-! ## Decoding: each command word, bit by bit: MBZ in [31:8], OP in [7:0] (R90, R91) -/

theorem test_decode_nop : decode 0b000000000000000000000000_00000000#32 = .command .nop := by decide
theorem test_decode_clear : decode 0b000000000000000000000000_00000001#32 = .command .clear := by decide
theorem test_decode_count : decode 0b000000000000000000000000_00000010#32 = .command .count := by decide
theorem test_decode_build : decode 0b000000000000000000000000_00000011#32 = .command .build := by decide
theorem test_decode_derive : decode 0b000000000000000000000000_00000100#32 = .command .derive := by decide
theorem test_decode_materialize : decode 0b000000000000000000000000_00000101#32 = .command .materialize := by decide
theorem test_decode_serialize : decode 0b000000000000000000000000_00000110#32 = .command .serialize := by decide
theorem test_decode_encode : decode 0b000000000000000000000000_00000111#32 = .command .encode := by decide
theorem test_decode_canon : decode 0b000000000000000000000000_00001000#32 = .command .canon := by decide
theorem test_decode_decode : decode 0b000000000000000000000000_00001001#32 = .command .decode := by decide
/-- V-C3: the first opcode above the map. -/
theorem test_decode_op_0A : decode 0b000000000000000000000000_00001010#32 = .illegalCmd 0x0000000A#32 := by decide
/-- V-C4: ENCODE's opcode with a bit above OP set. -/
theorem test_decode_mbz_set : decode 0b000000000000000000000001_00000111#32 = .illegalCmd 0x00000107#32 := by decide
/-- V-C5. -/
theorem test_decode_all_ones : decode 0xFFFFFFFF#32 = .illegalCmd 0xFFFFFFFF#32 := by decide
theorem test_rows_disjoint : opcodeTable.Pairwise fun a b => ¬ (b.value &&& a.mask) = a.value := by decide
theorem test_row_values :
    opcodeTable.map (fun r => (r.mnemonic, r.mask, r.value)) =
      [("NOP", 0xFFFFFFFF#32, 0#32), ("CLEAR", 0xFFFFFFFF#32, 1#32), ("COUNT", 0xFFFFFFFF#32, 2#32),
       ("BUILD", 0xFFFFFFFF#32, 3#32), ("DERIVE", 0xFFFFFFFF#32, 4#32), ("MATERIALIZE", 0xFFFFFFFF#32, 5#32),
       ("SERIALIZE", 0xFFFFFFFF#32, 6#32), ("ENCODE", 0xFFFFFFFF#32, 7#32), ("CANON", 0xFFFFFFFF#32, 8#32),
       ("DECODE", 0xFFFFFFFF#32, 9#32)] := by decide
theorem test_table_word : decodeTableWord 32 7 = some .encode ∧ decodeTableWord 32 0x107 = none ∧
    decodeTableWord 8 7 = some .encode ∧ decodeTableWord 8 0x107 = none := by decide

/-! ## States to test on -/

/-- The smallest parameters of R6, with the window at its second place. -/
def smallParams : Params := { srcBytes := 4, dstBytes := 4, bitbufBits := 32, base := 0x2000000 }

/-- Reset with the smallest parameters. -/
def small : State := { State.reset with params := smallParams }

/-- SRC and SRC_LEN loaded, with the default capacities. -/
def loaded (bs : List Byte) : State :=
  { State.reset with srcLen := BitVec.ofNat 32 bs.length, mem := { Memory.empty with src := cellsWrite [] 0 bs } }

/-- CANON and CANON_N loaded. -/
def listing (es : List Word) : State :=
  { State.reset with canonN := BitVec.ofNat 32 es.length, mem := { Memory.empty with canon := cellsWrite [] 0 es } }

/-- BITBUF and BIT_LEN loaded, over a decode tree. -/
def streaming (dt : List Branch) (bs : List Bool) (s : State) : State :=
  { s with
    dt := dt
    dtRoot := .branch 0
    dtNodes := BitVec.ofNat 17 dt.length
    bitLen := BitVec.ofNat 32 bs.length
    mem := { s.mem with bitbuf := cellsWrite [] 0 bs } }

/-- The state a command leaves. -/
def after (i : Instr) (s : State) : State :=
  match exec i s with
  | .next t => t
  | _ => s

theorem exec_after (i : Instr) (s : State) : exec i s = .next (after i s) := by cases i <;> rfl

/-- The state a step leaves. -/
def stepped (s : State) : State :=
  match step s with
  | .next t => t
  | _ => s

/-- What the last access of a run returned. -/
def responseOf (o : Host.Outcome State Fault Refusal) : Option Word :=
  match o with
  | .next t => t.response
  | _ => none

/-- The verdict of `check`. -/
def verdictOf (o : Host.Outcome (State × Bool) Fault Refusal) : Option Bool :=
  match o with
  | .next t => some t.2
  | _ => none

/-- "abracadabra". -/
def abra : List Byte := [0x61#8, 0x62#8, 0x72#8, 0x61#8, 0x63#8, 0x61#8, 0x64#8, 0x61#8, 0x62#8, 0x72#8, 0x61#8]

/-- A table of two codes: `0` for `x`, `1` for `y`. -/
def twoCodes (x y : Byte) : SymTable (Option Code) :=
  SymTable.set (SymTable.set noCodes x (some [false])) y (some [true])

/-- What the spec says ENCODE of "ab" leaves (V-B5, V-D4, V-E3), with the smallest parameters; "ab" is loaded. -/
def abState : State :=
  { small with
    done := true
    tick := 1
    srcLen := 2#32
    bitLen := 2#32
    freq := SymTable.set (SymTable.set (Vector.replicate 256 0#32) 0x61#8 1#32) 0x62#8 1#32
    list := [0x61#8, 0x62#8]
    numSyms := 2#9
    node := [.leaf 0x61#8 1#32, .leaf 0x62#8 1#32, .internal 0 1 2#32]
    nodeCount := 3#10
    treeRoot := some 2#9
    code := twoCodes 0x61#8 0x62#8
    codeCount := 2#9
    dt := [{ child0 := .leaf 0x61#8, child1 := .leaf 0x62#8 }]
    dtRoot := .branch 0
    dtNodes := 1#17
    mem := { src := [(0, 0x61#8), (1, 0x62#8)], dst := [], bitbuf := [(0, false), (1, true)], canon := [] } }

/-- The table of V-S1: a`0`, b`10`. -/
def sTable : SymTable (Option Code) :=
  SymTable.set (SymTable.set noCodes 0x61#8 (some [false])) 0x62#8 (some [true, false])

/-- "ab" loaded and nothing run, with the smallest parameters. -/
def abLoaded : State :=
  { small with srcLen := 2#32, mem := { Memory.empty with src := [(0, 0x61#8), (1, 0x62#8)] } }

/-- What COUNT of "abracadabra" leaves (V-B1), as far as BUILD reads it. -/
def abraCounted : State :=
  { State.reset with
    freq :=
      SymTable.set (SymTable.set (SymTable.set (SymTable.set (SymTable.set (Vector.replicate 256 0#32)
        0x61#8 5#32) 0x62#8 2#32) 0x63#8 1#32) 0x64#8 1#32) 0x72#8 2#32
    list := [0x63#8, 0x64#8, 0x62#8, 0x72#8, 0x61#8]
    numSyms := 5#9 }

/-- The decode tree of V-M2. -/
def w1Tree : List Branch :=
  [{ child0 := .leaf 0x01#8, child1 := .branch 1 }, { child0 := .branch 2, child1 := .branch 3 },
   { child0 := .leaf 0x00#8, child1 := .leaf 0x0C#8 }, { child0 := .branch 4, child1 := .branch 5 },
   { child0 := .leaf 0x02#8, child1 := .leaf 0x0B#8 }, { child0 := .leaf 0x1F#8, child1 := .branch 6 },
   { child0 := .leaf 0x15#8, child1 := .absent }]

/-- The entries of W1. -/
def w1Entries : List Word := [0x101#32, 0x300#32, 0x30C#32, 0x402#32, 0x40B#32, 0x41F#32, 0x515#32]

/-! ## The commands -/

/-- V-C1. -/
theorem test_nop : (after .nop State.reset).statusWord = 0x00000002#32 ∧ (after .nop State.reset).errInfo = 0#32 := by
  decide
theorem test_nop_runs_first : step (State.reset.withFetchWord 32 0) = exec .nop (State.reset.withFetchWord 32 0) := rfl

/-- V-C2. -/
theorem test_clear :
    (after .clear abState).numSyms = 0#9 ∧ (after .clear abState).treeRoot = none ∧
    (after .clear abState).dtRoot = .absent ∧ SymTable.get (after .clear abState).code 0x61#8 = none ∧
    SymTable.get (after .clear abState).freq 0x61#8 = 0#32 ∧ (after .clear abState).bitLen = 2#32 ∧
    (after .clear abState).srcLen = 2#32 ∧ (after .clear abState).mem = abState.mem := by decide +kernel

/-- V-B1, the counts and LIST. -/
theorem test_count : (after .count (loaded abra)).listed = [0x63#8, 0x64#8, 0x62#8, 0x72#8, 0x61#8] ∧
    SymTable.get (after .count (loaded abra)).freq 0x61#8 = 5#32 ∧
    (after .count (loaded abra)).numSyms = 5#9 := by decide +kernel
/-- V-B9: one byte above the capacity. -/
theorem test_count_len_range :
    (after .count { abState with srcLen := 5#32 }).statusWord = 0x00001102#32 ∧
    (after .count { abState with srcLen := 5#32 }).errInfo = 0x010#32 ∧
    (after .count { abState with srcLen := 5#32 }).listed = [0x61#8, 0x62#8] := by decide +kernel

/-- V-B1, the words of the arena; the merged node goes after older items of its priority (R133). -/
theorem test_build :
    (after .build abraCounted).arena.map (fun n => (n.word0, n.prio)) =
      [(0x00000063#32, 1#32), (0x00000064#32, 1#32), (0x00000062#32, 2#32), (0x00000072#32, 2#32),
       (0x00000061#32, 5#32), (0x80010000#32, 2#32), (0x80030002#32, 4#32), (0x80060005#32, 6#32),
       (0x80070004#32, 0x0B#32)] ∧
    treeRootWord (after .build abraCounted).treeRoot = 0x80000008#32 := by decide +kernel
/-- V-B2: no symbols, no tree. -/
theorem test_build_empty : (after .build { abState with numSyms := 0#9 }).treeRoot = none ∧
    (after .build { abState with numSyms := 0#9 }).nodeCount = 0#10 := by decide +kernel

/-- V-D4. -/
theorem test_derive :
    SymTable.get (after .derive { abState with code := noCodes }).code 0x61#8 = some [false] ∧
    SymTable.get (after .derive { abState with code := noCodes }).code 0x62#8 = some [true] ∧
    SymTable.get (after .derive { abState with code := noCodes }).code 0x63#8 = none ∧
    (after .derive { abState with code := noCodes }).codeCount = 2#9 := by decide +kernel
/-- V-D3a and V-D3b: the single-symbol code follows SINGLE_ONEBIT as sampled. -/
theorem test_derive_single :
    (∀ w, codeWord (SymTable.get (after .derive { State.reset with
        node := [.leaf 0x61#8 1#32], nodeCount := 1#10, treeRoot := some 0#9 }).code 0x61#8) w =
      if w = 0 then 0x80000000#32 else 0#32) ∧
    codeWord (SymTable.get (after .derive { State.reset with
        ctrl := { irqEn := false, singleOnebit := false }
        engine := .busy 4#32 { irqEn := false, singleOnebit := true } 0
        node := [.leaf 0x61#8 1#32], nodeCount := 1#10, treeRoot := some 0#9 }).code 0x61#8) 0 = 0x80000001#32 := by
  refine ⟨?_, by decide +kernel⟩
  have h : SymTable.get (after .derive { State.reset with
      node := [.leaf 0x61#8 1#32], nodeCount := 1#10, treeRoot := some 0#9 }).code 0x61#8 = some [] := by decide +kernel
  intro w
  rw [h]
  by_cases hw : w = 0 <;> simp [codeWord, codeValue, hw]

/-- V-M2: the decode tree of W1's table, in allocation order. -/
theorem test_materialize :
    (after .materialize (after .canon (listing w1Entries))).dt = w1Tree ∧
    (after .materialize (after .canon (listing w1Entries))).dtRoot.toWord = 0x00010000#32 ∧
    (after .materialize (after .canon (listing w1Entries))).dtNodes = 7#17 := by decide +kernel
/-- R153's example, the table of "abracadabra": DT[0] to DT[3] are reached by the empty path, `1`, `11` and `10`. -/
theorem test_branch_paths :
    branchPaths (tableOf [(0x61#8, [false]), (0x62#8, [true, true, false]), (0x63#8, [true, false, false]),
      (0x64#8, [true, false, true]), (0x72#8, [true, true, true])]) =
      [[], [true], [true, true], [true, false]] := by decide +kernel
/-- R154: of two equal codes the larger symbol collides, and no tree is left. -/
theorem test_materialize_collision :
    (after .materialize { abState with code := SymTable.set abState.code 0x63#8 (some [true]) }).statusWord =
      0x00001602#32 ∧
    (after .materialize { abState with code := SymTable.set abState.code 0x63#8 (some [true]) }).errInfo = 0x63#32 ∧
    (after .materialize { abState with code := SymTable.set abState.code 0x63#8 (some [true]) }).dtRoot = .absent ∧
    (after .materialize { abState with code := SymTable.set abState.code 0x63#8 (some [true]) }).dtNodes = 0#17 := by
  decide +kernel

/-- V-S1: a`0`, b`10`, "abab". -/
theorem test_serialize :
    (after .serialize { loaded [0x61#8, 0x62#8, 0x61#8, 0x62#8] with code := sTable }).mem.bitbuf =
      [(0, false), (1, true), (2, false), (3, false), (4, true), (5, false)] ∧
    (after .serialize { loaded [0x61#8, 0x62#8, 0x61#8, 0x62#8] with code := sTable }).bitLen = 6#32 := by
  decide +kernel
/-- V-S2: "abc" stops at byte 2; positions 0 to 2 are written and BIT_LEN is 0. -/
theorem test_serialize_no_code :
    (after .serialize { loaded [0x61#8, 0x62#8, 0x63#8] with code := sTable, bitLen := 9#32 }).statusWord =
      0x00001702#32 ∧
    (after .serialize { loaded [0x61#8, 0x62#8, 0x63#8] with code := sTable, bitLen := 9#32 }).errInfo = 2#32 ∧
    (after .serialize { loaded [0x61#8, 0x62#8, 0x63#8] with code := sTable, bitLen := 9#32 }).bitLen = 0#32 ∧
    (after .serialize { loaded [0x61#8, 0x62#8, 0x63#8] with code := sTable, bitLen := 9#32 }).mem.bitbuf =
      [(0, false), (1, true), (2, false)] := by decide +kernel

/-- V-E3 with V-B5 and V-D4. -/
theorem test_encode :
    (after .encode abLoaded).arena = abState.node ∧ (after .encode abLoaded).dt = abState.dt ∧
    (after .encode abLoaded).mem = abState.mem ∧ (after .encode abLoaded).bitLen = 2#32 ∧
    (after .encode abLoaded).result = .ok := by decide +kernel
/-- V-E1: the stream of "abracadabra" as BITBUF word 0. -/
theorem test_encode_abracadabra : wordOfBits (after .encode (loaded abra)).stream = 0x003B5176#32 := by decide +kernel

/-- W1. -/
theorem test_canon :
    w1Entries.map (fun e => SymTable.get (after .canon (listing w1Entries)).code (canonSym e)) =
      [some [false], some [true, false, false], some [true, false, true], some [true, true, false, false],
       some [true, true, false, true], some [true, true, true, false], some [true, true, true, true, false]] ∧
    (after .canon (listing w1Entries)).codeCount = 7#9 := by decide +kernel
/-- V-K17 and V-K11: too long comes before duplicate; a falling length does not shift. -/
theorem test_canon_faults :
    (after .canon { listing [0x105#32, 0x2805#32] with code := abState.code }).statusWord = 0x00001302#32 ∧
    (after .canon { listing [0x105#32, 0x2805#32] with code := abState.code }).errInfo = 1#32 ∧
    SymTable.get (after .canon { listing [0x105#32, 0x2805#32] with code := abState.code }).code 0x61#8 = none ∧
    (after .canon (listing [0x201#32, 0x202#32, 0x103#32])).statusWord = 0x00001502#32 ∧
    (after .canon (listing [0x201#32, 0x202#32, 0x103#32])).errInfo = 2#32 := by decide +kernel

/-- V-X7. -/
theorem test_decode_command :
    (after .decode (streaming w1Tree
      [false, true, false, false, true, false, true, true, true, false, false, true, true, false, true, true, true, true,
       false, true, true, true, true, false] State.reset)).mem.dst =
      [(0, 0x01#8), (1, 0x00#8), (2, 0x0C#8), (3, 0x02#8), (4, 0x0B#8), (5, 0x1F#8), (6, 0x15#8)] := by decide +kernel
/-- V-X9 and V-X10: a truncated tail is a success, a bit without a code is not. -/
theorem test_decode_tails :
    (after .decode (streaming w1Tree [true, true, true, true] State.reset)).statusWord = 0x00000102#32 ∧
    (after .decode (streaming w1Tree [true, true, true, true, true] State.reset)).statusWord = 0x00001902#32 ∧
    (after .decode (streaming w1Tree [true, true, true, true, true] State.reset)).errInfo = 4#32 := by decide +kernel

/-! ## The window -/

/-- P1, transactions 1 and 14: bytes 61 62 72 61 in one word. -/
theorem test_src_lanes : (hostAccess (.write .word 0 0x61726261#32) 0x200000 State.reset).mem.src =
    [(0, 0x61#8), (1, 0x62#8), (2, 0x72#8), (3, 0x61#8)] := by decide +kernel
/-- P2, transactions 23 and 24: CODE[21], whose code is `11110`, at 0x4540. -/
theorem test_code_window :
    (hostAccess (.read .word 0) 0x4540
      { State.reset with code := SymTable.set noCodes 21#8 (some [true, true, true, true, false]) }).response =
      some 0x80000005#32 ∧
    (hostAccess (.read .word 0) 0x4544
      { State.reset with code := SymTable.set noCodes 21#8 (some [true, true, true, true, false]) }).response =
      some 0x0000001E#32 := by decide +kernel
/-- V-B5: NODE[2] at 0x2010. -/
theorem test_node_window :
    (hostAccess (.read .word 0) 0x2010 abState).response = some 0x80010000#32 ∧
    (hostAccess (.read .word 0) 0x2014 abState).response = some 0x00000002#32 := by decide +kernel
/-- R23, R33: while BUSY too, bits 31 to 9 of NUM_SYMS read 0. -/
theorem test_busy_unnamed_bits : Target.openBits (target smallParams 0x024) = 0x000001FF#32 ∧
    Target.openBits (target smallParams 0x014) = 0xFFFFFFFF#32 := by decide
/-- R62: a byte write at CMD starts nothing. -/
theorem test_narrow_cmd : (hostAccess (.write .byte 0 7#32) 0x008 State.reset).busy = false ∧
    (hostAccess (.write .byte 0 7#32) 0x008 State.reset).statusWord = 0x00000008#32 := by decide +kernel
/-- R60: offset 0x008 of a window at 2^25. -/
theorem test_window_offset : windowOffset smallParams 0x2000008 = some 8 ∧ windowOffset smallParams 0x1FFFFFF = none ∧
    windowOffset smallParams 0x4000000 = none := by decide
/-- R104: the lines of `run ENCODE`. -/
theorem test_run_lines : run smallParams .encode =
    [.bus (.access (.write .word 0x200000C 0xE#32)), .bus (.access (.write .word 0x2000008 7#32)), .wait] := by decide
/-- R104: with a delay of two inputs, the first two reads of `wait` find BUSY; `run DECODE` goes on to the third, which finds DONE
and the result (P1, transaction 12). -/
theorem test_wait_repeats :
    responseOf (performAll { abState with delays := [2] } (run smallParams .decode)) = some 0x00000002#32 ∧
    responseOf (performAll { abState with delays := [2] }
      ((ack smallParams ++ cmd smallParams .decode).map HostOp.bus ++ [.bus (rd smallParams 0x00C)])) =
      some 0x00000001#32 ∧
    responseOf (performAll { abState with delays := [2] }
      ((ack smallParams ++ cmd smallParams .decode).map HostOp.bus ++ [.bus (rd smallParams 0x00C),
        .bus (rd smallParams 0x00C)])) = some 0x00000001#32 := by decide +kernel
/-- R104: `check` reads STATUS; OVR, or a fault's code, is no success. -/
theorem test_check :
    verdictOf (check abState) = some true ∧ verdictOf (check { abState with ovr := true }) = some false ∧
    verdictOf (check { abState with result := .decInvalid }) = some false ∧
    verdictOf (check { abState with result := .okTruncated }) = some true := by decide +kernel
/-- V-C3: an illegal word. -/
theorem test_illegal_word : step (State.reset.withFetchWord 32 0x0A) =
    .next { State.reset with done := true, result := .illegalCmd, errInfo := 0x0A#32, tick := 1 } := rfl
/-- Reset memory is in canonical form. -/
theorem test_reset_memory_wf : State.reset.mem.wf := by decide

/-! ## Witnesses: states and operands that meet each obligation's hypotheses -/

/-- A CMD write of `w` accepted, `d` inputs to go, with inputs. -/
def running (w : Word) (d : Nat) (ins : List Input) (s : State) : State :=
  { s with engine := .busy w s.ctrl d, inputs := ins }

theorem witness_IllegalWordFinishesAtOnce :
    (0x0A ≤ ((0x0A#32).extractLsb' 0 8).toNat ∨ (0x0A#32).extractLsb' 8 24 ≠ 0#24) ∧
    (0x0A ≤ ((0x100#32).extractLsb' 0 8).toNat ∨ (0x100#32).extractLsb' 8 24 ≠ 0#24) ∧ abState.engine = .idle := by decide

theorem witness_CodeEntryWordsHoldTheCode :
    abState.engine = .idle ∧ 15 < 16 ∧ (List.replicate 255 true : Code).length ≤ 255 ∧ 254 < (List.replicate 255 true : Code).length ∧
    ([] : Code).length ≤ 0 ∧ (List.replicate 255 true : Code).length ≤ 255 ∧ 255 < 256 ∧ 9 ≤ 15 := by decide +kernel

theorem witness_TableEntriesReadThroughTheWindow :
    abState.engine = .idle ∧ (1 < 256 ∧ 1 < abState.numSyms.toNat ∧ abState.list[1]? = some 0x62#8) ∧
    (2 < 511 ∧ 2 < abState.nodeCount.toNat ∧ abState.node[2]? = some (.internal 0 1 2#32)) ∧
    (0 < 65536 ∧ 0 < abState.dtNodes.toNat ∧
      abState.dt[0]? = some { child0 := .leaf 0x61#8, child1 := .leaf 0x62#8 }) ∧
    511 < 512 ∧ 65535 < 65536 := by decide

theorem witness_StepRunsTheAcceptedCommand :
    (running 9#32 1 [] small).engine = .busy 9#32 small.ctrl 1 ∧ (running 9#32 1 [] small).inputs = [] ∧
    decode 9#32 = .command .decode ∧ decode (BitVec.ofNat 32 7) = .command .encode := by decide

theorem witness_StepPerformsTheNextAccess :
    (running 7#32 1 [rd smallParams 0x1FFFFFC] small).inputs = [.access (.read .word 0x3FFFFFC)] ∧
    small.resetLine = false ∧ windowOffset small.params 0x3FFFFFC = some 0x1FFFFFC ∧ small.engine = .idle ∧
    (running 7#32 1 [rd smallParams 0x1FFFFFC] small).engine = .busy 7#32 small.ctrl (0 + 1) ∧ small.inputs = [] ∧
    (running 7#32 1 [.reset false] small).inputs = [.reset false] ∧
    (running 7#32 1 [.reset false] small).engine = .busy 7#32 small.ctrl (0 + 1) := by decide

theorem witness_CmdWriteStartsACommandOrIsDropped : small.engine = .idle ∧ (running 7#32 1 [] small).busy = true := by
  decide

theorem witness_BusyAccessesKeepEveryCommandInput :
    (running 7#32 1 [] small).busy = true ∧ 0x1BFC % 4 = 0 ∧
    NamesCommandInput (running 7#32 1 [] small).params 0x01C ∧ NamesCommandInput (running 7#32 1 [] small).params 0x1BFC ∧
    NamesCommandInput (running 7#32 1 [] small).params 0x200000 ∧
    NamesCommandInput (running 7#32 1 [] small).params 0x1000000 := by
  simp only [NamesCommandInput]
  decide

theorem witness_UnsupportedAccessOnlySetsAccerr : Width.half ≠ .word ∧ 0x009 % 4 ≠ 0 := by decide

theorem witness_UnnamedOffsetsReadZeroAndIgnoreWrites :
    small.params.wf = true ∧
    [0x054, 0xFFC, 0x1C00, 0x1FFC, 0x2FF8, 0x3FFC, 0x8000, 0xFFFFC, 0x180000, 0x1FFFFC, 0x200004, 0x2FFFFC, 0x300004,
      0xFFFFFC, 0x1000004, 0x1FFFFFC].all (fun off => off % 4 == 0 &&
      decide ((0x054 ≤ off ∧ off < 0x1000) ∨ (0x1C00 ≤ off ∧ off < 0x2000) ∨ (0x2FF8 ≤ off ∧ off < 0x4000) ∨
      (0x8000 ≤ off ∧ off < 0x100000) ∨ (0x180000 ≤ off ∧ off < 0x200000) ∨
      (0x200000 + small.params.srcBytes ≤ off ∧ off < 0x300000) ∨
      (0x300000 + small.params.dstBytes ≤ off ∧ off < 0x1000000) ∨
      (0x1000000 + small.params.bitbufBits / 8 ≤ off ∧ off < 0x2000000))) = true := by decide

theorem witness_RegistersReadAndWriteWhileIdle : abState.engine = .idle ∧ 0x1FFFFFC % 4 = 0 ∧
    ((0x050, 31#32) ∈ [(0x04C, 0#32), (0x050, 31#32)]) ∧
    ((0x038, 0x0001FFFF#32) ∈ [(0x034, 0x0003FFFF#32), (0x038, 0x0001FFFF#32)]) ∧
    [0x020, 0x050, 0x1000, 0x17FC, 0x2000, 0x2FF4, 0x4000, 0x7FFC, 0x100000, 0x17FFFC, 0x300000, 0x3FFFFC].all (fun off =>
      off % 4 == 0 && decide ((0x020 ≤ off ∧ off < 0x054) ∨ (0x1000 ≤ off ∧ off < 0x1800) ∨ (0x2000 ≤ off ∧ off < 0x2FF8) ∨
          (0x4000 ≤ off ∧ off < 0x8000) ∨ (0x100000 ≤ off ∧ off < 0x180000) ∨ (0x300000 ≤ off ∧ off < 0x400000))) = true := by
  decide

theorem witness_MemoryWindowsStoreTheirLanes :
    State.reset.params.wf = true ∧ State.reset.engine = .idle ∧ 4 * 0 < State.reset.params.srcBytes ∧
    4 * 16383 < State.reset.params.srcBytes ∧ 4 * 16383 < State.reset.params.dstBytes ∧ 3 < 4 ∧
    (65531 < 4 * 16383 ∨ 4 * 16383 + 4 ≤ 65531) ∧ 255 < 256 := by decide

theorem witness_BitbufWordsAreLeastSignificantBitFirst :
    State.reset.params.wf = true ∧ State.reset.engine = .idle ∧ 32 * 524287 < State.reset.params.bitbufBits ∧ 31 < 32 ∧
    (32 < 32 * 1 ∨ 32 * 1 + 32 ≤ 64) := by decide

theorem witness_ResetEventGivesResetValues :
    (running 7#32 1 [.reset true] abState).inputs = [.reset true] ∧
    (running 7#32 1 [.reset true] abState).engine = .busy 7#32 abState.ctrl (0 + 1) ∧
    { abState with inputs := [.reset true] }.engine = .idle := by decide

/-- `small` with the interrupt enabled. -/
def irqOn : State := { small with ctrl := { irqEn := true, singleOnebit := false } }

/-- Both ways of R225: a completion with the interrupt enabled, and a CTRL write that enables it; and words that write the bits. -/
theorem witness_IrqRisesOnlyByCompletionOrEnable :
    (step (running 0#32 0 [] irqOn) = .next (stepped (running 0#32 0 [] irqOn)) ∧
      (running 0#32 0 [] irqOn).nextInput ≠ some (.reset true) ∧
      (running 0#32 0 [] irqOn).busy = true ∧ (stepped (running 0#32 0 [] irqOn)).busy = false ∧
      (running 0#32 0 [] irqOn).irq = false ∧ (stepped (running 0#32 0 [] irqOn)).irq = true) ∧
    exec .nop irqOn = .next (after .nop irqOn) ∧ (2#32).getLsbD 1 = true ∧ (2#32).getLsbD 0 = false ∧
    (1#32).getLsbD 0 = true ∧
    (step { abState with inputs := [wr smallParams 0x004 1#32] } =
        .next (stepped { abState with inputs := [wr smallParams 0x004 1#32] }) ∧
      abState.irq = false ∧ (stepped { abState with inputs := [wr smallParams 0x004 1#32] }).irq = true) :=
  ⟨⟨rfl, by decide, rfl, rfl, rfl, rfl⟩, rfl, by decide, by decide, by decide, rfl, rfl, by decide +kernel⟩

/-- The three flags set. -/
def flagged : State := { small with done := true, ovr := true, accerr := true }

/-- A completion; an acceptance; a dropped write; an access of a half word; and an acknowledge: the premises of each clause. -/
theorem witness_FlagsChangeOnlyAsStated :
    ((running 0x0A#32 0 [] small).nextInput ≠ some (.reset true) ∧
      step (running 0x0A#32 0 [] small) = .next (stepped (running 0x0A#32 0 [] small)) ∧
      (running 0x0A#32 0 [] small).done = false ∧ (stepped (running 0x0A#32 0 [] small)).done = true ∧
      (running 0x0A#32 0 [] small).busy = true ∧ (stepped (running 0x0A#32 0 [] small)).busy = false ∧
      (stepped (running 0x0A#32 0 [] small)).result ≠ (running 0x0A#32 0 [] small).result) ∧
    ({ small with inputs := cmd smallParams .nop }.nextInput ≠ some (.reset true) ∧
      step { small with inputs := cmd smallParams .nop } = .next (stepped { small with inputs := cmd smallParams .nop }) ∧
      small.busy = false ∧ (stepped { small with inputs := cmd smallParams .nop }).busy = true) ∧
    ((running 7#32 1 (cmd smallParams .nop) small).nextInput ≠ some (.reset true) ∧
      step (running 7#32 1 (cmd smallParams .nop) small) = .next (stepped (running 7#32 1 (cmd smallParams .nop) small)) ∧
      small.ovr = false ∧ (stepped (running 7#32 1 (cmd smallParams .nop) small)).ovr = true) ∧
    (step { small with inputs := [.access (.read .half 0x2000000)] } =
        .next (stepped { small with inputs := [.access (.read .half 0x2000000)] }) ∧
      small.accerr = false ∧ (stepped { small with inputs := [.access (.read .half 0x2000000)] }).accerr = true) ∧
    (step { flagged with inputs := ack smallParams } = .next (stepped { flagged with inputs := ack smallParams }) ∧
      flagged.done = true ∧ (stepped { flagged with inputs := ack smallParams }).done = false ∧
      flagged.ovr = true ∧ (stepped { flagged with inputs := ack smallParams }).ovr = false ∧
      flagged.accerr = true ∧ (stepped { flagged with inputs := ack smallParams }).accerr = false) := by
  refine ⟨⟨by decide, rfl, rfl, rfl, rfl, rfl, by decide⟩, ⟨by decide, rfl, rfl, by decide +kernel⟩,
    ⟨by decide, rfl, rfl, by decide +kernel⟩, ⟨rfl, rfl, by decide +kernel⟩, rfl, rfl, by decide +kernel, rfl,
    by decide +kernel, rfl, by decide +kernel⟩

theorem witness_AcceptedCommandsComplete :
    (running 7#32 1 (cmd smallParams .nop) small).engine = .busy 7#32 small.ctrl 1 ∧ small.resetLine = false ∧
    small.engine = .idle ∧ (running 7#32 1 (cmd smallParams .nop) small).resetLine = false ∧
    (running 7#32 1 (cmd smallParams .nop) small).busy = true ∧
    AccessesOnly (running 7#32 1 (cmd smallParams .nop) small) := by
  refine ⟨rfl, rfl, rfl, rfl, rfl, fun i hi => ⟨.write .word 0x2000008 0#32, ?_, by decide⟩⟩
  simpa [running, cmd, wr, smallParams, Reg.offset, encode, opcode] using hi

theorem witness_CommandsWriteOnlyTheirOutputs : exec .encode abLoaded = .next (after .encode abLoaded) := rfl

/-- Two states that agree on what COUNT reads and differ in SRC beyond SRC_LEN and in DST. -/
theorem witness_CommandsAreFunctionsOfWhatTheyRead :
    SameOperands .count abState { abLoaded with mem := { abLoaded.mem with
      src := [(0, 0x61#8), (1, 0x62#8), (2, 0x63#8)], dst := [(0, 0#8)] } } ∧ abState.errInfo = abLoaded.errInfo ∧
    exec .count abState = .next (after .count abState) ∧ (after .count abState).result ≠ .lenRange := by
  refine ⟨⟨rfl, rfl, by decide +kernel⟩, rfl, rfl, by decide +kernel⟩

/-- Each capacity, passed by one. -/
theorem witness_OverlongInputsFaultAndChangeNothing :
    small.params.srcBytes < { small with srcLen := 5#32 }.srcLen.toNat ∧
    small.params.bitbufBits < { small with bitLen := 33#32 }.bitLen.toNat ∧
    256 < { small with canonN := 257#32 }.canonN.toNat := by decide

/-- SRC_LEN at the capacity. -/
theorem witness_CountCountsTheSource :
    (loaded [1#8, 2#8, 3#8, 4#8]).params.wf = true ∧ { small with srcLen := 4#32 }.params.wf = true ∧
    { small with srcLen := 4#32 }.srcLen.toNat ≤ { small with srcLen := 4#32 }.params.srcBytes := by decide

theorem witness_CountOrdersListByCountThenSymbol :
    exec .count abLoaded = .next (after .count abLoaded) ∧ (after .count abLoaded).result = .ok :=
  ⟨rfl, by decide +kernel⟩

/-! ### A good state with a tree, a table, a decode tree and a stream -/

theorem abState_memory : MemoryOk abState := ⟨by decide, by decide, by decide, by decide, by decide⟩

theorem abState_list : ListOk abState :=
  ⟨by decide, by decide, by decide +kernel, by decide +kernel, by decide +kernel⟩

theorem abState_treeOf : TreeOf abState.arena 2 := by
  refine ⟨by decide, by decide, by decide, ?_, ?_, by decide, by decide⟩
  · intro i hi; interval_cases i <;> exact ⟨_, _, rfl⟩
  · intro i hi hi'; interval_cases i; exact ⟨_, _, _, rfl, by decide, by decide, by decide⟩

theorem abState_tree : TreeOk abState := by
  refine ⟨by decide, (fun h => nomatch h), ?_⟩
  intro r hr; cases hr; exact ⟨2, abState_treeOf, by decide⟩

theorem twoCodes_cases {x y z : Byte} {c : Code} (h : SymTable.get (twoCodes x y) z = some c) :
    (z = y ∧ c = [true]) ∨ (z = x ∧ c = [false]) := by
  simp only [twoCodes, get_set, get_noCodes] at h
  split_ifs at h with h1 h2
  · exact .inl ⟨h1, by simpa using h.symm⟩
  · exact .inr ⟨h2, by simpa using h.symm⟩

theorem twoCodes_prefixFree (x y : Byte) : PrefixFree (twoCodes x y) := by
  intro a b ca cb hab ha hb
  rcases twoCodes_cases ha with ⟨rfl, rfl⟩ | ⟨rfl, rfl⟩ <;> rcases twoCodes_cases hb with ⟨rfl, rfl⟩ | ⟨rfl, rfl⟩ <;>
    first | exact absurd rfl hab | decide

theorem abState_codes : CodesOk abState := by
  refine ⟨twoCodes_prefixFree _ _, ?_, by decide +kernel⟩
  intro x c h
  rcases twoCodes_cases h with ⟨_, rfl⟩ | ⟨_, rfl⟩ <;> decide

theorem abState_decodeTree : DecodeTreeOk abState := by
  refine ⟨by decide, by decide, ⟨fun _ => by decide, fun _ => ⟨0, rfl⟩⟩, ?_, ?_⟩
  · intro n h; cases h; rfl
  · intro i b n hi h
    have : i = 0 := by
      have : i < 1 := hi
      omega
    subst this
    cases b <;> cases h

theorem abState_good : Good abState :=
  ⟨by decide, abState_memory, abState_list, abState_tree, abState_codes, abState_decodeTree,
    ⟨by decide, by decide⟩, ⟨by decide, by decide, by decide⟩⟩

theorem witness_BuildGivesATreeOverTheListedSymbols :
    { abState with numSyms := 0#9 }.numSyms = 0#9 ∧ abState.params.wf = true ∧ ListOk abState ∧
    0 < abState.numSyms.toNat ∧ abState.listed[1]? = some 0x62#8 :=
  ⟨rfl, by decide, abState_list, by decide, by decide⟩

theorem witness_BuildMergesTheTwoFirstInTheQueue :
    abState.params.wf = true ∧ ListOk abState ∧ exec .build abState = .next (after .build abState) ∧
    abState.numSyms.toNat ≤ 2 ∧ (after .build abState).arena[2]? = some (.internal 0 1 2#32) :=
  ⟨by decide, abState_list, rfl, by decide, by decide +kernel⟩

theorem witness_DeriveRecordsThePathToEachLeaf :
    (TreeOk small ∧ small.treeRoot = none) ∧
    (TreeOk abState ∧ abState.treeRoot = some 2#9 ∧ TreeOf abState.arena 2 ∧ 2 ≤ 2) :=
  ⟨⟨⟨by decide, fun _ => rfl, fun _ h => nomatch h⟩, rfl⟩, abState_tree, rfl, abState_treeOf, by decide⟩

theorem witness_DeriveSingleSymbolFollowsSingleOnebit :
    ({ small with node := [.leaf 0x61#8 4#32], nodeCount := 1#10, treeRoot := some 0#9 }.treeRoot = some 0#9 ∧
      { small with node := [.leaf 0x61#8 4#32], nodeCount := 1#10, treeRoot := some 0#9 }.arena[(0#9).toNat]? =
        some (Node.leaf 0x61#8 4#32)) ∧
    abState.treeRoot = some 2#9 ∧ abState.arena[(2#9).toNat]? = some (.internal 0 1 2#32) := by decide

theorem witness_DerivedTablesArePrefixFree :
    exec .derive abState = .next (after .derive abState) ∧
    exec .materialize (after .derive abState) = .next (after .materialize (after .derive abState)) ∧
    SymTable.get (after .derive { small with
      node := [.leaf 0x61#8 4#32], nodeCount := 1#10, treeRoot := some 0#9 }).code 0x61#8 = some [] :=
  ⟨rfl, rfl, by decide +kernel⟩

/-- The counts 1 and 2, and a tree of two leaves: 'b' is more frequent than 'a'. -/
def abbState : State :=
  { small with
    freq := SymTable.set (SymTable.set (Vector.replicate 256 0#32) 0x61#8 1#32) 0x62#8 2#32
    list := [0x61#8, 0x62#8]
    numSyms := 2#9 }

theorem witness_MoreFrequentSymbolsHaveNoLongerCodes :
    abbState.params.wf = true ∧ ListOk abbState ∧ exec .build abbState = .next (after .build abbState) ∧
    exec .derive (after .build abbState) = .next (after .derive (after .build abbState)) ∧
    SymTable.get (after .derive (after .build abbState)).code 0x62#8 = some [true] ∧
    SymTable.get (after .derive (after .build abbState)).code 0x61#8 = some [false] ∧
    0 < (SymTable.get abbState.freq 0x61#8).toNat ∧
    (SymTable.get abbState.freq 0x61#8).toNat < (SymTable.get abbState.freq 0x62#8).toNat :=
  ⟨by decide, ⟨by decide, by decide, by decide +kernel, by decide +kernel, by decide +kernel⟩, rfl, rfl,
    by decide +kernel, by decide +kernel, by decide +kernel, by decide +kernel⟩

/-- A prefix-free table, and one in which 'c' has the code of 'b' and is the first to collide: 'a' and 'b' lie below it. -/
theorem witness_MaterializeSucceedsExactlyOnPrefixFreeTables :
    PrefixFree abState.code ∧
    (SymTable.get (SymTable.set abState.code 0x63#8 (some [true])) 0x61#8 = some [false] ∧
      SymTable.get (SymTable.set abState.code 0x63#8 (some [true])) 0x62#8 = some [true] ∧
      (0x61#8).toNat < (0x63#8).toNat ∧ (0x62#8).toNat < (0x63#8).toNat ∧ 0x61#8 ≠ 0x62#8) ∧
    ¬ PrefixFree (SymTable.set abState.code 0x63#8 (some [true])) := by
  refine ⟨twoCodes_prefixFree _ _, by decide +kernel, fun h => h 0x62#8 0x63#8 [true] [true] (by decide) (by decide +kernel) (by decide +kernel) ?_⟩
  decide

theorem witness_MaterializedTreeSpellsTheCodes : PrefixFree abState.code ∧
    ∀ x c, SymTable.get abState.code x = some c → c.length ≤ 255 := ⟨twoCodes_prefixFree _ _, abState_codes.short⟩

theorem witness_MaterializeEmptyCodeAtTheRoot :
    (SymTable.get (SymTable.set noCodes 0x61#8 (some [])) 0x61#8 = some [] ∧
      ∀ y, y ≠ 0x61#8 → SymTable.get (SymTable.set noCodes 0x61#8 (some [])) y = none) ∧
    (SymTable.get (SymTable.set abState.code 0x63#8 (some [])) 0x63#8 = some [] ∧
      ∃ y c, y ≠ 0x63#8 ∧ SymTable.get (SymTable.set abState.code 0x63#8 (some [])) y = some c) := by
  refine ⟨⟨get_set_self _ _ _, fun y h => ?_⟩, get_set_self _ _ _, 0x61#8, [false], by decide, by decide +kernel⟩
  rw [get_set_other _ _ h, get_noCodes]

theorem witness_MaterializeIsAFunctionOfCode :
    abState.code = { small with code := abState.code }.code ∧
    exec .materialize abState = .next (after .materialize abState) ∧
    exec .materialize { small with code := abState.code } = .next (after .materialize { small with code := abState.code }) :=
  ⟨rfl, rfl, rfl⟩

theorem witness_CanonAssignsTheRunningCodes :
    (listing w1Entries).canonN.toNat ≤ 256 ∧ ((listing w1Entries).canonInput.map canonSym).Nodup ∧
    (∀ i, i < (listing w1Entries).canonN.toNat →
      1 ≤ canonLen ((listing w1Entries).canonInput.getD i 0#32) ∧
      canonLen ((listing w1Entries).canonInput.getD i 0#32) ≤ 31 ∧
      canonCode (fun i => canonLen ((listing w1Entries).canonInput.getD i 0#32)) i <
        2 ^ canonLen ((listing w1Entries).canonInput.getD i 0#32)) ∧
    0x01#8 ∉ [0x00#8] := by decide +kernel

/-- Entry `i` of `es` is `e`, and the entries before it are good. -/
abbrev goodUpTo (es : List Word) (i : Nat) (e : Word) : Prop :=
  (listing es).canonN.toNat ≤ 256 ∧ (listing es).canonInput[i]? = some e ∧
    (((listing es).canonInput.take i).map canonSym).Nodup ∧
    ∀ j, j < i →
      1 ≤ canonLen ((listing es).canonInput.getD j 0#32) ∧ canonLen ((listing es).canonInput.getD j 0#32) ≤ 31 ∧
      canonCode (fun i => canonLen ((listing es).canonInput.getD i 0#32)) j <
        2 ^ canonLen ((listing es).canonInput.getD j 0#32)

/-- A bad entry of each kind after good ones: zero length, too long, duplicate, no fit (V-K7). -/
theorem witness_CanonFaultsAtTheFirstBadEntry :
    (goodUpTo [0x101#32, 0x002#32] 1 0x002#32 ∧ canonLen 0x002#32 = 0) ∧
    (goodUpTo [0x101#32, 0x2002#32] 1 0x2002#32 ∧ 31 < canonLen 0x2002#32) ∧
    (goodUpTo [0x101#32, 0x201#32] 1 0x201#32 ∧
      canonSym 0x201#32 ∈ ((listing [0x101#32, 0x201#32]).canonInput.take 1).map canonSym) ∧
    (goodUpTo [0x101#32, 0x102#32, 0x103#32] 2 0x103#32 ∧
      2 ^ canonLen 0x103#32 ≤
        canonCode (fun i => canonLen ((listing [0x101#32, 0x102#32, 0x103#32]).canonInput.getD i 0#32)) 2) := by
  decide +kernel

theorem witness_CanonTablesArePrefixFree :
    exec .canon (listing w1Entries) = .next (after .canon (listing w1Entries)) ∧
    (after .canon (listing w1Entries)).result ≠ .lenRange ∧
    exec .materialize (after .canon (listing w1Entries)) =
      .next (after .materialize (after .canon (listing w1Entries))) :=
  ⟨rfl, by decide +kernel, rfl⟩

theorem witness_CanonConformanceVectors :
    (listing []).canonN = 0#32 ∧
    ((listing [0x103#32, 0x202#32]).canonN = 2#32 ∧
      (listing [0x103#32, 0x202#32]).canonInput = [0x103#32, 0x202#32]) ∧
    ((listing [0x100#32, 0x201#32]).canonN = 2#32 ∧
      (listing [0x100#32, 0x201#32]).canonInput = [0x100#32, 0x201#32]) ∧
    ((listing [0x10B#32, 0x200#32, 0x301#32]).canonN = 3#32 ∧
      (listing [0x10B#32, 0x200#32, 0x301#32]).canonInput = [0x10B#32, 0x200#32, 0x301#32]) ∧
    (listing w1Entries).canonN = 7#32 ∧ (listing w1Entries).canonInput = w1Entries := by decide +kernel

/-- "ab" over the table `0`, `1`, in a buffer with an old bit at position 2. -/
theorem witness_SerializeEmitsTheCodesInOrder :
    abState.params.wf = true ∧ abState.srcLen.toNat ≤ abState.params.srcBytes ∧
    (∀ b ∈ abState.source, (SymTable.get abState.code b).isSome = true) ∧
    (emittedBits abState.code abState.source).length ≤ abState.params.bitbufBits := by decide +kernel

/-- Byte 1 without a code, and byte 0 with a code of 33 bits in a buffer of 32. -/
theorem witness_SerializeFaultsAtTheFirstBadByte :
    ({ abState with code := SymTable.set noCodes 0x61#8 (some [false]) }.source[1]? = some 0x62#8 ∧
      SymTable.get (SymTable.set noCodes 0x61#8 (some [false])) 0x62#8 = none ∧
      (∀ x ∈ { abState with code := SymTable.set noCodes 0x61#8 (some [false]) }.source.take 1,
        (SymTable.get (SymTable.set noCodes 0x61#8 (some [false])) x).isSome = true) ∧
      (emittedBits (SymTable.set noCodes 0x61#8 (some [false])) [0x61#8]).length ≤ abState.params.bitbufBits) ∧
    (abState.source[0]? = some 0x61#8 ∧
      SymTable.get (SymTable.set noCodes 0x61#8 (some (List.replicate 33 true))) 0x61#8 = some (List.replicate 33 true) ∧
      abState.params.bitbufBits < 0 + (List.replicate 33 true).length) := by decide +kernel

theorem witness_BitCountIsTheSumOfCodeLengths :
    abState.params.wf = true ∧ exec .serialize abState = .next (after .serialize abState) ∧
    (after .serialize abState).result = .ok ∧ exec .encode abLoaded = .next (after .encode abLoaded) ∧
    (after .encode abLoaded).result = .ok :=
  ⟨by decide, rfl, by decide +kernel, rfl, test_encode.2.2.2.2⟩

/-- At the capacity of SRC, with a buffer that takes 255 bits a byte. -/
theorem witness_EncodeGivesTableTreeAndBits :
    abLoaded.params.wf = true ∧ abLoaded.srcLen.toNat ≤ abLoaded.params.srcBytes ∧
    255 * (loaded [0x61#8, 0x62#8]).srcLen.toNat ≤ (loaded [0x61#8, 0x62#8]).params.bitbufBits := by decide

theorem witness_EncodeIsItsFiveStepsInTurn :
    abLoaded.srcLen.toNat ≤ abLoaded.params.srcBytes ∧ abLoaded.sampledCtrl = abLoaded.ctrl ∧
    (∀ i, i < abLoaded.srcLen.toNat → (cellRead abLoaded.mem.src i).isSome = true) ∧
    ∃ a b c d e, exec .count abLoaded = .next a ∧ exec .build a = .next b ∧ exec .derive b = .next c ∧
      exec .materialize c = .next d ∧ exec .serialize d = .next e :=
  ⟨by decide, rfl, by decide, _, _, _, _, _, rfl, rfl, rfl, rfl, rfl⟩

/-- V-X8 with a tail of two bits, and without it. -/
theorem witness_DecodeEmitsTheSpelledSymbols :
    (streaming w1Tree [false, true, false, false, true, true] State.reset).params.wf = true ∧
    (streaming w1Tree [false, true, false, false, true, true] State.reset).bitLen.toNat ≤ 16777216 ∧
    (streaming w1Tree [false, true, false, false, true, true] State.reset).stream =
      [(([false] : Code), 0x01#8), ([true, false, false], 0x00#8)].flatMap Prod.fst ++ [true, true] ∧
    (∀ w ∈ [(([false] : Code), 0x01#8), ([true, false, false], 0x00#8)], follow w1Tree (.branch 0) w.1 = .leaf w.2) ∧
    follow w1Tree (.branch 0) [true, true] = .branch 3 ∧ follow w1Tree (.branch 0) [] = .branch 0 := by decide +kernel

/-- V-X10 stops at bit 4 for want of a code; a fifth symbol stops at a DST of four bytes. -/
theorem witness_DecodeFaultsAtTheFirstBadBit :
    ((streaming w1Tree [true, true, true, true, true] small).bitLen.toNat ≤ small.params.bitbufBits ∧
      (streaming w1Tree [true, true, true, true, true] small).stream =
        ([] : List (Code × Byte)).flatMap Prod.fst ++ [true, true, true, true] ++ true :: [] ∧
      follow w1Tree (.branch 0) [true, true, true, true] = .branch 6 ∧ (branchAt w1Tree 6).child true = .absent) ∧
    ((streaming w1Tree [false, false, false, false, false] small).stream =
        (List.replicate 4 (([false] : Code), 0x01#8)).flatMap Prod.fst ++ [] ++ false :: [] ∧
      (List.replicate 4 (([false] : Code), 0x01#8)).length = small.params.dstBytes ∧
      follow w1Tree (.branch 0) [] = .branch 0 ∧ (branchAt w1Tree 0).child false = .leaf 0x01#8) := by decide +kernel

theorem witness_DecodeWithoutABranchRoot :
    { small with bitLen := 1#32 }.bitLen.toNat ≤ small.params.bitbufBits ∧ small.bitLen.toNat ≤ small.params.bitbufBits ∧
    small.dtRoot = .absent ∧ { small with dtRoot := .leaf 0x61#8 }.dtRoot = .leaf 0x61#8 := by decide

/-- Two distinct symbols; and one, which SINGLE_ONEBIT decides. -/
theorem witness_DecodeOfEncodeGivesTheSourceBack :
    (abLoaded.params.wf = true ∧ abLoaded.srcLen.toNat ≤ abLoaded.params.srcBytes ∧
      abLoaded.srcLen.toNat ≤ abLoaded.params.dstBytes ∧ exec .encode abLoaded = .next (after .encode abLoaded) ∧
      (after .encode abLoaded).result = .ok ∧
      ¬ ∃ x, abLoaded.source ≠ [] ∧ ∀ y ∈ abLoaded.source, y = x) ∧
    ∃ x, (loaded [0x61#8]).source ≠ [] ∧ ∀ y ∈ (loaded [0x61#8]).source, y = x := by
  refine ⟨⟨by decide, by decide, by decide, rfl, test_encode.2.2.2.2, ?_⟩, 0x61#8, by decide, by decide⟩
  rintro ⟨x, -, h⟩
  have h1 := h 0x61#8 (by decide)
  have h2 := h 0x62#8 (by decide)
  exact absurd (h1.trans h2.symm) (by decide)

/-- The premises of the six invariants hold together, of a state with a tree, tables and a stream, and a step runs. -/
theorem witness_StepKeepsInvariants : Good { abState with inputs := cmd smallParams .decode } ∧
    step { abState with inputs := cmd smallParams .decode } =
      .next (stepped { abState with inputs := cmd smallParams .decode }) := by
  refine ⟨⟨by decide, ⟨by decide, by decide, by decide, by decide, by decide⟩,
    ⟨abState_list.atMost, abState_list.stored, abState_list.occurs, abState_list.order, abState_list.total⟩,
    ⟨abState_tree.stored, abState_tree.without, abState_tree.tree⟩,
    ⟨abState_codes.prefixFree, abState_codes.short, abState_codes.counted⟩,
    ⟨abState_decodeTree.stored, abState_decodeTree.fits, abState_decodeTree.root, abState_decodeTree.first,
      abState_decodeTree.closed⟩, ⟨by decide, by decide⟩, ⟨by decide, by decide, by decide⟩⟩, rfl⟩

theorem witness_CollisionNeverOccurs : Good abState ∧ exec .materialize abState = .next (after .materialize abState) :=
  ⟨abState_good, rfl⟩

end Sys2Proof.Tests
end

section
/-! SUPPORT. What a word access at a register's offset does, and the obligation about ID. -/

namespace Sys2Proof.Machine

/-- A word read at a register's offset answers the register, unless a command that runs may write it (R64, R69, R70). -/
theorem hostAccess_read_register (s : State) (addr : Nat) (r : Reg) (h : s.busy = false ∨ r.isOutput = false) :
    hostAccess (.read .word addr) r.offset s = { s with response := some (s.readReg r), tick := s.tick + 1 } := by
  have hv : s.hostRead r.offset = s.readReg r := by
    rcases h with h | h
    · rw [hostRead_idle s _ h, target_offset]; rfl
    · rw [hostRead_exact s _ (by rw [target_offset]; exact h), target_offset]; rfl
  rw [hostAccess_read s (supported_word r.offset_mod), hv]

/-- A word write at a register's offset is the register's write, unless it is an input of a command that runs (R64, R70). -/
theorem hostAccess_write_register (s : State) (addr : Nat) (r : Reg) (v : Word)
    (h : s.busy = false ∨ (Target.reg r).isInput = false) :
    hostAccess (.write .word addr v) r.offset s = { writeReg v s r with response := none } := by
  rw [hostAccess_write s v (supported_word r.offset_mod), hostWrite_performed s _ v (by rwa [target_offset]), target_offset]
  rfl

/-- Settles O13: ID is neither an output nor an input of a command, so both accesses reach it in either phase. -/
theorem idRegisterIsConstant : Obligations.IdRegisterIsConstant := by
  intro s addr v
  constructor
  · have hread := hostAccess_read_register s addr .id (.inr rfl)
    exact congrArg State.response hread
  · exact hostAccess_write_register s addr .id v (.inr rfl)

end Sys2Proof.Machine
end

section
/-! SUPPORT. Word accesses to the memory windows and accesses that are not supported, and the obligations of 20_memory.md. -/

namespace Sys2Proof.Machine

/-! ## Where the memory words lie in the map (R61) -/

/-- The largest capacities that R6 allows. -/
theorem capacities_le {p : Params} (h : p.wf = true) :
    p.srcBytes ≤ 0x100000 ∧ p.dstBytes ≤ 0x100000 ∧ p.bitbufBits ≤ 0x8000000 := by
  simp only [Params.wf, byteCapacityOk, bitCapacityOk, Bool.and_eq_true, decide_eq_true_eq] at h
  omega

theorem target_src_word {p : Params} {k : Nat} (hp : p.wf = true) (hk : 4 * k < p.srcBytes) :
    target p (0x200000 + 4 * k) = .src (4 * k) := by
  obtain ⟨hcap, -, -⟩ := capacities_le hp
  have hplace : (0x200000 + 4 * k) % 0x100000 = 4 * k := by omega
  rw [target_src p (by omega) (by omega) (by omega), hplace]

theorem target_dst_word {p : Params} {k : Nat} (hp : p.wf = true) (hk : 4 * k < p.dstBytes) :
    target p (0x300000 + 4 * k) = .dst (4 * k) := by
  obtain ⟨-, hcap, -⟩ := capacities_le hp
  have hplace : (0x300000 + 4 * k) % 0x100000 = 4 * k := by omega
  rw [target_dst p (by omega) (by omega) (by omega), hplace]

theorem target_bitbuf_word {p : Params} {k : Nat} (hp : p.wf = true) (hk : 32 * k < p.bitbufBits) :
    target p (0x1000000 + 4 * k) = .bitbuf (32 * k) := by
  obtain ⟨-, -, hcap⟩ := capacities_le hp
  have hplace : 8 * ((0x1000000 + 4 * k) % 0x1000000) = 32 * k := by omega
  rw [target_bitbuf p (by omega) (by omega) (by omega), hplace]

theorem target_canon_entry (p : Params) {i : Nat} (hi : i < 256) : target p (0x1800 + 4 * i) = .canon i := by
  have hplace : (0x1800 + 4 * i) % 0x400 / 4 = i := by omega
  rw [target_canon p (by omega) (by omega), hplace]

/-! ## Accesses at a target (R62, R64, R69, R70) -/

section
variable {s : State} {off : Nat} {t : Target} (ht : target s.params off = t) (h4 : off % 4 = 0)
include ht h4

/-- What a word read answers where the map names a target of known value, unless a running command may write it. -/
theorem hostAccess_read_target (addr : Nat) (h : s.busy = false ∨ t.isOutput = false) {v : Word}
    (hv : s.readTarget t = some v) : (hostAccess (.read .word addr) off s).response = some v := by
  have hread : s.hostRead off = v := by
    rcases h with h | h
    · rw [hostRead_idle s off h, ht, hv]; rfl
    · rw [hostRead_exact s off (by rw [ht]; exact h), ht, hv]; rfl
  rw [hostAccess_read s (supported_word h4), hread]

/-- A word write while IDLE is the target's write. -/
theorem hostAccess_write_target (addr : Nat) (hidle : s.engine = .idle) (v : Word) :
    hostAccess (.write .word addr v) off s = { writeTarget v s t with response := none } := by
  rw [hostAccess_write s v (supported_word h4),
    hostWrite_performed s off v (.inl ((not_busy_iff s).mpr hidle)), ht]

end

theorem supported_eq_false {w : Width} {off : Nat} (h : w ≠ .word ∨ off % 4 ≠ 0) : supported w off = false := by
  rcases h with h | h <;> simp [supported, h]

theorem hostAccess_read_unsupported (s : State) {w : Width} (addr : Nat) {off : Nat} (h : supported w off = false) :
    hostAccess (.read w addr) off s = { s with accerr := true, response := some 0#32 } := by
  simp [hostAccess, h]

theorem hostAccess_write_unsupported (s : State) {w : Width} (addr : Nat) {off : Nat} (v : Word)
    (h : supported w off = false) :
    hostAccess (.write w addr v) off s = { s with accerr := true, response := none } := by
  simp [hostAccess, h]

/-- Settles O11: neither access is supported, and both then take the flag's branch. -/
theorem unsupportedAccessOnlySetsAccerr : Obligations.UnsupportedAccessOnlySetsAccerr := by
  intro s w addr off v h
  have hu := supported_eq_false h
  exact ⟨hostAccess_read_unsupported s addr hu, hostAccess_write_unsupported s addr v hu⟩

/-! ## Lanes (R65, R66) -/

/-- Lane `j` of a word made of bytes is byte `j`. -/
theorem extractLsb'_wordOfBytes (f : Nat → Byte) {j : Nat} (hj : j < 4) :
    (wordOfBytes (f 0) (f 1) (f 2) (f 3)).extractLsb' (8 * j) 8 = f j := by
  have lane {n : Nat} (upper : BitVec n) (low : Byte) (start : Nat) :
      (upper ++ low).extractLsb' (start + 8) 8 = upper.extractLsb' start 8 := by
    rw [BitVec.extractLsb'_append_eq_of_le (by omega), Nat.add_sub_cancel]
  unfold wordOfBytes
  obtain rfl | rfl | rfl | rfl : j = 0 ∨ j = 1 ∨ j = 2 ∨ j = 3 := by omega
  · exact BitVec.extractLsb'_append_eq_right
  · exact (lane _ _ 0).trans BitVec.extractLsb'_append_eq_right
  · exact (lane _ _ 8).trans <| (lane _ _ 0).trans BitVec.extractLsb'_append_eq_right
  · exact (lane _ _ 16).trans <| (lane _ _ 8).trans BitVec.extractLsb'_append_eq_left

theorem length_bytesOfWord (v : Word) : (bytesOfWord v).length = 4 := rfl

theorem getElem?_bytesOfWord (v : Word) {j : Nat} (hj : j < 4) :
    (bytesOfWord v)[j]? = some (v.extractLsb' (8 * j) 8) := by
  obtain rfl | rfl | rfl | rfl : j = 0 ∨ j = 1 ∨ j = 2 ∨ j = 3 := by omega
  all_goals rfl

theorem testBit_natOfBits (bs : List Bool) (j : Nat) : (natOfBits bs).testBit j = (bs[j]?).getD false := by
  induction bs generalizing j with
  | nil => simp [natOfBits]
  | cons b bs ih =>
    cases j with
    | zero => cases b <;> simp [natOfBits]
    | succ j =>
      have hhalf : (b.toNat + 2 * natOfBits bs) / 2 = natOfBits bs := by cases b <;> simp; omega
      rw [natOfBits, Nat.testBit_succ, hhalf, ih, List.getElem?_cons_succ]

/-- Bit `j` of a word made of bits is bit `j` of the list, 0 beyond its end. -/
theorem getLsbD_wordOfBits (bs : List Bool) {j : Nat} (hj : j < 32) :
    (wordOfBits bs).getLsbD j = (bs[j]?).getD false := by
  rw [wordOfBits, BitVec.getLsbD_ofNat, testBit_natOfBits]
  simp [hj]

theorem length_bitsOfWord (v : Word) : (bitsOfWord v).length = 32 := by simp [bitsOfWord]

theorem getElem?_bitsOfWord (v : Word) {j : Nat} (hj : j < 32) : (bitsOfWord v)[j]? = some (v.getLsbD j) := by
  simp [bitsOfWord, hj]

section
variable {α : Type} (m : List (Nat × α)) (a : Nat) (vs : List α)

theorem cellRead_cellsWrite_inside {j : Nat} (hj : j < vs.length) : cellRead (cellsWrite m a vs) (a + j) = vs[j]? := by
  rw [cellRead_cellsWrite, if_pos (by omega), Nat.add_sub_cancel_left]

theorem cellRead_cellsWrite_outside {i : Nat} (hi : i < a ∨ a + vs.length ≤ i) :
    cellRead (cellsWrite m a vs) i = cellRead m i := by
  rw [cellRead_cellsWrite, if_neg (by omega)]

end

/-! ## Word accesses to the memories -/

/-- A SRC word reads as its four bytes in either phase: no command writes SRC (R70). -/
theorem hostAccess_read_src (s : State) (addr : Nat) {k : Nat} (hp : s.params.wf = true) (hk : 4 * k < s.params.srcBytes) :
    ∃ w, (hostAccess (.read .word addr) (0x200000 + 4 * k) s).response = some w ∧
      ∀ j, j < 4 → w.extractLsb' (8 * j) 8 = s.srcByte (4 * k + j) :=
  ⟨_, hostAccess_read_target (target_src_word hp hk) (by omega) addr (.inr rfl) rfl,
    fun _ hj => extractLsb'_wordOfBytes (fun j => s.srcByte (4 * k + j)) hj⟩

theorem hostAccess_read_dst (s : State) (addr : Nat) {k : Nat} (hp : s.params.wf = true) (hidle : s.engine = .idle)
    (hk : 4 * k < s.params.dstBytes) :
    ∃ w, (hostAccess (.read .word addr) (0x300000 + 4 * k) s).response = some w ∧
      ∀ j, j < 4 → w.extractLsb' (8 * j) 8 = s.dstByte (4 * k + j) :=
  ⟨_, hostAccess_read_target (target_dst_word hp hk) (by omega) addr (.inl ((not_busy_iff s).mpr hidle)) rfl,
    fun _ hj => extractLsb'_wordOfBytes (fun j => s.dstByte (4 * k + j)) hj⟩

theorem hostAccess_read_bitbuf (s : State) (addr : Nat) {k : Nat} (hp : s.params.wf = true) (hidle : s.engine = .idle)
    (hk : 32 * k < s.params.bitbufBits) :
    ∃ w, (hostAccess (.read .word addr) (0x1000000 + 4 * k) s).response = some w ∧
      ∀ j, j < 32 → w.getLsbD j = s.bit (32 * k + j) := by
  refine ⟨_, hostAccess_read_target (target_bitbuf_word hp hk) (by omega) addr (.inl ((not_busy_iff s).mpr hidle)) rfl, ?_⟩
  intro j hj
  rw [getLsbD_wordOfBits _ hj]
  simp [hj]

theorem hostAccess_write_src (s : State) (addr : Nat) {k : Nat} (v : Word) (hp : s.params.wf = true)
    (hidle : s.engine = .idle) (hk : 4 * k < s.params.srcBytes) :
    hostAccess (.write .word addr v) (0x200000 + 4 * k) s =
      { s with mem := { s.mem with src := cellsWrite s.mem.src (4 * k) (bytesOfWord v) }, response := none } := by
  rw [hostAccess_write_target (target_src_word hp hk) (by omega) addr hidle v, writeTarget]

theorem hostAccess_write_bitbuf (s : State) (addr : Nat) {k : Nat} (v : Word) (hp : s.params.wf = true)
    (hidle : s.engine = .idle) (hk : 32 * k < s.params.bitbufBits) :
    hostAccess (.write .word addr v) (0x1000000 + 4 * k) s =
      { s with mem := { s.mem with bitbuf := cellsWrite s.mem.bitbuf (32 * k) (bitsOfWord v) }, response := none } := by
  rw [hostAccess_write_target (target_bitbuf_word hp hk) (by omega) addr hidle v, writeTarget]

theorem hostAccess_write_canon (s : State) (addr : Nat) {i : Nat} (v : Word) (hidle : s.engine = .idle) (hi : i < 256) :
    hostAccess (.write .word addr v) (0x1800 + 4 * i) s =
      { s with mem := { s.mem with canon := cellWrite s.mem.canon i v }, response := none } := by
  rw [hostAccess_write_target (target_canon_entry s.params hi) (by omega) addr hidle v, writeTarget]

/-- Settles O15: each word lies at its target of the map; a write there is a write of four lanes (or of one CANON cell), and a
read there collects the lanes again. -/
theorem memoryWindowsStoreTheirLanes : Obligations.MemoryWindowsStoreTheirLanes := by
  refine ⟨?srcWrite, ?srcRead, ?dstRead, ?canonRead, ?canonWrite⟩
  case srcWrite =>
    intro s addr k v hp hidle hk
    have hwrite := hostAccess_write_src s addr v hp hidle hk
    have hbytes : (hostAccess (.write .word addr v) (0x200000 + 4 * k) s).mem.src =
        cellsWrite s.mem.src (4 * k) (bytesOfWord v) := by rw [hwrite]
    have hlen := length_bytesOfWord v
    rw [hbytes]
    refine ⟨fun j hj => ?_, fun i hi => ?_, hwrite⟩
    · rw [cellRead_cellsWrite_inside _ _ _ (by omega), getElem?_bytesOfWord v hj]
    · rw [cellRead_cellsWrite_outside _ _ _ (by omega)]
  case srcRead => exact fun s addr k hp hk => hostAccess_read_src s addr hp hk
  case dstRead => exact fun s addr k hp hidle hk => hostAccess_read_dst s addr hp hidle hk
  case canonRead =>
    intro s addr i hi
    exact hostAccess_read_target (target_canon_entry s.params hi) (by omega) addr (.inr rfl) rfl
  case canonWrite =>
    intro s addr i v hidle hi
    rw [hostAccess_write_canon s addr v hidle hi]
    exact ⟨cellRead_cellWrite_self _ i v, fun j hj => cellRead_cellWrite_other _ v hj, rfl⟩

/-- Settles O16: word `k` lies at bits `32k` to `32k + 31`; a write there is a write of the word's bits, bit 0 first, and a read
there collects them in that order. -/
theorem bitbufWordsAreLeastSignificantBitFirst : Obligations.BitbufWordsAreLeastSignificantBitFirst := by
  intro s addr k hp hidle hk
  refine ⟨hostAccess_read_bitbuf s addr hp hidle hk, fun v => ?_⟩
  have hwrite := hostAccess_write_bitbuf s addr v hp hidle hk
  have hbits : (hostAccess (.write .word addr v) (0x1000000 + 4 * k) s).mem.bitbuf =
      cellsWrite s.mem.bitbuf (32 * k) (bitsOfWord v) := by rw [hwrite]
  have hlen := length_bitsOfWord v
  rw [hbits]
  refine ⟨fun j hj => ?_, fun i hi => ?_, hwrite⟩
  · rw [cellRead_cellsWrite_inside _ _ _ (by omega), getElem?_bitsOfWord v hj]
  · rw [cellRead_cellsWrite_outside _ _ _ (by omega)]

end Sys2Proof.Machine
end

section
/-! SUPPORT. Illegal command words, the words of table entries and where they lie in the map, and the obligations of
30_encoding.md. -/

namespace Sys2Proof.Machine

/-! ## Illegal command words (R92) -/

theorem encode_fields (i : Instr) :
    ((encode i).extractLsb' 0 8).toNat < 0x0A ∧ (encode i).extractLsb' 8 24 = 0#24 := by cases i <;> decide

/-- A word with OP outside the table or a bit above OP is no command's word (R90 to R92). -/
theorem decode_illegal {w : Word} (h : 0x0A ≤ (w.extractLsb' 0 8).toNat ∨ w.extractLsb' 8 24 ≠ 0#24) :
    decode w = .illegalCmd w := by
  obtain ⟨i, rfl, -⟩ | ⟨-, hdecode⟩ := decode_cases w
  · obtain ⟨hop, hmbz⟩ := encode_fields i
    rcases h with h | h
    · omega
    · exact absurd hmbz h
  · exact hdecode

theorem latency_illegal (s : State) {w : Word} (h : decode w = .illegalCmd w) : s.latency w = 0 := by
  simp [State.latency, h]

theorem runCommand_illegal (s : State) {w : Word} (h : decode w = .illegalCmd w) :
    runCommand w s = .next (raise .illegalCmd w s) := by
  simp [runCommand, h, illegalCommand]

/-- A CMD write while IDLE is an acceptance (R26). -/
theorem hostAccess_write_cmd {s : State} (addr : Nat) (w : Word) (hidle : s.engine = .idle) :
    hostAccess (.write .word addr w) 0x008 s = { accept w s with response := none } :=
  hostAccess_write_register s addr .cmd w (.inl ((not_busy_iff s).mpr hidle))

/-- Settles O3: such a word is no command's, so its latency is 0 and the next step is the completion of an illegal word. -/
theorem illegalWordFinishesAtOnce : Obligations.IllegalWordFinishesAtOnce := by
  intro s addr w h
  have hdecode := decode_illegal h
  refine ⟨hdecode, fun hidle => ?_⟩
  have haccept := hostAccess_write_cmd addr w hidle
  have hengine : (hostAccess (.write .word addr w) 0x008 s).engine = .busy w s.ctrl 0 := by
    rw [haccept, ← latency_illegal s hdecode]
    rfl
  refine ⟨hengine, ?_⟩
  rw [step_due hengine (.inl rfl), runCommand_illegal _ hdecode, haccept, hidle]
  rfl

/-! ## Reads while IDLE -/

/-- What a word read while IDLE answers where the map names a target of known value (R64). -/
theorem hostAccess_read_idle {s : State} {off : Nat} {t : Target} {v : Word} (addr : Nat) (hidle : s.engine = .idle)
    (ht : target s.params off = t) (h4 : off % 4 = 0) (hv : s.readTarget t = some v) :
    (hostAccess (.read .word addr) off s).response = some v :=
  hostAccess_read_target ht h4 addr (.inl ((not_busy_iff s).mpr hidle)) hv

/-! ## CODE entries (R98) -/

theorem target_code_word (p : Params) (x : Byte) {k : Nat} (hk : k < 16) :
    target p (0x4000 + 64 * x.toNat + 4 * k) = .code x k := by
  have hx := x.isLt
  have hentry : (0x4000 + 64 * x.toNat + 4 * k) % 0x4000 / 64 = x.toNat := by omega
  have hword : (0x4000 + 64 * x.toNat + 4 * k) % 64 / 4 = k := by omega
  rw [target_code p (by omega) (by omega), hentry, hword, BitVec.ofNat_toNat, BitVec.setWidth_eq]

theorem codeWord_value (c : Code) {k : Nat} (hk : k < 8) :
    codeWord (some c) (1 + k) = BitVec.ofNat 32 (codeValue c >>> (32 * k)) := by
  have h8 : 1 + k ≤ 8 := by omega
  simp [codeWord, h8]

/-- Words 1 to 8 hold the code's number, its least significant bit first. -/
theorem getLsbD_codeWord_value (c : Code) {i : Nat} (hi : i < 256) :
    (codeWord (some c) (1 + i / 32)).getLsbD (i % 32) = (codeValue c).testBit i := by
  have hplace : 32 * (i / 32) + i % 32 = i := Nat.div_add_mod i 32
  have hbit : i % 32 < 32 := Nat.mod_lt i (by decide)
  rw [codeWord_value c (by omega), BitVec.getLsbD_ofNat, Nat.testBit_shiftRight, hplace]
  simp [hbit]

theorem codeWord_above (c : Code) {k : Nat} (hk : 9 ≤ k) : codeWord (some c) k = 0#32 := by
  have h0 : k ≠ 0 := by omega
  have h8 : ¬ k ≤ 8 := by omega
  simp [codeWord, h0, h8]

theorem codeWord_zero (c : Code) (hc : c.length ≤ 255) :
    codeWord (some c) 0 = 0x80000000#32 ||| BitVec.ofNat 32 c.length := by
  have hlen : (BitVec.ofNat 8 c.length).setWidth 32 = BitVec.ofNat 32 c.length :=
    BitVec.setWidth_ofNat_of_le_of_lt (by decide) (by omega)
  simp [codeWord, hlen]

/-- Settles O4: bit `i` of VALUE is the code's bit `i` from its end, and words 1 to 8 hold VALUE's bits in order. -/
theorem codeEntryWordsHoldTheCode : Obligations.CodeEntryWordsHoldTheCode := by
  refine ⟨?read, fun _ => rfl, fun c hc => ⟨codeWord_zero c hc, ?value, ?padding, fun _ => codeWord_above c⟩⟩
  case read =>
    intro s addr x k hidle hk
    exact hostAccess_read_idle addr hidle (target_code_word s.params x hk) (by omega) rfl
  case value =>
    intro j hj
    have hplace : c.length - 1 - (c.length - 1 - j) = j := by omega
    rw [getLsbD_codeWord_value c (by omega), testBit_codeValue, if_pos (by omega), hplace]
  case padding =>
    intro i hlow hi
    rw [getLsbD_codeWord_value c hi, testBit_codeValue, if_neg (by omega)]

/-! ## Fields of table words (R96, R97, R99) -/

section
variable {n : Nat} (x : BitVec n)

theorem extractLsb'_setWidth_field (h : n ≤ 32) : (x.setWidth 32).extractLsb' 0 n = x := by
  rw [BitVec.extractLsb'_setWidth_of_le (by omega), BitVec.extractLsb'_eq_self]

theorem extractLsb'_setWidth_above {start len : Nat} (h : n ≤ start) :
    (x.setWidth 32).extractLsb' start len = 0#len := by
  apply BitVec.eq_of_getLsbD_eq
  intro i hi
  rw [BitVec.getLsbD_extractLsb', BitVec.getLsbD_setWidth, BitVec.getLsbD_of_ge x _ (by omega)]
  simp

end

section
variable (w : Word) {k start len : Nat}

theorem extractLsb'_shiftLeft_inside (hk : k ≤ start) (h : start + len ≤ 32) :
    (w <<< k).extractLsb' start len = w.extractLsb' (start - k) len := by
  apply BitVec.eq_of_getLsbD_eq
  intro i hi
  have hinside : start + i < 32 ∧ ¬ start + i < k := by omega
  have hplace : start + i - k = start - k + i := by omega
  rw [BitVec.getLsbD_extractLsb', BitVec.getLsbD_shiftLeft, BitVec.getLsbD_extractLsb', hplace]
  simp [hinside]

theorem extractLsb'_shiftLeft_below (h : start + len ≤ k) : (w <<< k).extractLsb' start len = 0#len := by
  apply BitVec.eq_of_getLsbD_eq
  intro i hi
  have hbelow : start + i < k := by omega
  simp [hbelow]

end

/-- The fields of word 0 of an internal NODE entry, and zeros between them (R97). -/
theorem internal_word0_fields (a b : Nat) (p : Word) :
    (Node.internal a b p).word0.extractLsb' 31 1 = 1#1 ∧
    (Node.internal a b p).word0.extractLsb' 0 9 = BitVec.ofNat 9 a ∧
    (Node.internal a b p).word0.extractLsb' 16 9 = BitVec.ofNat 9 b ∧
    (Node.internal a b p).word0.extractLsb' 9 7 = 0#7 ∧ (Node.internal a b p).word0.extractLsb' 25 6 = 0#6 := by
  simp only [Node.word0, BitVec.extractLsb'_or]
  refine ⟨?valid, ?left, ?right, ?zeros, ?zeros'⟩
  case valid | zeros' =>
    rw [extractLsb'_setWidth_above _ (by decide), extractLsb'_shiftLeft_inside _ (by decide) (by decide),
      extractLsb'_setWidth_above _ (by decide)]
    decide
  case left =>
    rw [extractLsb'_setWidth_field _ (by decide), extractLsb'_shiftLeft_below _ (by decide)]
    simp
  case right =>
    rw [extractLsb'_setWidth_above _ (by decide), extractLsb'_shiftLeft_inside _ (by decide) (by decide),
      extractLsb'_setWidth_field _ (by decide)]
    simp
  case zeros =>
    rw [extractLsb'_setWidth_above _ (by decide), extractLsb'_shiftLeft_below _ (by decide)]
    decide

/-- KIND and VALUE of a descriptor's word (R99). -/
theorem branch_toWord_fields (i : Nat) :
    (Desc.branch i).toWord.extractLsb' 0 16 = BitVec.ofNat 16 i ∧ (Desc.branch i).toWord.extractLsb' 16 16 = 1#16 := by
  simp only [Desc.toWord, BitVec.extractLsb'_or]
  rw [extractLsb'_setWidth_field _ (by decide), extractLsb'_setWidth_above _ (by decide)]
  simp

theorem leaf_toWord_fields (x : Byte) :
    (Desc.leaf x).toWord.extractLsb' 0 16 = x.setWidth 16 ∧ (Desc.leaf x).toWord.extractLsb' 16 16 = 2#16 := by
  have hvalue : (x.setWidth 32).extractLsb' 0 16 = x.setWidth 16 := by
    rw [← BitVec.setWidth_eq_extractLsb' (by decide), BitVec.setWidth_setWidth_of_le x (by decide)]
  simp only [Desc.toWord, BitVec.extractLsb'_or]
  rw [hvalue, extractLsb'_setWidth_above x (by decide)]
  simp

/-! ## Table entries through the window (R61, R96, R97, R99) -/

theorem target_freq_entry (p : Params) (x : Byte) : target p (0x1000 + 4 * x.toNat) = .freq x := by
  have hx := x.isLt
  have hplace : (0x1000 + 4 * x.toNat) % 0x400 / 4 = x.toNat := by omega
  rw [target_freq p (by omega) (by omega), hplace, BitVec.ofNat_toNat, BitVec.setWidth_eq]

theorem target_list_entry (p : Params) {i : Nat} (hi : i < 256) : target p (0x1400 + 4 * i) = .list i := by
  have hplace : (0x1400 + 4 * i) % 0x400 / 4 = i := by omega
  rw [target_list p (by omega) (by omega), hplace]

theorem target_node_word0 (p : Params) {i : Nat} (hi : i < 511) : target p (0x2000 + 8 * i) = .node i false := by
  have hplace : (0x2000 + 8 * i) % 0x1000 / 8 = i := by omega
  have hhalf : (0x2000 + 8 * i) % 8 = 0 := by omega
  rw [target_node p (by omega) (by omega), hplace, hhalf]
  rfl

theorem target_node_word1 (p : Params) {i : Nat} (hi : i < 511) : target p (0x2000 + 8 * i + 4) = .node i true := by
  have hplace : (0x2000 + 8 * i + 4) % 0x1000 / 8 = i := by omega
  have hhalf : (0x2000 + 8 * i + 4) % 8 = 4 := by omega
  rw [target_node p (by omega) (by omega), hplace, hhalf]
  rfl

theorem target_dt_child0 (p : Params) {i : Nat} (hi : i < 65536) : target p (0x100000 + 8 * i) = .dt i false := by
  have hplace : (0x100000 + 8 * i) % 0x80000 / 8 = i := by omega
  have hhalf : (0x100000 + 8 * i) % 8 = 0 := by omega
  rw [target_dt p (by omega) (by omega), hplace, hhalf]
  rfl

theorem target_dt_child1 (p : Params) {i : Nat} (hi : i < 65536) : target p (0x100000 + 8 * i + 4) = .dt i true := by
  have hplace : (0x100000 + 8 * i + 4) % 0x80000 / 8 = i := by omega
  have hhalf : (0x100000 + 8 * i + 4) % 8 = 4 := by omega
  rw [target_dt p (by omega) (by omega), hplace, hhalf]
  rfl

theorem validEntry_eq_some {α : Type} {l : List α} {n i : Nat} {x : α} (hi : i < n) (hx : l[i]? = some x) :
    validEntry l n i = some x := by
  rw [validEntry, if_pos hi, hx]

section
variable (s : State) (addr : Nat) (hidle : s.engine = .idle)
include hidle

theorem hostAccess_read_freq (x : Byte) :
    (hostAccess (.read .word addr) (0x1000 + 4 * x.toNat) s).response = some (SymTable.get s.freq x) :=
  hostAccess_read_idle addr hidle (target_freq_entry s.params x) (by omega) rfl

theorem hostAccess_read_list {i : Nat} {y : Byte} (hi : i < 256) (hvalid : i < s.numSyms.toNat) (hy : s.list[i]? = some y) :
    (hostAccess (.read .word addr) (0x1400 + 4 * i) s).response = some (listWord y) := by
  refine hostAccess_read_idle addr hidle (target_list_entry s.params hi) (by omega) ?_
  rw [State.readTarget, validEntry_eq_some hvalid hy]
  rfl

theorem hostAccess_read_node {i : Nat} {n : Node} (hi : i < 511) (hvalid : i < s.nodeCount.toNat)
    (hn : s.node[i]? = some n) :
    (hostAccess (.read .word addr) (0x2000 + 8 * i) s).response = some n.word0 ∧
    (hostAccess (.read .word addr) (0x2000 + 8 * i + 4) s).response = some n.prio := by
  have hword (high : Bool) : s.readTarget (.node i high) = some (if high then n.prio else n.word0) := by
    rw [State.readTarget, validEntry_eq_some hvalid hn]
    rfl
  exact ⟨hostAccess_read_idle addr hidle (target_node_word0 s.params hi) (by omega) (hword false),
    hostAccess_read_idle addr hidle (target_node_word1 s.params hi) (by omega) (hword true)⟩

theorem hostAccess_read_dt {i : Nat} {b : Branch} (hi : i < 65536) (hvalid : i < s.dtNodes.toNat)
    (hb : s.dt[i]? = some b) :
    (hostAccess (.read .word addr) (0x100000 + 8 * i) s).response = some b.child0.toWord ∧
    (hostAccess (.read .word addr) (0x100000 + 8 * i + 4) s).response = some b.child1.toWord := by
  have hword (high : Bool) : s.readTarget (.dt i high) = some (if high then b.child1.toWord else b.child0.toWord) := by
    rw [State.readTarget, validEntry_eq_some hvalid hb]
    rfl
  exact ⟨hostAccess_read_idle addr hidle (target_dt_child0 s.params hi) (by omega) (hword false),
    hostAccess_read_idle addr hidle (target_dt_child1 s.params hi) (by omega) (hword true)⟩

end

/-- Settles O5: each valid entry lies at its target of the map, and each field of a word lies in one of its parts, where
the others are 0. -/
theorem tableEntriesReadThroughTheWindow : Obligations.TableEntriesReadThroughTheWindow := by
  refine ⟨?reads, ?list, ?leaf, ?internal, rfl, ?branch, leaf_toWord_fields⟩
  case reads =>
    intro s addr hidle
    exact ⟨hostAccess_read_freq s addr hidle, fun i y => hostAccess_read_list s addr hidle,
      fun i n => hostAccess_read_node s addr hidle, fun i b => hostAccess_read_dt s addr hidle⟩
  case list => exact fun x => ⟨extractLsb'_setWidth_field x (by decide), extractLsb'_setWidth_above x (by decide)⟩
  case leaf => exact fun x p => ⟨extractLsb'_setWidth_field x (by decide), extractLsb'_setWidth_above x (by decide), rfl⟩
  case internal =>
    intro a b p ha hb
    obtain ⟨hvalid, hleft, hright, hzeros, hzeros'⟩ := internal_word0_fields a b p
    rw [hleft, hright, BitVec.toNat_ofNat, BitVec.toNat_ofNat]
    exact ⟨hvalid, Nat.mod_eq_of_lt ha, Nat.mod_eq_of_lt hb, hzeros, hzeros', rfl⟩
  case branch =>
    intro i hi
    obtain ⟨hvalue, hkind⟩ := branch_toWord_fields i
    rw [hvalue, BitVec.toNat_ofNat]
    exact ⟨Nat.mod_eq_of_lt hi, hkind⟩

end Sys2Proof.Machine
end

section
/-! SUPPORT. What NOP and CLEAR leave, and the obligations of 40_control.md. -/

namespace Sys2Proof.Machine

/-- NOP's body is empty: only the completion step acts (R120). -/
theorem exec_nop (s : State) : exec .nop s = .next (finish .ok s) := exec_eq .nop s

/-- CLEAR never faults: its body and the completion step give the next state (R121). -/
theorem exec_clear (s : State) : exec .clear s = .next (clearBody s).complete := exec_eq .clear s

theorem clear_resets_tables (s : State) (x : Byte) :
    SymTable.get (clearBody s).complete.freq x = 0#32 ∧ SymTable.get (clearBody s).complete.code x = none :=
  ⟨get_replicate 0#32 x, get_noCodes x⟩

theorem clear_keeps_host_state (s : State) :
    (clearBody s).complete.mem = s.mem ∧ (clearBody s).complete.srcLen = s.srcLen ∧
    (clearBody s).complete.bitLen = s.bitLen ∧ (clearBody s).complete.bitCursor = s.bitCursor ∧
    (clearBody s).complete.canonN = s.canonN ∧ (clearBody s).complete.ctrl = s.ctrl ∧
    (clearBody s).complete.ovr = s.ovr ∧ (clearBody s).complete.accerr = s.accerr := by
  simp [clearBody]

theorem clear_keeps_entries (s : State) :
    (clearBody s).complete.list = s.list ∧ (clearBody s).complete.node = s.node ∧ (clearBody s).complete.dt = s.dt := by
  simp [clearBody]

/-- Settles O26: the state NOP leaves is that of the completion step, which writes STATUS and the phase alone. -/
theorem nopOnlyCompletes : Obligations.NopOnlyCompletes :=
  ⟨decode_encode .nop, exec_nop⟩

/-- Settles O27: the tables are read back at each symbol; the counts and everything kept are fields of the one state that
CLEAR leaves. -/
theorem clearDiscardsDerivedState : Obligations.ClearDiscardsDerivedState := by
  refine ⟨decode_encode .clear, fun s => ⟨(clearBody s).complete, exec_clear s, ?_⟩⟩
  obtain ⟨hmem, hsrcLen, hbitLen, hbitCursor, hcanonN, hctrl, hovr, haccerr⟩ := clear_keeps_host_state s
  have hresult : (clearBody s).complete.result = .ok := rfl
  have herrInfo : (clearBody s).complete.errInfo = s.errInfo := rfl
  exact ⟨hresult, complete_done _, herrInfo, clear_resets_tables s, rfl, rfl, rfl, rfl, rfl, rfl, rfl, rfl,
    hmem, hsrcLen, hbitLen, hbitCursor, hcanonN, hctrl, hovr, haccerr, clear_keeps_entries s⟩

end Sys2Proof.Machine
end

section
/-! SUPPORT. What COUNT and BUILD leave once complete, how an arena's merges split at a node, and the obligations of
41_count_build.md. -/

namespace Sys2Proof.Machine

/-! ## COUNT (R131) -/

/-- The completion step writes STATUS and the phase, none of the derived state (R221). -/
theorem keepsDerived_finish (code : ResultCode) (s : State) : KeepsDerived s (finish code s) := by
  constructor <;> rfl

/-- Settles O29: a COUNT that ends with OK was not turned away, and the completion step keeps the LIST it left. -/
theorem countOrdersListByCountThenSymbol : Obligations.CountOrdersListByCountThenSymbol := by
  intro s t hexec hok
  obtain rfl : t = (countBody s).complete := exec_next hexec
  rcases countBody_cases s with ⟨-, hbody⟩ | ⟨hlen, u, hbody, hcounted, -⟩
  · rw [hbody] at hok
    cases hok
  · rw [hbody]
    exact (keepsDerived_finish .ok u).listOk (hcounted.listOk hlen)

/-! ## The tree BUILD leaves (R132) -/

theorem Built.finish {s t : State} {r : BitVec 9} (h : Built s t r) (code : ResultCode) :
    Built s (finish code t) r :=
  ⟨h.root, h.rootIndex, h.count, h.stored, h.tree, h.leaves, h.total, h.order⟩

/-- A complete BUILD leaves no tree and an empty arena, or the tree over LIST. -/
theorem exec_build_cases {s t : State} (hw : s.params.wf = true) (hl : ListOk s) (h : exec .build s = .next t) :
    (t.treeRoot = none ∧ t.arena = []) ∨ ∃ r, Built s t r := by
  obtain rfl : t = (buildBody s).complete := exec_next h
  rcases buildBody_cases hl hw with ⟨-, hbody⟩ | ⟨-, u, r, hbody, hbuilt, -⟩
  · rw [hbody]
    exact .inl ⟨rfl, List.take_zero⟩
  · rw [hbody]
    exact .inr ⟨r, hbuilt.finish .ok⟩

/-- A leaf's priority is its symbol's count. -/
theorem Built.leaf_prio {s t : State} {r : BitVec 9} (hb : Built s t r) (hl : ListOk s) {i : Nat} {x : Byte} {p : Word}
    (hi : t.arena[i]? = some (.leaf x p)) : p = SymTable.get s.freq x := by
  rcases hb.tree.entry hi with ⟨him, -⟩ | ⟨-, -, a, b, w, hinternal, -⟩
  · rw [← hl.length] at him
    have hlisted := hb.leaves i _ (List.getElem?_eq_getElem him)
    rw [hi] at hlisted
    cases hlisted
    rfl
  · cases hinternal

theorem Built.prioOf_leaf {s t : State} {r : BitVec 9} (hb : Built s t r) (hl : ListOk s) {i : Nat} {x : Byte} {p : Word}
    (hi : t.arena[i]? = some (.leaf x p)) : prioOf t.arena i = (SymTable.get s.freq x).toNat := by
  rw [← hb.leaf_prio hl hi, prioOf, hi]
  rfl

/-! ## Merges (R133, R134) -/

/-- The nodes taken off the queue in all: those taken before a node was made, its own two, and those taken after. -/
theorem kids_split {nodes : List Node} {k a b : Nat} {p : Word} (hk : nodes[k]? = some (.internal a b p)) :
    kids nodes = kids (nodes.take k) ++ a :: b :: kids (nodes.drop (k + 1)) := by
  obtain ⟨hlt, hnode⟩ := List.getElem?_eq_some_iff.mp hk
  calc kids nodes = kids (nodes.take k ++ .internal a b p :: nodes.drop (k + 1)) := by
        rw [← hnode, ← List.drop_eq_getElem_cons hlt, List.take_append_drop]
    _ = kids (nodes.take k) ++ a :: b :: kids (nodes.drop (k + 1)) := kids_append _ _

/-- Where an arena's merges took the nodes in the queue's order, the children of an internal node are the two first of those
not merged before it: they differ from the earlier ones, and any other node made before it is merged after it. -/
theorem TreeOf.merges_two_first {nodes : List Node} {m : Nat} (h : TreeOf nodes m)
    (hs : (kids nodes).Pairwise (queuedBefore nodes)) {k a b : Nat} {p : Word}
    (hk : nodes[k]? = some (.internal a b p)) :
    queuedBefore nodes a b ∧ a ∉ kids (nodes.take k) ∧ b ∉ kids (nodes.take k) ∧
    ∀ j, j < k → j ∉ kids (nodes.take k) → j ≠ a → j ≠ b → queuedBefore nodes b j := by
  have hsplit := kids_split hk
  have hnodup : (kids nodes).Nodup := h.nodup_kids
  rw [hsplit] at hs hnodup
  have hdisjoint := (List.nodup_append.mp hnodup).2.2
  obtain ⟨ha, hb⟩ := List.pairwise_cons.mp (List.pairwise_append.mp hs).2.1
  refine ⟨ha b (by simp), fun hm => hdisjoint a hm a (by simp) rfl, fun hm => hdisjoint b hm b (by simp) rfl, ?_⟩
  intro j hjk hj hja hjb
  have hsize := h.size
  have hklt := (List.getElem?_eq_some_iff.mp hk).1
  have hkid : j ∈ kids nodes := h.parents.mem_iff.mpr (List.mem_range.mpr (by omega))
  have hlater : j ∈ kids (nodes.drop (k + 1)) := by simpa [hsplit, hj, hja, hjb] using hkid
  exact (List.pairwise_cons.mp hb).1 j hlater

/-- Settles O31: BUILD's merges took the nodes in the queue's order, and a tree's children have smaller indices. -/
theorem buildMergesTheTwoFirstInTheQueue : Obligations.BuildMergesTheTwoFirstInTheQueue := by
  intro s t hw hl hexec k a b p hmk hk
  rcases exec_build_cases hw hl hexec with ⟨-, hempty⟩ | ⟨r, hbuilt⟩
  · rw [hempty] at hk
    cases hk
  · obtain ⟨hab, ha, hb, hrest⟩ := hbuilt.tree.merges_two_first hbuilt.order hk
    rcases hbuilt.tree.entry hk with ⟨hlt, -⟩ | ⟨-, -, _, _, _, hnode, hak, hbk, -⟩
    · omega
    · cases hnode
      exact ⟨hab, hak, hbk, ha, hb, hrest⟩

/-! ## The lengths of codes (R138) -/

/-- On a tree BUILD made, the leaf of the more frequent symbol is no deeper. -/
theorem Built.length_le_of_freq_lt {s t : State} {r : BitVec 9} (hb : Built s t r) (hl : ListOk s) {x y : Byte} {cx cy : Code}
    (hx : leafAt t.arena r.toNat x cx) (hy : leafAt t.arena r.toNat y cy)
    (hlt : (SymTable.get s.freq y).toNat < (SymTable.get s.freq x).toNat) : cx.length ≤ cy.length := by
  obtain ⟨i, p, hi, hleafx⟩ := hx
  obtain ⟨j, q, hj, hleafy⟩ := hy
  rw [hb.rootIndex] at hi hj
  refine hb.tree.depth_monotone hb.order hj hi (.inl ?_)
  rwa [hb.prioOf_leaf hl hleafx, hb.prioOf_leaf hl hleafy]

/-- Settles O35: two codes are the paths to two leaves, unless the tree is one leaf or there is none: then no two symbols have
codes. -/
theorem moreFrequentSymbolsHaveNoLongerCodes : Obligations.MoreFrequentSymbolsHaveNoLongerCodes := by
  intro s t u hw hl hbuild hderive x y cx cy hx hy _ hlt
  obtain rfl : u = (deriveBody t).complete := exec_next hderive
  obtain ⟨v, hbody, hderived, -⟩ := deriveBody_spec t
  rw [hbody, complete_finished, finish_code] at hx hy
  rcases exec_build_cases hw hl hbuild with ⟨hnone, -⟩ | ⟨r, hbuilt⟩
  · rw [(hderived.none hnone).2, get_noCodes] at hx
    cases hx
  · by_cases htwo : 2 ≤ s.numSyms.toNat
    · obtain ⟨-, hcode⟩ := hderived.tree r _ hbuilt.root hbuilt.tree htwo hbuilt.rootIndex
      exact hbuilt.length_le_of_freq_lt hl ((hcode x cx).mp hx) ((hcode y cy).mp hy) hlt
    · have hroot := hbuilt.rootIndex
      obtain ⟨z, p, hz⟩ := hbuilt.tree.leaves r.toNat (by have := hbuilt.tree.nonempty; omega)
      obtain ⟨-, hcode⟩ := hderived.single r z p hbuilt.root hz
      obtain ⟨rfl, -⟩ := (hcode x cx).mp hx
      obtain ⟨rfl, -⟩ := (hcode y cy).mp hy
      exact absurd hlt (lt_irrefl _)

end Sys2Proof.Machine
end

section
/-! SUPPORT. What DERIVE and MATERIALIZE leave once complete, which of DERIVE's codes is empty, and the obligations of
42_derive_materialize.md. -/

namespace Sys2Proof.Machine

/-- A command whose body ends without a fault completes with the state the body leaves (R221). -/
theorem exec_of_finished {i : Instr} {s t : State} {code : ResultCode} (h : bodyOf i s = .finished code t) :
    exec i s = .next (finish code t) := by
  rw [exec_eq, h, complete_finished]

/-! ## DERIVE (R150) -/

/-- A complete DERIVE leaves the table of its entries, counted. -/
theorem exec_derive (s : State) : exec .derive s = .next (finish .ok { s with
    code := tableOf (derivedEntries s)
    codeCount := BitVec.ofNat 9 (presentCount (tableOf (derivedEntries s))) }) := exec_of_finished rfl

/-- DERIVE depends on the phase only through its entries: the completion step overwrites the phase. -/
theorem exec_derive_engine {s : State} {e e' : Engine}
    (h : derivedEntries { s with engine := e } = derivedEntries { s with engine := e' }) :
    exec .derive { s with engine := e } = exec .derive { s with engine := e' } := by
  rw [exec_derive, exec_derive, h]
  rfl

/-- Settles O33: a leaf at the root has the one entry of `singleCode`, and the walk from an internal root reads no CTRL. -/
theorem deriveSingleSymbolFollowsSingleOnebit : Obligations.DeriveSingleSymbolFollowsSingleOnebit := by
  constructor
  · intro s r x p hroot hleaf
    obtain ⟨t, hbody, hderived, -⟩ := deriveBody_spec s
    obtain ⟨hcount, hcode⟩ := hderived.single r x p hroot hleaf
    refine ⟨finish .ok t, exec_of_finished hbody, rfl, hcount, (hcode x _).mpr ⟨rfl, rfl⟩, fun y hy => ?_⟩
    exact Option.eq_none_iff_forall_ne_some.mpr fun c hc => hy ((hcode y c).mp hc).1
  · intro s r a b p w c c' d hroot hinternal
    have hwalk (ctrl : Ctrl) : derivedEntries { s with engine := .busy w ctrl d } = walk s.arena s.arena.length r.toNat [] :=
      deriveBody_internal (s := { s with engine := .busy w ctrl d }) hroot hinternal
    exact exec_derive_engine ((hwalk c).trans (hwalk c').symm)

/-- Below an internal node the walk's path grows, so a path kept whole means that the walk began at a leaf. -/
theorem leaf_of_mem_walk_same_path {nodes : List Node} {fuel n : Nat} {path : Code} {x : Byte}
    (h : (x, path) ∈ walk nodes fuel n path) : ∃ p, nodes[n]? = some (.leaf x p) := by
  cases fuel with
  | zero => cases h
  | succ fuel =>
    have hlonger (m : Nat) (b : Bool) : (x, path) ∉ walk nodes fuel m (path ++ [b]) := fun hm => by
      simpa using (walk_prefix nodes _ _ _ _ hm).length_le
    rw [walk] at h
    split at h
    · next y p hn =>
      obtain rfl : x = y := by simpa using h
      exact ⟨p, hn⟩
    · exact ((List.mem_append.mp h).elim (hlonger _ _) (hlonger _ _)).elim
    · cases h

/-- DERIVE gives the empty code only to the symbol of a tree that is one leaf, and only when SINGLE_ONEBIT is 0 (R152). -/
theorem single_of_mem_derivedEntries_nil {s : State} {x : Byte} (h : (x, []) ∈ derivedEntries s) :
    s.sampledCtrl.singleOnebit = false ∧ ∃ r p, s.treeRoot = some r ∧ s.arena[r.toNat]? = some (Node.leaf x p) := by
  unfold derivedEntries at h
  split at h
  · cases h
  · next r hroot =>
    split at h
    · next y p hleaf =>
      obtain ⟨rfl, hcode⟩ : x = y ∧ [] = singleCode s.sampledCtrl := by simpa using h
      refine ⟨?_, r, p, hroot, hleaf⟩
      cases hbit : s.sampledCtrl.singleOnebit
      · rfl
      · simp [singleCode, hbit] at hcode
    · next hnot =>
      obtain ⟨p, hleaf⟩ := leaf_of_mem_walk_same_path h
      exact absurd hleaf (hnot x p)

/-! ## MATERIALIZE (R153) -/

/-- A complete MATERIALIZE stores the shadow tree of CODE, or it faults where that meets a collision (R154, R222). -/
theorem exec_materialize_cases {s t : State} (h : exec .materialize s = .next t) :
    (∃ sh, shadowTree s.code = .ok sh ∧ t = finish .ok { s with
      dt := overlay sh.nodes s.dt, dtRoot := sh.root, dtNodes := BitVec.ofNat 17 sh.nodes.length }) ∨
    ∃ x, shadowTree s.code = .error x ∧ t = raise .collision (x.setWidth 32) { s with dtRoot := .absent, dtNodes := 0#17 } := by
  obtain rfl : t = (materializeBody s).complete := exec_next h
  unfold materializeBody
  cases hshadow : shadowTree s.code with
  | ok sh => exact .inl ⟨sh, rfl, rfl⟩
  | error x => exact .inr ⟨x, rfl, rfl⟩

/-- MATERIALIZE succeeds on a prefix-free table (R154). -/
theorem exec_materialize_ok {s t : State} (hfree : PrefixFree s.code) (h : exec .materialize s = .next t) : t.result = .ok := by
  obtain ⟨sh, hok⟩ := (shadowTree_ok_iff s.code).mpr hfree
  rcases exec_materialize_cases h with ⟨_, -, rfl⟩ | ⟨x, herror, -⟩
  · rfl
  · cases hok.symm.trans herror

/-- MATERIALIZE collides on any other table (R154). -/
theorem exec_materialize_collision {s t : State} (hnot : ¬ PrefixFree s.code) (h : exec .materialize s = .next t) :
    t.result = .collision := by
  rcases exec_materialize_cases h with ⟨sh, hok, -⟩ | ⟨x, -, rfl⟩
  · exact absurd ((shadowTree_ok_iff s.code).mp ⟨sh, hok⟩) hnot
  · rfl

/-- Settles O34: DERIVE's entries are the walk's paths to leaves, none a prefix of another, and MATERIALIZE succeeds on a
prefix-free table. -/
theorem derivedTablesArePrefixFree : Obligations.DerivedTablesArePrefixFree := by
  intro s t hexec
  obtain rfl : finish .ok _ = t := Host.Outcome.next.inj ((exec_derive s).symm.trans hexec)
  have hfree : PrefixFree (tableOf (derivedEntries s)) := prefixFree_tableOf (derivedEntries_pairwise s)
  refine ⟨hfree, fun x hx => single_of_mem_derivedEntries_nil (mem_of_get_tableOf hx), fun u hu hcollision => ?_⟩
  cases (exec_materialize_ok hfree hu).symm.trans hcollision

/-! ## The empty code (R155) -/

/-- A table with one present code is prefix-free. -/
theorem prefixFree_of_sole {codes : SymTable (Option Code)} {x : Byte} (h : ∀ y, y ≠ x → SymTable.get codes y = none) :
    PrefixFree codes := by
  have hsole {y : Byte} {c : Code} (hy : SymTable.get codes y = some c) : y = x := by
    by_contra hne
    cases (h y hne).symm.trans hy
  exact fun y z _ _ hyz hy hz => absurd ((hsole hy).trans (hsole hz).symm) hyz

/-- The empty code is a prefix of every other present one. -/
theorem not_prefixFree_of_empty {codes : SymTable (Option Code)} {x y : Byte} {c : Code} (hx : SymTable.get codes x = some [])
    (hne : y ≠ x) (hy : SymTable.get codes y = some c) : ¬ PrefixFree codes :=
  fun hfree => hfree x y [] c hne.symm hx hy List.nil_prefix

/-- Settles O38: the tree spells the table's codes, so the empty code is spelled at the root, and a terminal root has no nodes
below it. -/
theorem materializeEmptyCodeAtTheRoot : Obligations.MaterializeEmptyCodeAtTheRoot := by
  intro s x hx
  constructor
  · intro hsole
    obtain ⟨sh, -, hbody, hshape, hspells, -⟩ := materializeBody_ok (prefixFree_of_sole hsole)
    have hroot : sh.root = .leaf x := by simpa using (hspells x []).mpr hx
    have hnodes : sh.nodes = [] := by simpa [hroot] using hshape
    exact ⟨_, exec_of_finished hbody, rfl, hroot, by simp [hnodes]⟩
  · rintro ⟨y, c, hne, hy⟩
    have hexec := exec_eq .materialize s
    exact ⟨_, hexec, exec_materialize_collision (not_prefixFree_of_empty hx hne hy) hexec⟩

/-! ## MATERIALIZE reads CODE alone (R156) -/

/-- Below the length of the new entries, what stood there before does not show. -/
theorem take_overlay_of_le {α : Type} {new old : List α} {k : Nat} (h : k ≤ new.length) :
    (overlay new old).take k = new.take k :=
  List.take_append_of_le_length h

/-- MATERIALIZE keeps CODE (R93). -/
theorem exec_materialize_code {s t : State} (h : exec .materialize s = .next t) : t.code = s.code := by
  rcases exec_materialize_cases h with ⟨_, -, rfl⟩ | ⟨_, -, rfl⟩ <;> rfl

/-- Two runs of MATERIALIZE on one table end with one result and leave one decode tree. -/
theorem sameDecodeTree_of_code_eq {s s' t t' : State} (hcode : s.code = s'.code) (h : exec .materialize s = .next t)
    (h' : exec .materialize s' = .next t') : SameDecodeTree t t' ∧ t.result = t'.result := by
  rcases exec_materialize_cases h with ⟨sh, hsh, rfl⟩ | ⟨x, hx, rfl⟩ <;>
    rcases exec_materialize_cases h' with ⟨sh', hsh', rfl⟩ | ⟨x', hx', rfl⟩
  · obtain rfl : sh = sh' := Except.ok.inj (hsh.symm.trans (hcode ▸ hsh'))
    have hle : (BitVec.ofNat 17 sh.nodes.length).toNat ≤ sh.nodes.length := Nat.mod_le _ _
    exact ⟨⟨rfl, rfl, (take_overlay_of_le hle).trans (take_overlay_of_le hle).symm⟩, rfl⟩
  · cases hsh.symm.trans (hcode ▸ hx')
  · cases hx.symm.trans (hcode ▸ hsh')
  · exact ⟨⟨rfl, rfl, rfl⟩, rfl⟩

/-- Settles O39: each run stores the shadow tree of its CODE, and a run keeps CODE for the next one. -/
theorem materializeIsAFunctionOfCode : Obligations.MaterializeIsAFunctionOfCode := by
  intro s s' t t' hcode h h'
  obtain ⟨htree, hresult⟩ := sameDecodeTree_of_code_eq hcode h h'
  exact ⟨htree, hresult, fun u hu => (sameDecodeTree_of_code_eq (exec_materialize_code h).symm h hu).1⟩

end Sys2Proof.Machine
end

section
/-! SUPPORT. Which entries of a list pass CANON's checks, what CANON leaves once complete, and the obligations of
43_canonical.md. -/

namespace Sys2Proof.Machine

/-! ## Entries that pass their checks (R171) -/

/-- The length of entry `i` of a CANON list. -/
def entryLen (es : List Word) (i : Nat) : Nat := canonLen (es.getD i 0#32)

theorem entryLen_of_getElem? {es : List Word} {i : Nat} {e : Word} (h : es[i]? = some e) : entryLen es i = canonLen e := by
  simp [entryLen, List.getD, h]

/-- The entries before index `i` pass the four checks of R171. -/
structure PassBefore (es : List Word) (i : Nat) : Prop where
  nodup : ((es.take i).map canonSym).Nodup
  fits : ∀ j, j < i → 1 ≤ entryLen es j ∧ entryLen es j ≤ 31 ∧ canonCode (entryLen es) j < 2 ^ entryLen es j

/-- What `PassBefore` says of an entry, in the form in which CANON's laws ask for it. -/
theorem PassBefore.entry {es : List Word} {i : Nat} (h : PassBefore es i) (j : Nat) (e : Word) (he : (es.take i)[j]? = some e) :
    entryLen es j = canonLen e ∧ 1 ≤ entryLen es j ∧ entryLen es j ≤ 31 ∧
      canonCode (entryLen es) j < 2 ^ entryLen es j := by
  obtain ⟨hj, he⟩ : j < i ∧ es[j]? = some e := by simpa [List.getElem?_take] using he
  exact ⟨entryLen_of_getElem? he, h.fits j hj⟩

/-- The code of the first check of R171 that a bad entry fails, after the entries `before`. -/
def entryFault (before : List Word) (e : Word) : ResultCode :=
  if canonLen e = 0 then .canonZeroLen
  else if 31 < canonLen e then .canonLenTooLong
  else if canonSym e ∈ before.map canonSym then .canonDupSymbol
  else .canonOversub

/-- A list stops at an entry that fails a check when those before it pass theirs (R171). -/
theorem canonTable_bad {es : List Word} {i : Nat} {e : Word} (he : es[i]? = some e) (hpass : PassBefore es i)
    (hbad : canonLen e = 0 ∨ 31 < canonLen e ∨ canonSym e ∈ (es.take i).map canonSym ∨
      2 ^ canonLen e ≤ canonCode (entryLen es) i) :
    canonTable es = .error (entryFault (es.take i) e, i) := by
  obtain ⟨hi, hget⟩ := List.getElem?_eq_some_iff.mp he
  have hlen : (es.take i).length = i := List.length_take_of_le hi.le
  have hsplit : es.take i ++ e :: es.drop (i + 1) = es := by
    rw [← hget, ← List.drop_eq_getElem_cons hi, List.take_append_drop]
  have hrun := canonRun_bad (es.take i) (es.drop (i + 1)) e (entryLen es) hpass.nodup hpass.entry
    (by rw [hlen, entryLen_of_getElem? he]) (by rwa [hlen])
  rw [hsplit, hlen] at hrun
  rw [canonTable, hrun]
  rfl

/-! ## CANON (R170) -/

/-- A list of good entries gives its table, counted (R170, R172). -/
theorem exec_canon_good {s : State} (hn : s.canonN.toNat ≤ 256) (hpass : PassBefore s.canonInput s.canonInput.length) :
    ∃ r, exec .canon s = .next (finish .ok { s with code := r.table, codeCount := s.canonN.setWidth 9 }) ∧
      CanonGave s.canonInput (entryLen s.canonInput) r := by
  obtain ⟨r, hrun, hgave⟩ := canonRun_good _ _ hpass.nodup hpass.entry
  rw [List.take_length] at hrun hgave
  have htable : canonTable s.canonInput = .ok r.table := by rw [canonTable, hrun]; rfl
  refine ⟨r, exec_of_finished (i := .canon) ?_, hgave⟩
  rw [bodyOf, canonBody, if_neg (Nat.not_lt.mpr hn), htable]

/-- A list that stops at an entry leaves every code absent, and the entry's index in ERR_INFO (R170, R222). -/
theorem exec_canon_bad {s : State} {c : ResultCode} {i : Nat} (hn : s.canonN.toNat ≤ 256)
    (htable : canonTable s.canonInput = .error (c, i)) :
    exec .canon s = .next (raise c (BitVec.ofNat 32 i) { s with code := noCodes, codeCount := 0#9 }) := by
  have hbody : canonBody s = .raised c (BitVec.ofNat 32 i) { s with code := noCodes, codeCount := 0#9 } := by
    rw [canonBody, if_neg (Nat.not_lt.mpr hn), htable]
  rw [exec_eq, bodyOf, hbody, complete_raised]

/-- Settles O41: the entries before the bad one pass, so the list stops at it. -/
theorem canonFaultsAtTheFirstBadEntry : Obligations.CanonFaultsAtTheFirstBadEntry := by
  intro s i e hn he hnodup hfits hbad
  have htable := canonTable_bad he ⟨hnodup, hfits⟩ hbad
  exact ⟨_, exec_canon_bad hn htable, rfl, rfl, get_noCodes, rfl⟩

/-! ## CANON's tables are prefix-free (R175) -/

theorem prefixFree_noCodes : PrefixFree noCodes := canonInv_zero.free

/-- A CANON that is not turned away leaves a prefix-free table: the one it built, or none after a bad entry. -/
theorem exec_canon_prefixFree {s t : State} (h : exec .canon s = .next t) (hlen : t.result ≠ .lenRange) : PrefixFree t.code := by
  obtain rfl : t = (canonBody s).complete := exec_next h
  rcases canonBody_cases s with hbody | ⟨c, i, -, -, -, hbody⟩ | ⟨table, -, htable, hbody⟩ <;> rw [hbody] at hlen ⊢
  · exact absurd rfl hlen
  · exact prefixFree_noCodes
  · exact (canonTable_inv htable).1

/-- Settles O42: CANON leaves a prefix-free table, and on such a table MATERIALIZE succeeds. -/
theorem canonTablesArePrefixFree : Obligations.CanonTablesArePrefixFree := by
  intro s t hexec hlen
  have hfree := exec_canon_prefixFree hexec hlen
  refine ⟨hfree, fun u hu hcollision => ?_⟩
  cases (exec_materialize_ok hfree hu).symm.trans hcollision

/-! ## The conformance vectors (R176, R177) -/

/-- `exec_canon_good` on a list written out. -/
theorem exec_canon_vector {s : State} {n : Word} {es : List Word} (hn : s.canonN = n) (hes : s.canonInput = es)
    (hle : n.toNat ≤ 256) (hpass : PassBefore es es.length) :
    ∃ r, exec .canon s = .next (finish .ok { s with code := r.table, codeCount := n.setWidth 9 }) ∧
      CanonGave es (entryLen es) r := by
  subst hn hes
  exact exec_canon_good hle hpass

/-- Settles O43: each vector's entries pass their checks, so each symbol has the code of its running number. -/
theorem canonConformanceVectors : Obligations.CanonConformanceVectors := by
  intro s
  refine ⟨fun hn => ?empty, fun hn hes => ?two, fun hn hes => ?twoFromZero, fun hn hes => ?three, fun hn hes => ?seven⟩
  case empty =>
    have hes : s.canonInput = [] := by rw [State.canonInput, hn]; rfl
    obtain ⟨r, hexec, hgave⟩ := exec_canon_vector hn hes (by decide) ⟨by decide, by decide⟩
    exact ⟨_, hexec, rfl, rfl, fun x => hgave.others x (by simp)⟩
  case two =>
    obtain ⟨r, hexec, hgave⟩ := exec_canon_vector hn hes (by decide) ⟨by decide, by decide⟩
    exact ⟨_, hexec, rfl, hgave.given 0 _ rfl, hgave.given 1 _ rfl⟩
  case twoFromZero =>
    obtain ⟨r, hexec, hgave⟩ := exec_canon_vector hn hes (by decide) ⟨by decide, by decide⟩
    exact ⟨_, hexec, rfl, hgave.given 0 _ rfl, hgave.given 1 _ rfl⟩
  case three =>
    obtain ⟨r, hexec, hgave⟩ := exec_canon_vector hn hes (by decide) ⟨by decide, by decide⟩
    exact ⟨_, hexec, rfl, hgave.given 0 _ rfl, hgave.given 1 _ rfl, hgave.given 2 _ rfl⟩
  case seven =>
    obtain ⟨r, hexec, hgave⟩ := exec_canon_vector hn hes (by decide) ⟨by decide, by decide⟩
    exact ⟨_, hexec, rfl, rfl, hgave.given 0 _ rfl, hgave.given 1 _ rfl, hgave.given 2 _ rfl, hgave.given 3 _ rfl,
      hgave.given 4 _ rfl, hgave.given 5 _ rfl, hgave.given 6 _ rfl⟩

end Sys2Proof.Machine
end

section
/-! SUPPORT. What SERIALIZE and ENCODE leave once they succeed, what DECODE does without a branch root and on a spelled stream, and
obligations of 44_encode_decode.md. -/

namespace Sys2Proof.Machine

/-! ## Successes of SERIALIZE and ENCODE (R190 to R192) -/

/-- BIT_LEN holds every number of bits that fits the buffer (R6). -/
theorem toNat_ofNat_of_le_bitbufBits {p : Params} (hw : p.wf = true) {n : Nat} (hn : n ≤ p.bitbufBits) :
    (BitVec.ofNat 32 n).toNat = n := by
  obtain ⟨-, -, hcap⟩ := capacities_le hw
  rw [BitVec.toNat_ofNat]
  exact Nat.mod_eq_of_lt (by omega)

/-- BITBUF reads back the bits written from bit 0, as far as BIT_LEN says. -/
theorem stream_of_written {s : State} {m : List (Nat × Bool)} {bits : Code} (hmem : s.mem.bitbuf = cellsWrite m 0 bits)
    (hlen : s.bitLen.toNat = bits.length) : s.stream = bits := by
  refine List.ext_getElem ((length_stream s).trans hlen) fun i _ hi => ?_
  have hread : cellRead s.mem.bitbuf i = bits[i]? := by
    simpa [hmem] using cellRead_cellsWrite_inside m 0 bits hi
  simp [State.stream, State.bit, hread, List.getElem?_eq_getElem hi]

/-- A SERIALIZE that ends with OK emitted codes that fit (R190). -/
theorem exec_serialize_ok {s t : State} (h : exec .serialize s = .next t) (hok : t.result = .ok) :
    (emittedBits s.code s.source).length ≤ s.params.bitbufBits ∧ t = finish .ok { s with
      mem := { s.mem with bitbuf := cellsWrite s.mem.bitbuf 0 (emittedBits s.code s.source) }
      bitLen := BitVec.ofNat 32 (emittedBits s.code s.source).length, bitCursor := 0#32 } := by
  obtain rfl : t = (serializeBody s).complete := exec_next h
  rcases serializeBody_cases s with ⟨-, hbody⟩ | ⟨-, -, hfits, hbody⟩ | ⟨-, pre, b, rest, -, -, -, -, hbody⟩ <;>
    rw [hbody] at hok ⊢
  · cases hok
  · exact ⟨hfits, rfl⟩
  · rw [complete_raised, raise_result] at hok
    split at hok <;> cases hok

/-- What an ENCODE of `s` that ends with OK leaves in `t` for DECODE: a prefix-free table over the input's bytes, the decode tree
that spells it, and the input's codes in the buffer (R192). -/
structure Encoded (s t : State) : Prop where
  params : t.params = s.params
  prefixFree : PrefixFree t.code
  code : ∀ x, (SymTable.get t.code x).isSome = true ↔ x ∈ s.source
  sole : ∀ x, s.source ≠ [] → (∀ y ∈ s.source, y = x) → SymTable.get t.code x = some (singleCode s.sampledCtrl)
  spells : ∀ x w, follow t.dt t.dtRoot w = .leaf x ↔ SymTable.get t.code x = some w
  branches : ∀ q, (∃ i, follow t.dt t.dtRoot q = .branch i) ↔ ∃ x w, SymTable.get t.code x = some w ∧ q <+: w ∧ q ≠ w
  root : t.dtRoot = .absent ∨ (∃ x, t.dtRoot = .leaf x) ∨ t.dtRoot = .branch 0
  fits : t.bitLen.toNat ≤ t.params.bitbufBits
  bitLen : t.bitLen.toNat = (emittedBits t.code s.source).length
  stream : t.stream = emittedBits t.code s.source

/-- An ENCODE that ends with OK went through its five bodies without a fault. -/
theorem encoded_of_ok {s t : State} (hw : s.params.wf = true) (h : exec .encode s = .next t) (hok : t.result = .ok) :
    Encoded s t := by
  obtain rfl : t = (encodeBody s).complete := exec_next h
  by_cases hl : s.srcLen.toNat ≤ s.params.srcBytes
  case neg =>
    rw [encodeBody_lenRange (Nat.lt_of_not_le hl)] at hok
    cases hok
  obtain ⟨a, b, c, d, hrun, hcases⟩ := encode_cases hw hl
  have hparams : d.params = s.params := by rw [hrun.frame]
  have hcode : d.code = c.code := by rw [hrun.frame]
  rw [← hcode] at hcases
  obtain ⟨hfits, hbody⟩ | ⟨-, pre, rest, -, hbody⟩ := hcases <;> rw [hbody] at hok ⊢
  case inr => cases hok
  have hbits := toNat_ofNat_of_le_bitbufBits hw hfits
  constructor
  case params => exact hparams
  case prefixFree => exact hcode ▸ hrun.codesOk.prefixFree
  case code => exact hcode ▸ hrun.code
  case sole => exact fun x hne hall => hcode ▸ (hrun.sole x hne hall x _).mpr ⟨rfl, rfl⟩
  case spells => exact hcode ▸ hrun.spells
  case branches => exact hcode ▸ hrun.branches
  case root => exact hrun.root
  case fits => exact hbits.trans_le (hparams ▸ hfits)
  case bitLen => exact hbits
  case stream => exact stream_of_written rfl hbits

/-- Settles O46: a success leaves in BIT_LEN the number of bits emitted, which fits the register. -/
theorem bitCountIsTheSumOfCodeLengths : Obligations.BitCountIsTheSumOfCodeLengths := by
  intro i s t hi hw hexec hok
  rw [← length_emittedBits]
  rcases hi with rfl | rfl
  · obtain ⟨hfits, rfl⟩ := exec_serialize_ok hexec hok
    exact toNat_ofNat_of_le_bitbufBits hw hfits
  · exact (encoded_of_ok hw hexec hok).bitLen

/-! ## DECODE (R193 to R195) -/

/-- Settles O51: without a branch root DECODE looks at BIT_LEN alone. -/
theorem decodeWithoutABranchRoot : Obligations.DecodeWithoutABranchRoot := by
  intro s hl hroot
  rw [exec_eq, bodyOf, decodeBody_rootless hl hroot, decodeRootless]
  by_cases hempty : s.bitLen = 0#32
  · simp only [if_pos hempty]
    rfl
  · simp only [if_neg hempty]
    rfl

/-- DECODE of codes and then a tail inside the tree emits the codes' symbols; the tail decides between OK and OK_TRUNCATED (R193,
R194). -/
theorem decodeBody_words {s : State} {n j : Nat} {words : List (Code × Byte)} {tail : Code}
    (hl : s.bitLen.toNat ≤ s.params.bitbufBits) (hroot : s.dtRoot = .branch n)
    (hstream : s.stream = words.flatMap Prod.fst ++ tail)
    (hwords : ∀ w ∈ words, follow s.dt (.branch 0) w.1 = .leaf w.2) (htail : follow s.dt (.branch 0) tail = .branch j)
    (hfits : words.length ≤ s.params.dstBytes) :
    decodeBody s = .finished (if tail = [] then .ok else .okTruncated) (s.withTraversal
      { node := j, out := words.length, last := (words.flatMap Prod.fst).length
        dst := cellsWrite s.mem.dst 0 (words.map Prod.snd) }) := by
  have htraverse : traverse s.dt s.params.dstBytes s.stream 0 { node := 0, out := 0, last := 0, dst := s.mem.dst } =
      .exhausted { node := j, out := words.length, last := (words.flatMap Prod.fst).length
                   dst := cellsWrite s.mem.dst 0 (words.map Prod.snd) } := by
    rw [hstream, traverse_words words tail 0 _ rfl rfl hwords (by simpa using hfits)]
    simpa [traverse] using traverse_inside tail [] _ _ j htail
  have hlast : (words.flatMap Prod.fst).length < s.bitLen.toNat ↔ tail ≠ [] := by
    rw [← length_stream, hstream, List.length_append, ← List.length_pos_iff]
    omega
  rw [decodeBody_branch hl hroot, htraverse]
  simp only [hlast, ite_not]

/-! ## The round trip (R197) -/

/-- The root is a branch when any bit was emitted, and no branch otherwise. -/
theorem Encoded.branch_root_iff {s t : State} (h : Encoded s t) :
    (∃ i, t.dtRoot = .branch i) ↔ emittedBits t.code s.source ≠ [] := by
  have hroot := h.branches []
  simp only [follow_nil] at hroot
  rw [hroot]
  constructor
  · rintro ⟨x, w, hx, -, hne⟩ hnil
    have hmem : x ∈ s.source := (h.code x).mp (by rw [hx]; rfl)
    have hw : (SymTable.get t.code x).getD [] = [] := List.flatMap_eq_nil_iff.mp hnil x hmem
    rw [hx] at hw
    exact hne hw.symm
  · intro hne
    obtain ⟨b, hb⟩ := List.exists_mem_of_ne_nil _ hne
    obtain ⟨x, -, hbit⟩ := List.mem_flatMap.mp hb
    cases hx : SymTable.get t.code x with
    | none => simp [hx] at hbit
    | some w => exact ⟨x, w, hx, List.nil_prefix, by rintro rfl; simp [hx] at hbit⟩

/-- ENCODE emits nothing for an empty input, and for one with a sole symbol whose code is empty (R151), and for no other. -/
theorem Encoded.emittedBits_eq_nil_iff {s t : State} (h : Encoded s t) :
    emittedBits t.code s.source = [] ↔
      s.source = [] ∨ (∃ x, s.source ≠ [] ∧ ∀ y ∈ s.source, y = x) ∧ s.sampledCtrl.singleOnebit = false := by
  constructor
  · intro hnil
    by_cases hsource : s.source = []
    case pos => exact .inl hsource
    have hempty (y : Byte) (hy : y ∈ s.source) : SymTable.get t.code y = some [] := by
      obtain ⟨c, hc⟩ := Option.isSome_iff_exists.mp ((h.code y).mpr hy)
      have hc' : (SymTable.get t.code y).getD [] = [] := List.flatMap_eq_nil_iff.mp hnil y hy
      rw [hc] at hc' ⊢
      exact congrArg some hc'
    obtain ⟨x, hx⟩ := List.exists_mem_of_ne_nil _ hsource
    have hall (y : Byte) (hy : y ∈ s.source) : y = x := by
      by_contra hne
      exact not_prefixFree_of_empty (hempty x hx) hne (hempty y hy) h.prefixFree
    have hsingle : singleCode s.sampledCtrl = [] :=
      Option.some.inj ((h.sole x hsource hall).symm.trans (hempty x hx))
    refine .inr ⟨⟨x, hsource, hall⟩, ?_⟩
    cases hbit : s.sampledCtrl.singleOnebit
    · rfl
    · simp [singleCode, hbit] at hsingle
  · rintro (hnil | ⟨⟨x, hsource, hall⟩, hbit⟩)
    · rw [hnil, emittedBits_nil]
    · refine List.flatMap_eq_nil_iff.mpr fun y hy => ?_
      rw [hall y hy, h.sole x hsource hall]
      simp [singleCode, hbit]

/-- DECODE after an ENCODE that emitted nothing emits nothing (R195). -/
theorem Encoded.decode_of_nil {s t : State} (h : Encoded s t) (hnil : emittedBits t.code s.source = []) :
    ∃ u, exec .decode t = .next u ∧ u.result = .ok ∧ u.dstLen = 0#32 ∧ u.decBitpos = t.bitLen := by
  have hbits : t.bitLen = 0#32 := BitVec.eq_of_toNat_eq (by rw [h.bitLen, hnil]; rfl)
  have hroot : t.dtRoot = .absent ∨ ∃ x, t.dtRoot = .leaf x :=
    (Desc.cases_root t.dtRoot).resolve_right fun hbranch => h.branch_root_iff.mp hbranch hnil
  exact ⟨_, decodeWithoutABranchRoot t h.fits hroot, if_pos hbits, rfl, hbits.symm⟩

/-- The bytes with their codes, as DECODE finds them in what SERIALIZE emits. -/
def codedBytes (codes : SymTable (Option Code)) (bs : List Byte) : List (Code × Byte) :=
  bs.map fun b => ((SymTable.get codes b).getD [], b)

@[simp] theorem length_codedBytes (codes : SymTable (Option Code)) (bs : List Byte) : (codedBytes codes bs).length = bs.length :=
  List.length_map _

@[simp] theorem flatMap_fst_codedBytes (codes : SymTable (Option Code)) (bs : List Byte) :
    (codedBytes codes bs).flatMap Prod.fst = emittedBits codes bs :=
  List.flatMap_map _ _ _

@[simp] theorem map_snd_codedBytes (codes : SymTable (Option Code)) (bs : List Byte) :
    (codedBytes codes bs).map Prod.snd = bs := by
  simp [codedBytes, Function.comp_def]

/-- The decode tree spells each byte of the input by its code. -/
theorem Encoded.follow_codedBytes {s t : State} (h : Encoded s t) :
    ∀ w ∈ codedBytes t.code s.source, follow t.dt t.dtRoot w.1 = .leaf w.2 := by
  intro w hw
  obtain ⟨b, hb, rfl⟩ := List.mem_map.mp hw
  obtain ⟨c, hc⟩ := Option.isSome_iff_exists.mp ((h.code b).mpr hb)
  rw [h.spells, hc]
  rfl

/-- DECODE after an ENCODE that emitted bits finds the input's codes, one for each byte, and emits the bytes (R193). -/
theorem Encoded.decode_of_ne_nil {s t : State} (h : Encoded s t) (hne : emittedBits t.code s.source ≠ [])
    (hfits : s.source.length ≤ s.params.dstBytes) :
    ∃ u, exec .decode t = .next u ∧ u.result = .ok ∧ u.dstLen = BitVec.ofNat 32 s.source.length ∧ u.decBitpos = t.bitLen ∧
      u.mem.dst = cellsWrite t.mem.dst 0 s.source := by
  obtain ⟨n, hn⟩ := h.branch_root_iff.mpr hne
  have hroot : t.dtRoot = .branch 0 := by simpa [hn] using h.root
  have hbody := decodeBody_words (tail := []) (words := codedBytes t.code s.source) h.fits hroot
    (by simp [h.stream]) (hroot ▸ h.follow_codedBytes) rfl (by simpa [h.params] using hfits)
  exact ⟨_, exec_of_finished hbody, rfl, by simp, by simp [← h.bitLen], by simp⟩

/-- Settles O52: no bits were emitted exactly for an empty input and for a sole symbol without a bit; otherwise the decode tree
spells the codes in the buffer. -/
theorem decodeOfEncodeGivesTheSourceBack : Obligations.DecodeOfEncodeGivesTheSourceBack := by
  intro s t hw hsrc hdst hexec hok
  have h := encoded_of_ok hw hexec hok
  by_cases hnil : emittedBits t.code s.source = []
  · obtain ⟨u, hu, hres, hlen, hpos⟩ := h.decode_of_nil hnil
    refine ⟨u, hu, hres, fun hcase => ?_, fun _ _ => hlen⟩
    have hsource : s.source = [] := by
      rcases h.emittedBits_eq_nil_iff.mp hnil with hempty | ⟨hsole, hbit⟩
      · exact hempty
      · simp [hsole, hbit] at hcase
    have hzero : s.srcLen.toNat = 0 := by rw [← length_source, hsource]; rfl
    exact ⟨hlen.trans (BitVec.eq_of_toNat_eq hzero.symm), hpos, fun i hi => by omega⟩
  · obtain ⟨u, hu, hres, hlen, hpos, hmem⟩ := h.decode_of_ne_nil hnil (by rwa [length_source])
    refine ⟨u, hu, hres, fun _ => ⟨?_, hpos, fun i hi => ?_⟩, fun hsole hbit => ?_⟩
    · rw [hlen, length_source, BitVec.ofNat_toNat, BitVec.setWidth_eq]
    · have hread := cellRead_cellsWrite_inside t.mem.dst 0 s.source (j := i) (by rwa [length_source])
      rw [hmem, ← Nat.zero_add i, hread]
      simp [State.source, hi]
    · exact absurd (h.emittedBits_eq_nil_iff.mpr (.inr ⟨hsole, hbit⟩)) hnil

end Sys2Proof.Machine
end

section
/-! SUPPORT. Two runs of one command on the operands R93 gives it, command by command, and the obligation of 60_exceptions.md about
them. -/

namespace Sys2Proof.Machine

/-! ## Bodies that end alike -/

/-- Two bodies end alike (R223): at the same `finish` or the same `raise`, in states that agree on ERR_INFO where the body leaves
it, and that `R` relates unless the range check turned the command away. -/
inductive EndAlike (R : State → State → Prop) : Ended → Ended → Prop
  | finished {code : ResultCode} {t t' : State} (herr : t.errInfo = t'.errInfo) (hR : R t t') :
      EndAlike R (.finished code t) (.finished code t')
  | raised {code : ResultCode} {info : Word} {t t' : State} (hR : code ≠ .lenRange → R t t') :
      EndAlike R (.raised code info t) (.raised code info t')

theorem EndAlike.lenRange {R : State → State → Prop} {info : Word} {t t' : State} :
    EndAlike R (.raised .lenRange info t) (.raised .lenRange info t') :=
  .raised fun hne => absurd rfl hne

/-- Bodies that end alike and both finish. -/
theorem EndAlike.of_finished {R : State → State → Prop} {e e' : Ended} {c c' : ResultCode} {t t' : State} (h : EndAlike R e e')
    (he : e = .finished c t) (he' : e' = .finished c' t') : t.errInfo = t'.errInfo ∧ R t t' := by
  subst he he'
  cases h with
  | finished herr hR => exact ⟨herr, hR⟩

section
variable {i : Instr} {s s' t t' : State} (c : ResultCode)

theorem SameResults.finish (h : SameResults i s s' t t') : SameResults i s s' (finish c t) (finish c t') := by
  cases i <;> exact h

theorem SameResults.raise (info : Word) (h : SameResults i s s' t t') :
    SameResults i s s' (raise c info t) (raise c info t') := by
  cases i <;> exact h

end

/-- The completion step gives bodies that end alike one RESULT and one ERR_INFO, and keeps what they wrote. -/
theorem EndAlike.complete {i : Instr} {s s' : State} {e e' : Ended} (h : EndAlike (SameResults i s s') e e') :
    e.complete.result = e'.complete.result ∧ e.complete.errInfo = e'.complete.errInfo ∧
      (e.complete.result ≠ .lenRange → SameResults i s s' e.complete e'.complete) := by
  cases h with
  | finished herr hR => exact ⟨rfl, herr, fun _ => hR.finish _⟩
  | raised hR => exact ⟨rfl, rfl, fun hne => (hR hne).raise _ _⟩

/-! ## COUNT, BUILD, DERIVE, MATERIALIZE, CANON -/

section
variable {s s' : State} (herr : s.errInfo = s'.errInfo)
include herr

theorem countBody_alike (h : SameOperands .count s s') :
    EndAlike (SameResults .count s s') (countBody s) (countBody s') := by
  obtain ⟨hparams, hlen, hsource⟩ := h
  rcases countBody_cases s with ⟨hover, hbody⟩ | ⟨hfits, a, hbody, hcounted, hframe⟩ <;>
    rcases countBody_cases s' with ⟨hover', hbody'⟩ | ⟨hfits', a', hbody', hcounted', hframe'⟩ <;>
    rw [hbody, hbody']
  · exact .lenRange
  · rw [hparams, hlen] at hover
    omega
  · rw [hparams, hlen] at hfits
    omega
  · refine .finished (by rw [hframe, hframe']; exact herr) ⟨?_, BitVec.eq_of_toNat_eq ?_, ?_⟩
    · rw [hcounted.freq, hcounted'.freq, hsource]
    · rw [hcounted.numSyms, hcounted'.numSyms, hsource]
    · rw [hcounted.listed, hcounted'.listed, hsource]

theorem buildBody_alike (h : SameOperands .build s s') :
    EndAlike (SameResults .build s s') (buildBody s) (buildBody s') := by
  obtain ⟨hlisted, hfreq⟩ := h
  have htree : builtTree s'.freq s'.listed = builtTree s.freq s.listed := by rw [hlisted, hfreq]
  unfold buildBody
  rw [htree]
  obtain ⟨queue, nodes⟩ := builtTree s.freq s.listed
  cases queue with
  | nil => exact .finished herr ⟨rfl, rfl, rfl⟩
  | cons root queue =>
    have hle : (BitVec.ofNat 10 nodes.length).toNat ≤ nodes.length := Nat.mod_le _ _
    exact .finished herr ⟨rfl, rfl, (take_overlay_of_le hle).trans (take_overlay_of_le hle).symm⟩

theorem deriveBody_alike (h : SameOperands .derive s s') :
    EndAlike (SameResults .derive s s') (deriveBody s) (deriveBody s') := by
  obtain ⟨hroot, harena, hbit⟩ := h
  have hentries : derivedEntries s = derivedEntries s' := by
    simp only [derivedEntries, singleCode, hroot, harena, hbit]
  exact .finished herr ⟨congrArg tableOf hentries, congrArg (fun es => BitVec.ofNat 9 (presentCount (tableOf es))) hentries⟩

theorem materializeBody_alike (h : SameOperands .materialize s s') :
    EndAlike (SameResults .materialize s s') (materializeBody s) (materializeBody s') := by
  have hshadow : shadowTree s'.code = shadowTree s.code := congrArg shadowTree h.symm
  unfold materializeBody
  rw [hshadow]
  cases shadowTree s.code with
  | error x => exact .raised fun _ => ⟨rfl, rfl, rfl⟩
  | ok sh =>
    have hle : (BitVec.ofNat 17 sh.nodes.length).toNat ≤ sh.nodes.length := Nat.mod_le _ _
    exact .finished herr ⟨rfl, rfl, (take_overlay_of_le hle).trans (take_overlay_of_le hle).symm⟩

theorem canonBody_alike (h : SameOperands .canon s s') :
    EndAlike (SameResults .canon s s') (canonBody s) (canonBody s') := by
  obtain ⟨hn, hinput⟩ := h
  have htable : canonTable s'.canonInput = canonTable s.canonInput := congrArg canonTable hinput.symm
  unfold canonBody
  rw [htable]
  by_cases hover : 256 < s.canonN.toNat
  · rw [if_pos hover, if_pos (hn ▸ hover)]
    exact .lenRange
  · rw [if_neg hover, if_neg (hn ▸ hover)]
    cases canonTable s.canonInput with
    | error e => exact .raised fun _ => ⟨rfl, rfl⟩
    | ok t => exact .finished herr ⟨rfl, congrArg (BitVec.setWidth 9) hn⟩

end

/-! ## SERIALIZE (R190) -/

/-- `s` with `bits` written to BITBUF from bit 0, and BIT_LEN and BIT_CURSOR as given. -/
def State.withBits (s : State) (bits : Code) (len cursor : Word) : State :=
  { s with mem := { s.mem with bitbuf := cellsWrite s.mem.bitbuf 0 bits }, bitLen := len, bitCursor := cursor }

/-- The bits an emission writes from bit 0 and how it ends do not depend on what BITBUF held; it ends just after its bits. -/
theorem emit_bits (codes : SymTable (Option Code)) (cap : Nat) (bs : List Byte) : ∃ bits outcome,
    (∀ m, emit codes cap bs 0 0 m = { bits := cellsWrite m 0 bits, outcome := outcome }) ∧
    ∀ n, outcome = .ok n → n = bits.length := by
  rcases emit_split codes cap bs 0 (Nat.zero_le _) with ⟨hcodes, hfits⟩ | ⟨pre, b, rest, rfl, hcodes, hfits, hbad⟩
  · refine ⟨emittedBits codes bs, _, fun m => emit_ok hcodes hfits, fun n hn => ?_⟩
    cases hn
    exact Nat.zero_add _
  · exact ⟨emittedBits codes pre, _, fun m => emit_error hcodes hfits hbad, nofun⟩

/-- SERIALIZE on two states with the same operands writes the same bits to both buffers and ends alike. -/
theorem serializeBody_alike {R : State → State → Prop} {s s' : State} (herr : s.errInfo = s'.errInfo)
    (h : SameOperands .serialize s s')
    (hR : ∀ bits len cursor cursor', len.toNat ≤ bits.length →
      (cursor = cursor' ∨ cursor = s.bitCursor ∧ cursor' = s'.bitCursor) →
      R (s.withBits bits len cursor) (s'.withBits bits len cursor')) :
    EndAlike R (serializeBody s) (serializeBody s') := by
  obtain ⟨hparams, hlen, hsource, hcode⟩ := h
  obtain ⟨bits, outcome, hemit, hend⟩ := emit_bits s.code s.params.bitbufBits s.source
  have hemit' := hemit s'.mem.bitbuf
  rw [hcode, hparams, hsource] at hemit'
  unfold serializeBody
  by_cases hover : s.params.srcBytes < s.srcLen.toNat
  · rw [if_pos hover, if_pos (hparams ▸ hlen ▸ hover)]
    exact .lenRange
  · rw [if_neg hover, if_neg (hparams ▸ hlen ▸ hover), hemit, hemit']
    cases outcome with
    | ok n =>
      obtain rfl := hend n rfl
      exact .finished herr (hR _ _ _ _ (Nat.mod_le _ _) (.inl rfl))
    | error e => exact .raised fun _ => hR _ _ _ _ (Nat.zero_le _) (.inr ⟨rfl, rfl⟩)

/-- The same bits from bit 0 in two buffers: each bit below BIT_LEN is one of them, and beyond them both buffers are kept. -/
theorem sameBuffer_withBits (s s' : State) {bits : Code} {len cursor cursor' : Word} (hlen : len.toNat ≤ bits.length)
    (hcursor : cursor = cursor' ∨ cursor = s.bitCursor ∧ cursor' = s'.bitCursor) :
    SameBuffer s s' (s.withBits bits len cursor) (s'.withBits bits len cursor') := by
  have hread (u : State) (l k : Word) (p : Nat) : cellRead (u.withBits bits l k).mem.bitbuf p =
      if p < bits.length then bits[p]? else cellRead u.mem.bitbuf p := by
    simp [State.withBits, cellRead_cellsWrite]
  refine ⟨rfl, hcursor, fun p hp => ?_, fun p => ?_⟩
  · have hin : p < bits.length := Nat.lt_of_lt_of_le hp hlen
    rw [hread, hread, if_pos hin, if_pos hin]
  · rw [hread, hread]
    by_cases hin : p < bits.length
    · exact .inl (by rw [if_pos hin, if_pos hin])
    · exact .inr ⟨if_neg hin, if_neg hin⟩

/-! ## ENCODE (R192) -/

/-- ENCODE on two states with the same operands reaches SERIALIZE in states that agree on SERIALIZE's operands and on the tables
and trees, with SRC's and BITBUF's memories and BIT_CURSOR as they were. -/
theorem encodeBody_stages_alike {s s' : State} (herr : s.errInfo = s'.errInfo) (h : SameOperands .encode s s')
    (hfits : s.srcLen.toNat ≤ s.params.srcBytes) : ∃ d d', encodeBody s = serializeBody d ∧ encodeBody s' = serializeBody d' ∧
      d.errInfo = d'.errInfo ∧ SameOperands .serialize d d' ∧ SameDerived d d' ∧ SameDecodeTree d d' ∧
      (d.mem = s.mem ∧ d.bitCursor = s.bitCursor) ∧ d'.mem = s'.mem ∧ d'.bitCursor = s'.bitCursor := by
  obtain ⟨hparams, hlen, hsource, hbit⟩ := h
  obtain ⟨a, b, c, d, ha, hb, hc, hd, hser, -, -, -, -, hfa, hfb, hfc, hfd⟩ := encodeBody_stages hfits
  obtain ⟨a', b', c', d', ha', hb', hc', hd', hser', -, -, -, -, hfa', hfb', hfc', hfd'⟩ :=
    encodeBody_stages (s := s') (hparams ▸ hlen ▸ hfits)
  rw [hfa] at hfb
  rw [hfb] at hfc
  rw [hfc] at hfd
  rw [hfa'] at hfb'
  rw [hfb'] at hfc'
  rw [hfc'] at hfd'
  obtain ⟨herra, hfreq, hnumSyms, hlisted⟩ := (countBody_alike herr ⟨hparams, hlen, hsource⟩).of_finished ha ha'
  obtain ⟨herrb, hroot, hcount, harena⟩ := (buildBody_alike herra ⟨hlisted, hfreq⟩).of_finished hb hb'
  have hbitb : b.sampledCtrl.singleOnebit = b'.sampledCtrl.singleOnebit := by
    rw [hfb, hfb']
    exact hbit
  obtain ⟨herrc, hcode, hcodeCount⟩ := (deriveBody_alike herrb ⟨hroot, harena, hbitb⟩).of_finished hc hc'
  obtain ⟨herrd, htree⟩ := (materializeBody_alike herrc hcode).of_finished hd hd'
  refine ⟨d, d', hser, hser', herrd, ?_, ?_, htree, ?_, ?_⟩
  · rw [hfd, hfd']
    exact ⟨hparams, hlen, hsource, hcode⟩
  · rw [hfd, hfd']
    exact ⟨hfreq, hnumSyms, hlisted, hroot, hcount, harena, hcode, hcodeCount⟩
  · rw [hfd]
    exact ⟨rfl, rfl⟩
  · rw [hfd']
    exact ⟨rfl, rfl⟩

theorem encodeBody_alike {s s' : State} (herr : s.errInfo = s'.errInfo) (h : SameOperands .encode s s') :
    EndAlike (SameResults .encode s s') (encodeBody s) (encodeBody s') := by
  by_cases hfits : s.srcLen.toNat ≤ s.params.srcBytes
  · obtain ⟨d, d', hser, hser', herrd, hops, hderived, htree, ⟨hmem, hcursor⟩, hmem', hcursor'⟩ :=
      encodeBody_stages_alike herr h hfits
    rw [hser, hser']
    refine serializeBody_alike herrd hops fun bits len k k' hlen hk => ⟨hderived, htree, ?_⟩
    have hbuffer := sameBuffer_withBits d d' hlen hk
    unfold SameBuffer at hbuffer ⊢
    rwa [hmem, hcursor, hmem', hcursor'] at hbuffer
  · obtain ⟨hparams, hlen, -⟩ := h
    have hover : s.params.srcBytes < s.srcLen.toNat := Nat.lt_of_not_le hfits
    rw [encodeBody_lenRange hover, encodeBody_lenRange (s := s') (hparams ▸ hlen ▸ hover)]
    exact .lenRange

/-! ## DECODE (R193 to R195) -/

/-- Where a traversal stands when it ends. -/
def TraversalEnd.final : TraversalEnd → Traversal
  | .exhausted t => t
  | .fault _ _ t => t

/-- A bit emits at most one byte (R193). -/
theorem traverse_out_le (dt : List Branch) (cap : Nat) (bs : List Bool) (pos : Nat) (t : Traversal) :
    (traverse dt cap bs pos t).final.out ≤ t.out + bs.length := by
  induction bs generalizing pos t with
  | nil => exact Nat.le_refl _
  | cons b bs ih =>
    rw [traverse_cons, List.length_cons]
    cases (branchAt dt t.node).child b with
    | absent => exact Nat.le_add_right _ _
    | branch j => exact (ih _ _).trans (by simp only; omega)
    | leaf x =>
      by_cases hfull : t.out = cap
      · simp only [if_pos hfull]
        exact Nat.le_add_right _ _
      · simp only [if_neg hfull]
        exact (ih _ _).trans (by simp only; omega)

/-- Traversals that emitted the same bytes from DST[0] leave the same outputs, and beyond the bytes both DSTs are kept. -/
theorem sameResults_withTraversal (s s' : State) {u u' : Traversal} {out : List Byte} (hout : u.out = out.length)
    (hout' : u.out = u'.out) (hlast : u.last = u'.last) (hdst : u.dst = cellsWrite s.mem.dst 0 out)
    (hdst' : u'.dst = cellsWrite s'.mem.dst 0 out) (hlen : out.length < 2 ^ 32) :
    SameResults .decode s s' (s.withTraversal u) (s'.withTraversal u') := by
  have hdstLen : (s.withTraversal u).dstLen.toNat = out.length := by
    rw [withTraversal_dstLen, hout, BitVec.toNat_ofNat]
    exact Nat.mod_eq_of_lt hlen
  refine ⟨congrArg (BitVec.ofNat 32) hout', congrArg (BitVec.ofNat 32) hlast, fun p hp => ?_, fun p hp => ?_⟩ <;>
    rw [hdstLen] at hp <;> simp only [withTraversal_mem, hdst, hdst', cellRead_cellsWrite]
  · simp [hp]
  · simp [Nat.not_lt.mpr hp]

theorem decodeRootless_alike {s s' : State} (herr : s.errInfo = s'.errInfo) (hlen : s.bitLen = s'.bitLen) :
    EndAlike (SameResults .decode s s') (decodeRootless s) (decodeRootless s') := by
  have hsame : SameResults .decode s s' { s with dstLen := 0#32, decBitpos := 0#32 }
      { s' with dstLen := 0#32, decBitpos := 0#32 } := ⟨rfl, rfl, nofun, fun _ _ => ⟨rfl, rfl⟩⟩
  unfold decodeRootless
  by_cases hempty : s.bitLen = 0#32
  · rw [if_pos hempty, if_pos (hlen ▸ hempty)]
    exact .finished herr hsame
  · rw [if_neg hempty, if_neg (hlen ▸ hempty)]
    exact .raised fun _ => hsame

theorem decodeBody_alike {s s' : State} (herr : s.errInfo = s'.errInfo) (h : SameOperands .decode s s') :
    EndAlike (SameResults .decode s s') (decodeBody s) (decodeBody s') := by
  obtain ⟨hparams, hlen, hstream, hroot, hdt⟩ := h
  by_cases hover : s.params.bitbufBits < s.bitLen.toNat
  · rw [decodeBody_lenRange hover, decodeBody_lenRange (s := s') (hparams ▸ hlen ▸ hover)]
    exact .lenRange
  have hfits : s.bitLen.toNat ≤ s.params.bitbufBits := Nat.le_of_not_lt hover
  have hfits' : s'.bitLen.toNat ≤ s'.params.bitbufBits := hparams ▸ hlen ▸ hfits
  rcases Desc.cases_root s.dtRoot with hr | ⟨n, hr⟩
  · rw [decodeBody_rootless hfits hr, decodeBody_rootless hfits' (hroot ▸ hr)]
    exact decodeRootless_alike herr hlen
  · rw [decodeBody_branch hfits hr, decodeBody_branch hfits' (hroot ▸ hr), ← hdt, ← hparams, ← hstream, ← hlen]
    obtain ⟨u, u', out, hout, hlast, hcount, hdst, hdst', hends⟩ := traverse_pair (dt := s.dt) (cap := s.params.dstBytes)
      s.stream 0 { node := 0, out := 0, last := 0, dst := s.mem.dst } { node := 0, out := 0, last := 0, dst := s'.mem.dst }
      rfl rfl rfl
    have hu : u.out = out.length := hcount.symm.trans (Nat.zero_add _)
    have hbytes : u.out ≤ s.bitLen.toNat := by
      have hle := traverse_out_le s.dt s.params.dstBytes s.stream 0 { node := 0, out := 0, last := 0, dst := s.mem.dst }
      rw [length_stream, Nat.zero_add] at hle
      rcases hends with ⟨hend, -⟩ | ⟨_, _, hend, -⟩ <;> rwa [hend] at hle
    have hsame := sameResults_withTraversal s s' hu hout hlast hdst hdst' (hu ▸ hbytes.trans_lt s.bitLen.isLt)
    rcases hends with ⟨hend, hend'⟩ | ⟨c, p, hend, hend'⟩ <;> rw [hend, hend']
    · simp only [hlast]
      exact .finished herr hsame
    · exact .raised fun _ => hsame

/-! ## Every command (R223) -/

/-- Each command's body ends alike on two states that agree on its operands and on ERR_INFO. -/
theorem bodyOf_alike (i : Instr) {s s' : State} (h : SameOperands i s s') (herr : s.errInfo = s'.errInfo) :
    EndAlike (SameResults i s s') (bodyOf i s) (bodyOf i s') := by
  cases i with
  | nop => exact .finished herr trivial
  | clear => exact .finished herr ⟨rfl, rfl, rfl, rfl, rfl, rfl, rfl, rfl, rfl, rfl⟩
  | count => exact countBody_alike herr h
  | build => exact buildBody_alike herr h
  | derive => exact deriveBody_alike herr h
  | materialize => exact materializeBody_alike herr h
  | serialize => exact serializeBody_alike herr h fun _ _ _ _ => sameBuffer_withBits s s'
  | encode => exact encodeBody_alike herr h
  | canon => exact canonBody_alike herr h
  | decode => exact decodeBody_alike herr h

/-- Settles O23: the bodies of the two runs end alike, and the completion step keeps that. -/
theorem commandsAreFunctionsOfWhatTheyRead : Obligations.CommandsAreFunctionsOfWhatTheyRead := by
  intro i s s' t t' h herr hexec hexec'
  obtain rfl := exec_next hexec
  obtain rfl := exec_next hexec'
  exact (bodyOf_alike i h herr).complete

end Sys2Proof.Machine
end

section
/-! SUPPORT. The command words, the turn of the engine, and the obligations of 30_encoding.md and about the step. -/

namespace Sys2Proof.Machine

/-! ## Encoding (R90, R91) -/

/-- Settles O1: each word written out is the encoding of its command. -/
theorem opcodeWordsDecodeToTheirCommands : Obligations.OpcodeWordsDecodeToTheirCommands :=
  ⟨decode_encode .nop, decode_encode .clear, decode_encode .count, decode_encode .build, decode_encode .derive,
    decode_encode .materialize, decode_encode .serialize, decode_encode .encode, decode_encode .canon, decode_encode .decode⟩

/-- Settles O2: a word that decodes to a command is some command's word, and the decoder gives that command back. -/
theorem commandWordsAreUnique : Obligations.CommandWordsAreUnique := by
  intro i w
  constructor
  · intro h
    rcases decode_cases w with ⟨j, rfl, hj⟩ | ⟨-, hillegal⟩
    · cases hj.symm.trans h
      rfl
    · cases hillegal.symm.trans h
  · rintro rfl
    exact decode_encode i

/-! ## The step (R71) -/

theorem runCommand_command (s : State) {w : Word} {i : Instr} (h : decode w = .command i) : runCommand w s = exec i s := by
  rw [runCommand, h]

/-- Settles O6: a command that is due runs, and an accepted word without delay is due. -/
theorem stepRunsTheAcceptedCommand : Obligations.StepRunsTheAcceptedCommand := by
  constructor
  · intro s w c d i hengine hdue hw
    rw [step_due hengine hdue, runCommand_command s hw]
  · intro s w i hw
    rw [step_due (s := s.withFetchWord 32 w) rfl (.inl rfl), runCommand_command _ hw]

/-- While the running command lets inputs pass, the machine takes its next input and uses up one of the delay. -/
theorem step_running {s : State} {w : Word} {c : Ctrl} {d : Nat} {i : Input} {rest : List Input}
    (h : s.engine = .busy w c (d + 1)) (hi : s.inputs = i :: rest) :
    step s = takeInput i { s with inputs := rest, engine := .busy w c d } := by
  rw [step, h, hi]

/-- Settles O7: an input that is taken is performed on the state without it, and an IDLE machine without inputs rests. -/
theorem stepPerformsTheNextAccess : Obligations.StepPerformsTheNextAccess := by
  refine ⟨fun s a off rest hi hline hoff => ⟨fun hidle => ?_, fun w c d hbusy => ?_⟩, fun s hidle hi => ?_,
    fun s rest hi => ⟨fun hidle => step_idle hidle hi, fun w c d hbusy => step_running hbusy hi⟩⟩
  · rw [step_idle hidle hi]
    exact takeInput_access hline hoff
  · rw [step_running hbusy hi]
    exact takeInput_access hline hoff
  · rw [step, hidle, hi]

end Sys2Proof.Machine
end

section
/-! SUPPORT. What every command has in common: its frame, how its body ends, its range check; and the obligations about all
commands. -/

namespace Sys2Proof.Machine

/-! ## Frames (R93) -/

/-- Each body, once complete, wrote only what R93 says its command writes. -/
theorem bodyOf_writesOnly (i : Instr) (s : State) : WritesOnly i s (bodyOf i s).complete := by
  cases i with
  | nop => rfl
  | clear => rfl
  | count =>
    rcases countBody_cases s with ⟨-, hbody⟩ | ⟨-, t, hbody, -, hframe⟩
    · rw [bodyOf, hbody]; rfl
    · rw [bodyOf, hbody, hframe]; rfl
  | build =>
    obtain ⟨_, _, _, hbody⟩ := buildBody_frame s
    rw [bodyOf, hbody]; rfl
  | derive => rfl
  | materialize =>
    rcases materializeBody_frame s with ⟨-, _, _, _, hbody⟩ | ⟨-, _, hbody⟩ <;> rw [bodyOf, hbody] <;> rfl
  | serialize =>
    rcases serializeBody_frame s with ⟨_, _, hbody⟩ | ⟨_, _, _, _, -, -, hbody⟩ <;> rw [bodyOf, hbody] <;> rfl
  | encode =>
    rcases encodeBody_frame s with hbody | ⟨_, _, _, _, _, _, _, _, _, _, _, _, _, hbody | ⟨_, _, -, -, hbody⟩⟩ <;>
      rw [bodyOf, hbody] <;> rfl
  | canon =>
    rcases canonBody_cases s with hbody | ⟨_, _, -, -, -, hbody⟩ | ⟨_, -, -, hbody⟩ <;> rw [bodyOf, hbody] <;> rfl
  | decode =>
    rcases decodeBody_frame s with hbody | ⟨_, _, _, -, -, ⟨_, -, hbody⟩ | ⟨_, _, -, -, hbody⟩⟩ <;>
      rw [bodyOf, hbody] <;> rfl

/-- Settles O22: a command is its body and the completion step, and the two write what R93 says. -/
theorem commandsWriteOnlyTheirOutputs : Obligations.CommandsWriteOnlyTheirOutputs := by
  intro i s t h
  rw [exec_next h]
  exact bodyOf_writesOnly i s

/-- What no command writes: the parameters, CTRL, the flags OVR and ACCERR, the reset line, and the inputs to come. -/
structure KeepsHostFlags (s t : State) : Prop where
  params : t.params = s.params
  ctrl : t.ctrl = s.ctrl
  ovr : t.ovr = s.ovr
  accerr : t.accerr = s.accerr
  resetLine : t.resetLine = s.resetLine
  inputs : t.inputs = s.inputs

theorem WritesOnly.keepsHostFlags {i : Instr} {s t : State} (h : WritesOnly i s t) : KeepsHostFlags s t := by
  cases i <;> (
    have h : t = _ := h
    exact ⟨(congrArg State.params h :), (congrArg State.ctrl h :), (congrArg State.ovr h :), (congrArg State.accerr h :),
      (congrArg State.resetLine h :), (congrArg State.inputs h :)⟩)

/-! ## How a body ends (R221, R222) -/

/-- Every body ends in a success that keeps ERR_INFO, or in a fault; COLLISION is MATERIALIZE's alone, on a table that is not
prefix-free. -/
theorem bodyOf_ends (i : Instr) (s : State) :
    (∃ c u, bodyOf i s = .finished c u ∧ c.isFault = false ∧ u.errInfo = s.errInfo) ∨
    ∃ c x u, bodyOf i s = .raised c x u ∧ c.isFault = true ∧ (c = .collision → i = .materialize ∧ ¬ PrefixFree s.code) := by
  cases i with
  | nop => exact .inl ⟨.ok, s, rfl, rfl, rfl⟩
  | clear => exact .inl ⟨.ok, _, rfl, rfl, rfl⟩
  | count =>
    rcases countBody_cases s with ⟨-, hbody⟩ | ⟨-, t, hbody, -, hframe⟩
    · exact .inr ⟨_, _, _, hbody, rfl, nofun⟩
    · exact .inl ⟨_, _, hbody, rfl, (congrArg State.errInfo hframe :)⟩
  | build =>
    obtain ⟨_, _, _, hbody⟩ := buildBody_frame s
    exact .inl ⟨_, _, hbody, rfl, rfl⟩
  | derive => exact .inl ⟨.ok, _, rfl, rfl, rfl⟩
  | materialize =>
    rcases materializeBody_frame s with ⟨-, _, _, _, hbody⟩ | ⟨hnot, _, hbody⟩
    · exact .inl ⟨_, _, hbody, rfl, rfl⟩
    · exact .inr ⟨_, _, _, hbody, rfl, fun _ => ⟨rfl, hnot⟩⟩
  | serialize =>
    rcases serializeBody_frame s with ⟨_, _, hbody⟩ | ⟨_, _, _, _, hne, hfault, hbody⟩
    · exact .inl ⟨_, _, hbody, rfl, rfl⟩
    · exact .inr ⟨_, _, _, hbody, hfault, fun h => absurd h hne⟩
  | encode =>
    rcases encodeBody_frame s with hbody | ⟨_, _, _, _, _, _, _, _, _, _, _, _, _, hbody | ⟨_, _, hne, hfault, hbody⟩⟩
    · exact .inr ⟨_, _, _, hbody, rfl, nofun⟩
    · exact .inl ⟨_, _, hbody, rfl, rfl⟩
    · exact .inr ⟨_, _, _, hbody, hfault, fun h => absurd h hne⟩
  | canon =>
    rcases canonBody_cases s with hbody | ⟨_, _, hne, hfault, -, hbody⟩ | ⟨_, -, -, hbody⟩
    · exact .inr ⟨_, _, _, hbody, rfl, nofun⟩
    · exact .inr ⟨_, _, _, hbody, hfault, fun h => absurd h hne⟩
    · exact .inl ⟨_, _, hbody, rfl, rfl⟩
  | decode =>
    rcases decodeBody_frame s with hbody | ⟨_, _, _, -, -, ⟨_, hok, hbody⟩ | ⟨_, _, hne, hfault, hbody⟩⟩
    · exact .inr ⟨_, _, _, hbody, rfl, nofun⟩
    · exact .inl ⟨_, _, hbody, hok, rfl⟩
    · exact .inr ⟨_, _, _, hbody, hfault, fun h => absurd h hne⟩

/-- A command that ends with a success leaves ERR_INFO as acceptance left it (R40, R221). -/
theorem complete_errInfo_of_success {i : Instr} {s : State} (h : (bodyOf i s).complete.result.isFault = false) :
    (bodyOf i s).complete.errInfo = s.errInfo := by
  rcases bodyOf_ends i s with ⟨c, u, hbody, -, herr⟩ | ⟨c, x, u, hbody, hfault, -⟩
  · rw [hbody]
    exact herr
  · rw [hbody, complete_raised, raise_result, hfault] at h
    cases h

/-- COLLISION is the result of MATERIALIZE alone, and only on a table that is not prefix-free (R154). -/
theorem not_prefixFree_of_complete_collision {i : Instr} {s : State} (h : (bodyOf i s).complete.result = .collision) :
    i = .materialize ∧ ¬ PrefixFree s.code := by
  rcases bodyOf_ends i s with ⟨c, u, hbody, hok, -⟩ | ⟨c, x, u, hbody, -, hcollision⟩
  · rw [hbody, complete_finished, finish_result] at h
    subst h
    cases hok
  · rw [hbody, complete_raised, raise_result] at h
    exact hcollision h

/-- Settles O24: every command is a body and then the completion step, which no command's body can avoid. -/
theorem everyCommandReachesItsCompletionStep : Obligations.EveryCommandReachesItsCompletionStep := by
  intro i s
  have hkeep := (bodyOf_writesOnly i s).keepsHostFlags
  exact ⟨_, exec_eq i s, complete_done _, complete_busy _, hkeep.ovr, hkeep.accerr, hkeep.ctrl, complete_errInfo_of_success⟩

/-! ## The range checks (R222, R224 item 1) -/

/-- A command whose range check turns it away changes STATUS and ERR_INFO alone. -/
theorem exec_of_lenRange {i : Instr} {s : State} {info : Word} (h : bodyOf i s = .raised .lenRange info s) :
    exec i s = .next { s with
      result := .lenRange, errInfo := info, done := true, engine := .idle, tick := s.tick + 1 } := by
  rw [exec_eq, h]
  rfl

/-- Settles O25: each range check comes first in its body, and a failed one leaves the state alone. -/
theorem overlongInputsFaultAndChangeNothing : Obligations.OverlongInputsFaultAndChangeNothing := by
  refine fun s => ⟨fun hlen i hi => exec_of_lenRange ?_, fun hlen => exec_of_lenRange (decodeBody_lenRange hlen),
    fun hlen => exec_of_lenRange (if_pos hlen)⟩
  rcases hi with rfl | rfl | rfl
  · exact if_pos hlen
  · exact if_pos hlen
  · exact encodeBody_lenRange hlen

end Sys2Proof.Machine
end

section
/-! SUPPORT. Everything one host access can do, with the access that does it, and the obligations about accesses. -/

namespace Sys2Proof.Machine

/-! ## Inversion of an access -/

/-- What an access at an offset does to a state, by kind: the flag of R62, a read (R69), a write that is dropped (R70), or one that
is performed (R64); a performed write sets CTRL, acknowledges, starts a command, or stores host state. -/
inductive AccessEffect (s : State) (off : Nat) : Access → State → Prop
  | unsupported {a : Access} (w : Width) (addr : Nat) (r : Option Word) (h : w ≠ .word ∨ off % 4 ≠ 0)
      (ha : a = .read w addr ∨ ∃ v, a = .write w addr v) : AccessEffect s off a { s with accerr := true, response := r }
  | read (addr : Nat) (r : Option Word) (h4 : off % 4 = 0) :
      AccessEffect s off (.read .word addr) { s with response := r, tick := s.tick + 1 }
  | dropped (addr : Nat) (v : Word) (h4 : off % 4 = 0) (hbusy : s.busy = true) (hinput : (target s.params off).isInput = true) :
      AccessEffect s off (.write .word addr v) { s with ovr := true, response := none }
  | setsCtrl (addr : Nat) (v : Word) (hoff : off = 0x004) :
      AccessEffect s off (.write .word addr v) { s with ctrl := Ctrl.ofWord v, response := none }
  | acknowledges (addr : Nat) (v : Word) (hoff : off = 0x00C) :
      AccessEffect s off (.write .word addr v) { acknowledge v s with response := none }
  | accepts (addr : Nat) (v : Word) (hoff : off = 0x008) (hidle : s.busy = false) :
      AccessEffect s off (.write .word addr v) { accept v s with response := none }
  | stores (addr : Nat) (v srcLen bitLen bitCursor canonN : Word) (mem : Memory) :
      AccessEffect s off (.write .word addr v)
        { s with
          srcLen := srcLen, bitLen := bitLen, bitCursor := bitCursor, canonN := canonN, mem := mem, response := none }

/-- A write that is performed at the offset of a target. -/
theorem accessEffect_writeTarget (s : State) (off addr : Nat) (v : Word)
    (h : s.busy = false ∨ (target s.params off).isInput = false) :
    AccessEffect s off (.write .word addr v) { writeTarget v s (target s.params off) with response := none } := by
  have hat := target_at s.params off
  cases htarget : target s.params off with
  | reg r =>
    rw [htarget] at hat h
    cases r with
    | ctrl => exact .setsCtrl addr v hat
    | status => exact .acknowledges addr v hat
    | cmd => exact .accepts addr v hat (h.resolve_right nofun)
    | _ =>
      rw [writeTarget, writeReg]
      exact .stores addr v _ _ _ _ _
  | _ =>
    rw [writeTarget]
    exact .stores addr v _ _ _ _ _

/-- Every access has one of these effects. -/
theorem hostAccess_effect (a : Access) (off : Nat) (s : State) : AccessEffect s off a (hostAccess a off s) := by
  have hkind (w : Width) : (w = .word ∧ off % 4 = 0) ∨ (w ≠ .word ∨ off % 4 ≠ 0) := by tauto
  cases a with
  | read w addr =>
    rcases hkind w with ⟨rfl, h4⟩ | h
    · rw [hostAccess_read s (supported_word h4)]
      exact .read addr _ h4
    · rw [hostAccess_read_unsupported s addr (supported_eq_false h)]
      exact .unsupported w addr _ h (.inl rfl)
  | write w addr v =>
    rcases hkind w with ⟨rfl, h4⟩ | h
    · rw [hostAccess_write s v (supported_word h4)]
      rcases hostWrite_cases off v s with ⟨hbusy, hinput, hw⟩ | ⟨hperformed, hw⟩ <;> rw [hw]
      · exact .dropped addr v h4 hbusy hinput
      · exact accessEffect_writeTarget s off addr v hperformed
    · rw [hostAccess_write_unsupported s addr v (supported_eq_false h)]
      exact .unsupported w addr _ h (.inr ⟨v, rfl⟩)

/-! ## CMD, CTRL and STATUS (R25 to R27) -/

/-- A write that BUSY drops sets OVR and nothing else (R70). -/
theorem hostAccess_write_dropped {s : State} {off : Nat} (addr : Nat) (v : Word) (hbusy : s.busy = true) (h4 : off % 4 = 0)
    (hinput : (target s.params off).isInput = true) :
    hostAccess (.write .word addr v) off s = { s with ovr := true, response := none } := by
  rw [hostAccess_write s v (supported_word h4), hostWrite_dropped s off v hbusy hinput]

/-- Settles O8: CMD is no output of a command, so its read answers 0 in either phase; it is an input, so a write is dropped while
BUSY. -/
theorem cmdWriteStartsACommandOrIsDropped : Obligations.CmdWriteStartsACommandOrIsDropped := by
  refine fun s addr v => ⟨?_, hostAccess_write_cmd addr v, fun hbusy => ?_⟩
  · exact congrArg State.response (hostAccess_read_register s addr .cmd (.inr rfl))
  · refine hostAccess_write_dropped addr v hbusy rfl ?_
    exact congrArg Target.isInput (target_offset s.params .cmd)

/-- Settles O10: CTRL and STATUS are no inputs of a command, so BUSY drops no write of them. -/
theorem ctrlAndStatusWritesAreAlwaysPerformed : Obligations.CtrlAndStatusWritesAreAlwaysPerformed :=
  fun s addr v =>
    ⟨hostAccess_write_register s addr .ctrl v (.inr rfl), hostAccess_write_register s addr .status v (.inr rfl)⟩

/-! ## While BUSY (R70, R72) -/

/-- The offsets of the commands' inputs name targets whose writes BUSY drops. -/
theorem isInput_of_namesCommandInput {p : Params} {off : Nat} (h : NamesCommandInput p off) :
    (target p off).isInput = true := by
  rcases h with hreg | ⟨hlow, hhigh⟩ | ⟨hlow, hhigh, hcap⟩ | ⟨hlow, hhigh, hcap⟩
  · have hr : ∃ r : Reg, off = r.offset ∧ (Target.reg r).isInput = true := by
      simp only [List.mem_cons, List.not_mem_nil, or_false] at hreg
      rcases hreg with rfl | rfl | rfl | rfl | rfl
      exacts [⟨.cmd, rfl, rfl⟩, ⟨.srcLen, rfl, rfl⟩, ⟨.bitLen, rfl, rfl⟩, ⟨.bitCursor, rfl, rfl⟩, ⟨.canonN, rfl, rfl⟩]
    obtain ⟨r, rfl, hr⟩ := hr
    rwa [target_offset]
  · rw [target_canon p hlow hhigh]
    rfl
  · rw [target_src p hlow hhigh (by omega)]
    rfl
  · rw [target_bitbuf p hlow hhigh (by omega)]
    rfl

/-- Settles O9: while BUSY no access starts a command, and a performed write reaches CTRL or the flags alone. -/
theorem busyAccessesKeepEveryCommandInput : Obligations.BusyAccessesKeepEveryCommandInput := by
  refine ⟨fun s a off hbusy => ?_, fun s addr off v hbusy h4 hnames =>
    hostAccess_write_dropped addr v hbusy h4 (isInput_of_namesCommandInput hnames)⟩
  rcases hostAccess_cases a off s with ⟨r, h⟩ | ⟨r, h⟩ | ⟨v, -, h⟩
  · rw [h]
  · rw [h]
  · rcases hostWrite_cases off v s with ⟨-, -, hw⟩ | ⟨hperformed, hw⟩
    · rw [h, hw]
    · have hnot : (target s.params off).isInput = false := by simpa [hbusy] using hperformed
      rcases writeTarget_notInput v s _ hnot with ht | ht | ht <;> rw [h, hw, ht]
      rfl

/-! ## Offsets that name nothing (R63) -/

section
variable {s : State} {off : Nat} (ht : target s.params off = .unnamed) (h4 : off % 4 = 0)
include ht h4

theorem hostAccess_read_unnamed (addr : Nat) :
    hostAccess (.read .word addr) off s = { s with response := some 0#32, tick := s.tick + 1 } := by
  have hread : s.hostRead off = 0#32 := by
    rw [hostRead_exact s off (by rw [ht]; rfl), ht]
    rfl
  rw [hostAccess_read s (supported_word h4), hread]

theorem hostAccess_write_unnamed (addr : Nat) (v : Word) :
    hostAccess (.write .word addr v) off s = { s with response := none } := by
  rw [hostAccess_write s v (supported_word h4), hostWrite_performed s off v (.inr (by rw [ht]; rfl)), ht]
  rfl

end

/-- The capacities leave no part of an entry over (R6). -/
theorem capacities_mod {p : Params} (h : p.wf = true) : p.srcBytes % 4 = 0 ∧ p.bitbufBits % 32 = 0 := by
  simp only [Params.wf, byteCapacityOk, bitCapacityOk, Bool.and_eq_true, decide_eq_true_eq, beq_iff_eq] at h
  omega

/-- Settles O12: each of these ranges lies where the map names nothing. -/
theorem unnamedOffsetsReadZeroAndIgnoreWrites : Obligations.UnnamedOffsetsReadZeroAndIgnoreWrites := by
  intro s addr off v hw h4 hrange
  have ht : target s.params off = .unnamed := by
    obtain ⟨-, hbits⟩ := capacities_mod hw
    by_cases hreg : off < 0x1000
    · exact target_register_unnamed s.params (by omega) hreg
    · exact target_unnamed s.params (by omega)
  exact ⟨hostAccess_read_unnamed ht h4 addr, hostAccess_write_unnamed ht h4 addr v⟩

end Sys2Proof.Machine
end

section
/-! SUPPORT. The words registers read as, field by field, and the obligation about the register block. -/

namespace Sys2Proof.Machine

/-! ## The words of CTRL, STATUS and TREE_ROOT (R25, R27, R35) -/

theorem ctrl_toWord_fields (c : Ctrl) :
    c.toWord.getLsbD 0 = c.irqEn ∧ c.toWord.getLsbD 1 = c.singleOnebit ∧ c.toWord.extractLsb' 2 30 = 0#30 := by
  obtain ⟨irqEn, singleOnebit⟩ := c
  cases irqEn <;> cases singleOnebit <;> decide

theorem statusWord_fields (s : State) :
    s.statusWord.getLsbD 0 = s.busy ∧ s.statusWord.getLsbD 1 = s.done ∧ s.statusWord.getLsbD 2 = s.ovr ∧
    s.statusWord.getLsbD 3 = s.accerr ∧ s.statusWord.extractLsb' 4 4 = 0#4 ∧
    s.statusWord.extractLsb' 8 8 = s.result.toByte ∧ s.statusWord.extractLsb' 16 16 = 0#16 := by
  unfold State.statusWord
  generalize s.busy = busy, s.done = done, s.ovr = ovr, s.accerr = accerr
  cases s.result <;> revert busy done ovr accerr <;> decide

theorem treeRootWord_fields (r : Option (BitVec 9)) :
    (treeRootWord r).extractLsb' 9 22 = 0#22 ∧ (treeRootWord r).getLsbD 31 = r.isSome ∧
    (treeRootWord r).extractLsb' 0 9 = r.getD 0#9 := by
  cases r with
  | none => decide
  | some i =>
    have hlow : (i.setWidth 32).extractLsb' 0 9 = i := extractLsb'_setWidth_field i (by decide)
    have hmid : (i.setWidth 32).extractLsb' 9 22 = 0#22 := extractLsb'_setWidth_above i (by decide)
    have htop : (i.setWidth 32).getLsbD 31 = false := by simp
    refine ⟨?_, ?_, ?_⟩
    · rw [treeRootWord, BitVec.extractLsb'_or, hmid]
      decide
    · rw [treeRootWord, BitVec.getLsbD_or, htop]
      rfl
    · rw [treeRootWord, BitVec.extractLsb'_or, hlow]
      exact BitVec.zero_or

/-! ## Reads and writes of registers (R23, R64, R70) -/

/-- In either phase a read of a register shows no bit that the register's rule does not name (R23, U11). -/
theorem hostAccess_read_register_unnamed (s : State) (addr : Nat) (r : Reg) :
    ∃ w, (hostAccess (.read .word addr) r.offset s).response = some w ∧ w &&& ~~~r.namedBits = 0#32 := by
  by_cases h : s.busy = true ∧ r.isOutput = true
  · refine ⟨Config.freeWord s.tick r.offset &&& r.namedBits, ?_, ?_⟩
    · have hread := hostRead_unspecified s r.offset h.1 (by rw [target_offset]; exact h.2)
      rw [hostAccess_read s (supported_word r.offset_mod), hread, target_offset]
      rfl
    · rw [BitVec.and_assoc, BitVec.and_not_self]
      exact BitVec.and_zero
  · have h' : s.busy = false ∨ r.isOutput = false := by simpa [Classical.or_iff_not_imp_left] using h
    exact ⟨s.readReg r, congrArg State.response (hostAccess_read_register s addr r h'), readReg_unnamed s r⟩

/-- A register whose value is that of the word `v` at its offset answers it, unless a command that runs may write it. -/
theorem hostAccess_read_register_value {s : State} (addr : Nat) {off : Nat} {v : Word}
    (h : ∃ r : Reg, off = r.offset ∧ v = s.readReg r ∧ (s.busy = false ∨ r.isOutput = false)) :
    (hostAccess (.read .word addr) off s).response = some v := by
  obtain ⟨r, rfl, rfl, hphase⟩ := h
  exact congrArg State.response (hostAccess_read_register s addr r hphase)

/-- A write to an RO register, a table or a DST word is ignored (R64). -/
theorem hostAccess_write_readOnly (s : State) (addr : Nat) (v : Word) {off : Nat} (h4 : off % 4 = 0)
    (h : (0x020 ≤ off ∧ off < 0x054) ∨ (0x1000 ≤ off ∧ off < 0x1800) ∨ (0x2000 ≤ off ∧ off < 0x2FF8) ∨
      (0x4000 ≤ off ∧ off < 0x8000) ∨ (0x100000 ≤ off ∧ off < 0x180000) ∨ (0x300000 ≤ off ∧ off < 0x400000)) :
    hostAccess (.write .word addr v) off s = { s with response := none } := by
  have hreadOnly : (target s.params off).isInput = false ∧ writeTarget v s (target s.params off) = s := by
    have hat := target_at s.params off
    cases htarget : target s.params off <;> rw [htarget] at hat <;> simp only [Target.At] at hat
    case reg r =>
      subst hat
      cases r with
      | ctrl | cmd | status | srcLen | bitLen | bitCursor | canonN => exact absurd h (by decide)
      | _ => exact ⟨rfl, rfl⟩
    case canon => omega
    case src => omega
    case bitbuf => omega
    all_goals exact ⟨rfl, rfl⟩
  rw [hostAccess_write s v (supported_word h4), hostWrite_performed s off v (.inr hreadOnly.1), hreadOnly.2]

/-- Settles O14: each offset is a register's, whose value and whose write are those of its rule; the words of CTRL, STATUS and
TREE_ROOT are read field by field. -/
theorem registersReadAndWriteWhileIdle : Obligations.RegistersReadAndWriteWhileIdle := by
  refine ⟨by decide, fun s addr => ⟨fun off h4 => ⟨_, hostAccess_read s (supported_word h4)⟩, fun off v hmem => ?_,
    ⟨s.ctrl.toWord, ?_, ctrl_toWord_fields s.ctrl⟩, ⟨s.statusWord, ?_, statusWord_fields s⟩, fun off named hmem => ?_,
    fun off h4 hrange v => hostAccess_write_readOnly s addr v h4 hrange, fun hidle => ?_⟩⟩
  · refine hostAccess_read_register_value addr ?_
    simp only [List.mem_cons, Prod.mk.injEq, List.not_mem_nil, or_false] at hmem
    rcases hmem with ⟨rfl, rfl⟩ | ⟨rfl, rfl⟩ | ⟨rfl, rfl⟩ | ⟨rfl, rfl⟩ | ⟨rfl, rfl⟩ | ⟨rfl, rfl⟩
    exacts [⟨.srcLen, rfl, rfl, .inr rfl⟩, ⟨.canonN, rfl, rfl, .inr rfl⟩, ⟨.cfgSrcBytes, rfl, rfl, .inr rfl⟩,
      ⟨.cfgDstBytes, rfl, rfl, .inr rfl⟩, ⟨.cfgBitbufBits, rfl, rfl, .inr rfl⟩, ⟨.cfgCanonLmax, rfl, rfl, .inr rfl⟩]
  · exact hostAccess_read_register_value addr ⟨.ctrl, rfl, rfl, .inr rfl⟩
  · exact hostAccess_read_register_value addr ⟨.status, rfl, rfl, .inr rfl⟩
  · have hreg : ∃ r : Reg, off = r.offset ∧ named = r.namedBits := by
      simp only [List.mem_cons, Prod.mk.injEq, List.not_mem_nil, or_false] at hmem
      rcases hmem with ⟨rfl, rfl⟩ | ⟨rfl, rfl⟩ | ⟨rfl, rfl⟩ | ⟨rfl, rfl⟩ | ⟨rfl, rfl⟩ | ⟨rfl, rfl⟩
      exacts [⟨.numSyms, rfl, rfl⟩, ⟨.nodeCount, rfl, rfl⟩, ⟨.treeRoot, rfl, rfl⟩, ⟨.codeCount, rfl, rfl⟩,
        ⟨.dtRoot, rfl, rfl⟩, ⟨.dtNodes, rfl, rfl⟩]
    obtain ⟨r, rfl, rfl⟩ := hreg
    exact hostAccess_read_register_unnamed s addr r
  · have hphase : s.busy = false := (not_busy_iff s).mpr hidle
    refine ⟨fun off v hmem => hostAccess_read_register_value addr ?_,
      ⟨treeRootWord s.treeRoot, hostAccess_read_register_value addr ⟨.treeRoot, rfl, rfl, .inl hphase⟩,
        treeRootWord_fields s.treeRoot⟩,
      fun v => ⟨hostAccess_write_register s addr .srcLen v (.inl hphase),
        hostAccess_write_register s addr .bitLen v (.inl hphase),
        hostAccess_write_register s addr .bitCursor v (.inl hphase),
        hostAccess_write_register s addr .canonN v (.inl hphase)⟩⟩
    simp only [List.mem_cons, Prod.mk.injEq, List.not_mem_nil, or_false] at hmem
    rcases hmem with ⟨rfl, rfl⟩ | ⟨rfl, rfl⟩ | ⟨rfl, rfl⟩ | ⟨rfl, rfl⟩ | ⟨rfl, rfl⟩ | ⟨rfl, rfl⟩ | ⟨rfl, rfl⟩ |
      ⟨rfl, rfl⟩ | ⟨rfl, rfl⟩ | ⟨rfl, rfl⟩
    exacts [⟨.bitLen, rfl, rfl, .inl hphase⟩, ⟨.bitCursor, rfl, rfl, .inl hphase⟩, ⟨.dstLen, rfl, rfl, .inl hphase⟩,
      ⟨.numSyms, rfl, rfl, .inl hphase⟩, ⟨.nodeCount, rfl, rfl, .inl hphase⟩, ⟨.codeCount, rfl, rfl, .inl hphase⟩,
      ⟨.dtRoot, rfl, rfl, .inl hphase⟩, ⟨.dtNodes, rfl, rfl, .inl hphase⟩, ⟨.decBitpos, rfl, rfl, .inl hphase⟩,
      ⟨.errInfo, rfl, rfl, .inl hphase⟩]

end Sys2Proof.Machine
end

section
/-! SUPPORT. What a step does to the flags, how reset acts, and the obligations about the flags and reset. -/

namespace Sys2Proof.Machine

/-! ## Reset (R54, R250) -/

/-- Settles O17: each value of the reset table is read off the reset state; its tables hold one value in every slot. -/
theorem resetTableHolds : Obligations.ResetTableHolds := by
  refine ⟨rfl, by decide, by decide, rfl, rfl, rfl, rfl, rfl, rfl, rfl, rfl, rfl, rfl, rfl, rfl, rfl, fun x => ?_, rfl,
    fun i => ⟨rfl, rfl, rfl, rfl⟩, rfl, rfl, rfl, rfl, rfl⟩
  exact ⟨get_replicate 0#32 x, get_replicate none x⟩

/-- Settles O18: the step takes the reset input, which no phase refuses. -/
theorem resetEventGivesResetValues : Obligations.ResetEventGivesResetValues := by
  intro s rest hi hphase
  rcases hphase with hidle | ⟨w, c, d, hbusy⟩
  · exact ⟨_, step_idle hidle hi, rfl, rfl⟩
  · exact ⟨_, step_running hbusy hi, rfl, rfl⟩

/-! ## Inversion of a step (R71) -/

/-- `t` is reached from `s` by the completion of its command (R221). -/
structure Completes (s t : State) : Prop where
  running : s.busy = true
  idle : t.busy = false
  done : t.done = true
  kept : KeepsHostFlags s t

/-- `t` has the flags and the result of `s`, and is BUSY when `s` is. -/
structure SameFlags (s t : State) : Prop where
  done : t.done = s.done
  ovr : t.ovr = s.ovr
  accerr : t.accerr = s.accerr
  result : t.result = s.result
  busy : t.busy = s.busy

theorem completes_complete {s : State} (i : Instr) (h : s.busy = true) : Completes s (bodyOf i s).complete :=
  ⟨h, complete_busy _, complete_done _, (bodyOf_writesOnly i s).keepsHostFlags⟩

theorem completes_raise {s : State} (c : ResultCode) (info : Word) (h : s.busy = true) : Completes s (raise c info s) :=
  ⟨h, rfl, rfl, ⟨rfl, rfl, rfl, rfl, rfl, rfl⟩⟩

/-- The state an input is taken in differs from the machine's in the inputs left and the delay. -/
theorem sameFlags_taking {s : State} {eng : Engine} {rest : List Input}
    (h : (s.engine = .idle ∧ eng = .idle) ∨ ∃ w c d, s.engine = .busy w c (d + 1) ∧ eng = .busy w c d) :
    SameFlags s { s with engine := eng, inputs := rest } := by
  refine ⟨rfl, rfl, rfl, rfl, ?_⟩
  rcases h with ⟨hs, rfl⟩ | ⟨w, c, d, hs, rfl⟩ <;> rw [State.busy, State.busy, hs]

/-- An input that a step takes is the next one. -/
theorem nextInput_taken {s : State} {eng : Engine} {i : Input} {rest : List Input} (hi : s.inputs = i :: rest)
    (h : (s.engine = .idle ∧ eng = .idle) ∨ ∃ w c d, s.engine = .busy w c (d + 1) ∧ eng = .busy w c d) :
    s.nextInput = some i := by
  rcases h with ⟨hs, -⟩ | ⟨w, c, d, hs, -⟩
  · rw [nextInput_idle hs, hi]
    rfl
  · rw [nextInput_running hs, hi]
    rfl

/-- Everything a step does: a reset, a completion, nothing to the flags and CTRL, or the next access. -/
theorem step_effect {s t : State} (h : step s = .next t) :
    (s.nextInput = some (.reset true) ∧ ∃ u, t = resetEvent u) ∨ Completes s t ∨ (SameFlags s t ∧ t.ctrl = s.ctrl) ∨
    ∃ a off eng rest, s.nextInput = some (.access a) ∧ off < 0x2000000 ∧ a.addr = s.params.base + off ∧
      SameFlags s { s with engine := eng, inputs := rest } ∧ AccessEffect { s with engine := eng, inputs := rest } off a t := by
  rcases step_next h with ⟨-, rfl⟩ | ⟨w, c, d, hbusy, rfl⟩ | ⟨w, c, d, i, hbusy, -, rfl⟩ | ⟨eng, rest, heng, htaken⟩
  · exact .inr (.inr (.inl ⟨⟨rfl, rfl, rfl, rfl, rfl⟩, rfl⟩))
  · exact .inr (.inl (completes_raise _ _ ((busy_iff s).mpr ⟨w, c, d, hbusy⟩)))
  · exact .inr (.inl (completes_complete i ((busy_iff s).mpr ⟨w, c, d, hbusy⟩)))
  · have hsame := sameFlags_taking (rest := rest) heng
    rcases htaken with ⟨hi, rfl⟩ | ⟨hi, rfl⟩ | ⟨a, off, hi, -, hoff, rfl⟩
    · exact .inl ⟨nextInput_taken hi heng, _, rfl⟩
    · exact .inr (.inr (.inl ⟨⟨rfl, rfl, rfl, rfl, hsame.busy⟩, rfl⟩))
    · obtain ⟨hlt, haddr⟩ := windowOffset_eq_some.mp hoff
      exact .inr (.inr (.inr ⟨a, off, eng, rest, nextInput_taken hi heng, hlt, haddr, hsame, hostAccess_effect a off _⟩))

theorem takesWrite_of_next {s : State} {addr off : Nat} {v : Word} (h : s.nextInput = some (.access (.write .word addr v)))
    (haddr : addr = s.params.base + off) : s.takesWrite off v := by
  rw [State.takesWrite, h, haddr]

/-! ## The flags (R27, R62, R70, R221, R227) -/

section
variable {b b' : Bool} (h : b' = b) {P : Prop}
include h

/-- A flag that stays does not rise. -/
theorem of_rises (hb : b = false) (hb' : b' = true) : P := by simp [h, hb] at hb'

/-- A flag that stays does not fall. -/
theorem of_falls (hb : b = true) (hb' : b' = false) : P := by simp [h, hb] at hb'

end

/-- A write of STATUS lowers a flag only by a 1 to its bit (R27). -/
theorem bit_of_acknowledged {flag : Bool} {v : Word} {i : Nat} (h : flag = true) (h' : (flag && !v.getLsbD i) = false) :
    v.getLsbD i = true := by
  simpa [h] using h'

/-- A write of STATUS raises no flag (R27). -/
theorem of_acknowledged_rises {flag bit : Bool} {P : Prop} (h : flag = false) (h' : (flag && !bit) = true) : P := by
  simp [h] at h'

/-- Settles O20: the completion sets DONE and keeps the other flags; of the accesses that change a flag or the phase, each kind
moves the one it is made for. -/
theorem flagsChangeOnlyAsStated : Obligations.FlagsChangeOnlyAsStated := by
  intro s t hreset hstep
  by_cases hsame : SameFlags s t
  · exact ⟨of_rises hsame.done, of_falls hsame.done, of_rises hsame.ovr, of_falls hsame.ovr, of_rises hsame.accerr,
      of_falls hsame.accerr, of_rises hsame.busy, of_falls hsame.busy, fun h => absurd hsame.result h⟩
  rcases step_effect hstep with ⟨hnext, -⟩ | hc | hquiet | ⟨a, off, eng, rest, hnext, hlt, haddr, hu, heffect⟩
  · exact absurd hnext hreset
  · obtain ⟨hrunning, hidle, hdone, hkept⟩ := hc
    exact ⟨fun _ _ => ⟨hrunning, hidle⟩, fun _ h => of_rises hdone.symm h rfl, of_rises hkept.ovr, of_falls hkept.ovr,
      of_rises hkept.accerr, of_falls hkept.accerr, fun h => of_rises hrunning.symm h rfl,
      fun _ _ => ⟨hdone, hkept.ovr, hkept.accerr, hkept.ctrl⟩, fun _ => ⟨hrunning, hidle, hdone⟩⟩
  · exact absurd hquiet.1 hsame
  obtain ⟨hdone, hovr, haccerr, hresult, hbusy⟩ := hu
  cases heffect with
  | read | setsCtrl | stores => exact absurd ⟨hdone, hovr, haccerr, hresult, hbusy⟩ hsame
  | unsupported w addr r h ha =>
    refine ⟨of_rises hdone, of_falls hdone, of_rises hovr, of_falls hovr, fun _ _ => ⟨w, off, h, hlt, ?_⟩, nofun,
      of_rises hbusy, of_falls hbusy, fun h => absurd hresult h⟩
    rcases ha with rfl | ⟨v, rfl⟩
    · exact .inl (haddr ▸ hnext)
    · exact .inr ⟨v, haddr ▸ hnext⟩
  | dropped addr v h4 hrunning hinput =>
    exact ⟨of_rises hdone, of_falls hdone,
      fun _ _ => ⟨hbusy ▸ hrunning, hrunning, off, v, takesWrite_of_next hnext haddr, h4,
        namesCommandInput_of_isInput hinput⟩,
      nofun, of_rises haccerr, of_falls haccerr, of_rises hbusy, of_falls hbusy, fun h => absurd hresult h⟩
  | acknowledges addr v hoff =>
    subst hoff
    have hwrite := takesWrite_of_next hnext haddr
    exact ⟨of_acknowledged_rises, fun h h' => ⟨v, hwrite, bit_of_acknowledged h h'⟩, of_acknowledged_rises,
      fun h h' => ⟨v, hwrite, bit_of_acknowledged h h'⟩, of_acknowledged_rises,
      fun h h' => ⟨v, hwrite, bit_of_acknowledged h h'⟩, of_rises hbusy, of_falls hbusy, fun h => absurd hresult h⟩
  | accepts addr v hoff hidle =>
    subst hoff
    exact ⟨of_rises hdone, of_falls hdone, of_rises hovr, of_falls hovr, of_rises haccerr, of_falls haccerr,
      fun _ _ => ⟨v, takesWrite_of_next hnext haddr, rfl, rfl, rfl, rfl⟩, nofun, fun h => absurd hresult h⟩

/-! ## The interrupt (R225) -/

/-- Settles O19: IRQ is DONE and IRQ_EN. A completion sets DONE and keeps IRQ_EN, and the only access that can raise IRQ is the
write of CTRL. -/
theorem irqRisesOnlyByCompletionOrEnable : Obligations.IrqRisesOnlyByCompletionOrEnable := by
  refine ⟨fun s t hreset hstep hrunning hidle => ?_, fun i s t hexec => ?_, fun s addr v => ⟨fun hv => ?_, fun hv => ?_,
    fun hv => ?_⟩, fun s t hstep hlow hhigh => ?_⟩
  · obtain ⟨-, -, -, -, -, -, -, hcompletes, -⟩ := flagsChangeOnlyAsStated s t hreset hstep
    obtain ⟨hdone, -, -, hctrl⟩ := hcompletes hrunning hidle
    rw [State.irq, hdone, hctrl, Bool.true_and]
  · rw [exec_next hexec, State.irq, complete_done, (bodyOf_writesOnly i s).keepsHostFlags.ctrl, Bool.true_and]
  · have hwrite := (ctrlAndStatusWritesAreAlwaysPerformed s addr v).2
    simp [hwrite, State.irq, hv]
  · have hwrite := (ctrlAndStatusWritesAreAlwaysPerformed s addr v).1
    simp only [hwrite, State.irq, hv, Bool.and_false]
  · have hwrite := (ctrlAndStatusWritesAreAlwaysPerformed s addr v).1
    simp only [hwrite, State.irq, hv, Bool.and_true]
  · rcases step_effect hstep with ⟨-, u, rfl⟩ | hc | ⟨hsame, hctrl⟩ | ⟨a, off, eng, rest, -, -, -, -, heffect⟩
    · cases hhigh
    · exact .inl ⟨hc.running, hc.idle, hc.kept.ctrl⟩
    · exact of_rises (by rw [State.irq, State.irq, hsame.done, hctrl]) hlow hhigh
    · cases heffect with
      | setsCtrl addr v hoff =>
        obtain ⟨hdone, henabled⟩ := Bool.and_eq_true_iff.mp hhigh
        have hdisabled : s.ctrl.irqEn = false := (Bool.and_eq_false_iff.mp hlow).resolve_left fun h => of_rises rfl h hdone
        exact .inr ⟨hdone, hdone, hdisabled, henabled, rfl⟩
      | acknowledges addr v hoff =>
        have hlower : ((s.done && !v.getLsbD 1) && s.ctrl.irqEn) = true := hhigh
        rw [Bool.and_right_comm] at hlower
        exact of_acknowledged_rises hlow hlower
      | _ => exact of_rises rfl hlow hhigh

end Sys2Proof.Machine
end

section
/-! SUPPORT. How an accepted command runs to its completion, alone and in a host program, and the obligation of
70_reset_and_hazards.md about it. -/

namespace Sys2Proof.Machine

/-! ## A command that is due (R52, R92) -/

/-- Whatever the word, its run completes, and takes no input (R221). -/
theorem runCommand_completes (w : Word) {s : State} (h : s.busy = true) :
    ∃ t, runCommand w s = .next t ∧ Completes s t := by
  rcases runCommand_cases w s with hrun | ⟨i, -, hrun⟩
  · exact ⟨_, hrun, completes_raise _ _ h⟩
  · exact ⟨_, hrun.trans (exec_eq i s), completes_complete i h⟩

/-! ## Steps of a running command (R260) -/

theorem run_succ {M : Host.Core} {s t : M.State} (h : M.step s = .next t) (k : Nat) : M.run (k + 1) s = M.run k t := by
  rw [Host.Core.run, h]

/-- A command that runs with its delay is still there after an access, and the access touches neither the parameters, nor the
reset line, nor the inputs to come (R70). -/
theorem hostAccess_while_busy (a : Access) (off : Nat) {s : State} (h : s.busy = true) :
    (hostAccess a off s).engine = s.engine ∧ (hostAccess a off s).params = s.params ∧
    (hostAccess a off s).resetLine = s.resetLine ∧ (hostAccess a off s).inputs = s.inputs := by
  rw [busyAccessesKeepEveryCommandInput.1 s a off h]
  exact ⟨rfl, rfl, rfl, rfl⟩

/-- A command completes within one step more than its delay, each access in between using up one of it. -/
theorem command_completes (d : Nat) : ∀ (s : State) (w : Word) (c : Ctrl), s.engine = .busy w c d → s.resetLine = false →
    AccessesOnly s →
    ∃ k t, k ≤ d + 1 ∧ Host.Core.run Sys2Proof.core k s = .next t ∧ t.busy = false ∧ t.done = true := by
  have hdue {s : State} {w : Word} {c : Ctrl} {d : Nat} (he : s.engine = .busy w c d) (hd : d = 0 ∨ s.inputs = []) :
      ∃ k t, k ≤ d + 1 ∧ Host.Core.run Sys2Proof.core k s = .next t ∧ t.busy = false ∧ t.done = true := by
    obtain ⟨t, hrun, hc⟩ := runCommand_completes w ((busy_iff s).mpr ⟨w, c, d, he⟩)
    exact ⟨1, t, Nat.le_add_left 1 d, run_succ (M := Sys2Proof.core) ((step_due he hd).trans hrun) 0, hc.idle, hc.done⟩
  induction d with
  | zero => exact fun s w c he _ _ => hdue he (.inl rfl)
  | succ d ih =>
    intro s w c he hline hinputs
    cases hi : s.inputs with
    | nil => exact hdue he (.inr hi)
    | cons i rest =>
      obtain ⟨a, rfl, hoff⟩ := hinputs i (by simp [hi])
      obtain ⟨off, hoff⟩ := Option.isSome_iff_exists.mp hoff
      let u : State := { s with inputs := rest, engine := .busy w c d }
      have hstep : step s = .next (hostAccess a off u) := (step_running he hi).trans (takeInput_access (s := u) hline hoff)
      obtain ⟨hengine, hparams, hline', hrest⟩ := hostAccess_while_busy a off (s := u) rfl
      have hinputs' : AccessesOnly (hostAccess a off u) := by
        intro j hj
        rw [hrest] at hj
        rw [hparams]
        exact hinputs j (by rw [hi]; exact .tail _ hj)
      obtain ⟨k, t, hk, hrun, ht⟩ := ih _ w c hengine (hline'.trans hline) hinputs'
      exact ⟨k + 1, t, Nat.succ_le_succ hk, (run_succ (M := Sys2Proof.core) hstep k).trans hrun, ht⟩

/-! ## The loop `wait` (R104) -/

/-- What a read of STATUS that a host program makes leaves: the answer, and the model's tick. -/
def State.statusRead (s : State) : State := { s with response := some s.statusWord, tick := s.tick + 1 }

theorem readStatus_idle {s : State} (hline : s.resetLine = false) (h : s.engine = .idle) :
    readStatus s = .next s.statusRead :=
  (transact_idle _ h).trans (takeInput_rd_register (r := .status) hline (.inr rfl))

theorem readStatus_running {s : State} {w : Word} {c : Ctrl} {d : Nat} (hline : s.resetLine = false)
    (h : s.engine = .busy w c (d + 1)) : readStatus s = .next (State.statusRead { s with engine := .busy w c d }) :=
  (transact_running _ h).trans
    (takeInput_rd_register (s := { s with engine := .busy w c d }) (r := .status) hline (.inr rfl))

/-- A read of STATUS when the running command is due shows its completion (R71). -/
theorem readStatus_due {s : State} {w : Word} {c : Ctrl} (hline : s.resetLine = false) (h : s.engine = .busy w c 0) :
    ∃ t, readStatus s = .next (State.statusRead t) ∧ t.busy = false ∧ t.done = true := by
  obtain ⟨t, hrun, hc⟩ := runCommand_completes w
    (s := { s with inputs := rd s.params Reg.status.offset :: s.inputs }) ((busy_iff _).mpr ⟨w, c, 0, h⟩)
  refine ⟨{ t with inputs := s.inputs }, ?_, hc.idle, hc.done⟩
  have hparams : s.params = t.params := hc.kept.params.symm
  rw [readStatus, transact_due _ h, hrun]
  show step t = _
  rw [step_idle ((not_busy_iff t).mp hc.idle) hc.kept.inputs, hparams]
  exact takeInput_rd_register (s := { t with inputs := s.inputs }) (r := .status) (hc.kept.resetLine.trans hline) (.inr rfl)

/-- A read that shows BUSY as 0 ends the loop; one that shows 1 goes on with it. -/
theorem waitWithin_succ {s t : State} (fuel : Nat) (h : readStatus s = .next t.statusRead) :
    waitWithin (fuel + 1) s = if t.busy = true then waitWithin fuel t.statusRead else .next t.statusRead := by
  rw [waitWithin, h, onNext]
  show (if t.statusWord.getLsbD 0 = true then _ else _) = _
  rw [statusWord_bit0]

/-- The loop has read BUSY as 0 when it ends: the last read of STATUS was made of an IDLE state. -/
theorem waitWithin_ends_idle {s t : State} (fuel : Nat) (h : readStatus s = .next t.statusRead) (hidle : t.busy = false) :
    waitWithin (fuel + 1) s = .next t.statusRead ∧ t.statusRead.response = some t.statusWord ∧
    t.statusWord.getLsbD 0 = false ∧ t.statusRead.busy = false := by
  refine ⟨?_, rfl, (statusWord_bit0 t).trans hidle, hidle⟩
  rw [waitWithin_succ fuel h, hidle]
  rfl

/-- While a command runs, one read more than its delay is enough for the loop to see it done. -/
theorem waitWithin_running (d : Nat) : ∀ (s : State) (w : Word) (c : Ctrl), s.engine = .busy w c d → s.resetLine = false →
    ∃ t v, waitWithin (d + 1) s = .next t ∧ t.response = some v ∧ v.getLsbD 0 = false ∧ t.busy = false ∧ t.done = true := by
  induction d with
  | zero =>
    intro s w c he hline
    obtain ⟨t, hread, hidle, hdone⟩ := readStatus_due hline he
    obtain ⟨hwait, hresponse, hbit, hidle⟩ := waitWithin_ends_idle 0 hread hidle
    exact ⟨_, _, hwait, hresponse, hbit, hidle, hdone⟩
  | succ d ih =>
    intro s w c he hline
    rw [waitWithin_succ (d + 1) (readStatus_running hline he)]
    exact ih (State.statusRead { s with engine := .busy w c d }) w c rfl hline

/-- The loop ends with BUSY read as 0, and a command that was running is done. -/
theorem wait_ends {s : State} (hline : s.resetLine = false) :
    ∃ t v, wait s = .next t ∧ t.response = some v ∧ v.getLsbD 0 = false ∧ t.busy = false ∧ (s.busy = true → t.done = true) := by
  cases he : s.engine with
  | idle =>
    have hidle := (not_busy_iff s).mpr he
    obtain ⟨hwait, hresponse, hbit, hidle'⟩ := waitWithin_ends_idle s.pendingDelay (readStatus_idle hline he) hidle
    exact ⟨_, _, hwait, hresponse, hbit, hidle', of_rises rfl hidle⟩
  | busy w c d =>
    obtain ⟨t, v, hwait, hresponse, hbit, hidle, hdone⟩ := waitWithin_running d s w c he hline
    have hdelay : s.pendingDelay = d := by rw [State.pendingDelay, he]
    exact ⟨t, v, by rw [wait, hdelay, hwait], hresponse, hbit, hidle, fun _ => hdone⟩

/-- A transaction that writes a register of an IDLE machine. -/
theorem transact_wr_register {s : State} (r : Reg) (v : Word) (hline : s.resetLine = false) (h : s.engine = .idle) :
    transact (wr s.params r.offset v) s = .next { writeReg v s r with response := none } :=
  (transact_idle _ h).trans (takeInput_wr_register v hline (.inl ((not_busy_iff s).mpr h)))

/-- `run X` on an IDLE machine acknowledges, has the command accepted, and waits until it is done (R104). -/
theorem performAll_run {s : State} (i : Instr) (hline : s.resetLine = false) (h : s.engine = .idle) :
    ∃ t, performAll s (run s.params i) = .next t ∧ t.busy = false ∧ t.done = true := by
  let acked : State := { acknowledge 0x0000000E#32 s with response := none }
  let accepted : State := { accept (encode i) acked with response := none }
  have hack : perform s (.bus (wr s.params Reg.status.offset 0x0000000E#32)) = .next acked :=
    transact_wr_register .status _ hline h
  have hcmd : perform acked (.bus (wr s.params Reg.cmd.offset (encode i))) = .next accepted :=
    transact_wr_register (s := acked) .cmd _ hline h
  obtain ⟨t, v, hwait, -, -, hidle, hdone⟩ := wait_ends (s := accepted) hline
  refine ⟨t, ?_, hidle, hdone rfl⟩
  simp only [run, ack, cmd, List.cons_append, List.nil_append, List.map_cons, List.map_nil, performAll, hack, hcmd, onNext]
  rw [perform, hwait]

/-- Settles O21: the delay bounds the steps before the completion and the reads of `wait`, which counts that it is used up. -/
theorem acceptedCommandsComplete : Obligations.AcceptedCommandsComplete :=
  ⟨fun s w c d => command_completes d s w c, fun _ => wait_ends, fun _ i => performAll_run i⟩

end Sys2Proof.Machine
end

section
/-! SUPPORT. The invariants of a good state: what gives them, what keeps them, and the obligations about them. -/

namespace Sys2Proof.Machine

/-! ## What every part of a step keeps, every step keeps -/

/-- The state a body leaves, before its completion step. -/
def Ended.state : Ended → State
  | .finished _ s => s
  | .raised _ _ s => s

theorem keepsDerived_complete (e : Ended) : KeepsDerived e.state e.complete := by
  cases e <;> constructor <;> rfl

theorem KeepsDerived.symm {s t : State} (h : KeepsDerived s t) : KeepsDerived t s :=
  ⟨h.freq.symm, h.list.symm, h.numSyms.symm, h.node.symm, h.nodeCount.symm, h.treeRoot.symm, h.code.symm, h.codeCount.symm,
    h.dt.symm, h.dtRoot.symm, h.dtNodes.symm, h.params.symm, h.dstLen.symm, h.decBitpos.symm⟩

/-- A sequence of bodies keeps what each of them keeps. -/
theorem Ended.andThen_state {P : State → Prop} {e : Ended} {f : State → Ended} (he : P e.state)
    (hf : ∀ s, P s → P (f s).state) : P (e.andThen f).state := by
  cases e with
  | finished c s => exact hf s he
  | raised c info s => exact he

/-- Every command keeps what the other commands and the completion step keep: ENCODE is five of their bodies in turn (R192). -/
theorem bodyOf_keeps {P : State → Prop} (hcomplete : ∀ e : Ended, P e.state ↔ P e.complete)
    (hbody : ∀ i s, i ≠ .encode → P s → P (bodyOf i s).complete) (i : Instr) {s : State} (h : P s) :
    P (bodyOf i s).complete := by
  by_cases hi : i = .encode
  · subst hi
    have hstate (j : Instr) (hj : j ≠ .encode) (u : State) (hu : P u) : P (bodyOf j u).state :=
      (hcomplete _).mpr (hbody j u hj hu)
    refine (hcomplete (encodeBody s)).mp ?_
    exact Ended.andThen_state (Ended.andThen_state (Ended.andThen_state (Ended.andThen_state (hstate .count nofun s h)
      (hstate .build nofun)) (hstate .derive nofun)) (hstate .materialize nofun)) (hstate .serialize nofun)
  · exact hbody i s hi h

/-- A property of the derived state that a reset and every command but ENCODE keep. -/
structure KeptByParts (P : State → Prop) : Prop where
  keep : ∀ {s t}, KeepsDerived s t → P s → P t
  reset : ∀ {s u}, u.params = s.params → P s → P (resetEvent u)
  body : ∀ i s, i ≠ .encode → P s → P (bodyOf i s).complete

/-- Every step keeps a property that its parts keep. -/
theorem KeptByParts.step {P : State → Prop} (hP : KeptByParts P) {s t : State} (hstep : step s = .next t) (h : P s) : P t := by
  have hcomplete (e : Ended) : P e.state ↔ P e.complete :=
    ⟨hP.keep (keepsDerived_complete e), hP.keep (keepsDerived_complete e).symm⟩
  rcases step_derived hstep with hkeep | ⟨u, hu, rfl⟩ | ⟨i, -, -, -, -, rfl⟩
  · exact hP.keep hkeep h
  · exact hP.reset hu h
  · exact bodyOf_keeps hcomplete hP.body i h

/-- A second property may rest on the first. -/
theorem KeptByParts.and {P Q : State → Prop} (hP : KeptByParts P) (hkeep : ∀ {s t}, KeepsDerived s t → Q s → Q t)
    (hreset : ∀ u, Q (resetEvent u)) (hbody : ∀ i s, i ≠ .encode → P s → Q s → Q (bodyOf i s).complete) :
    KeptByParts fun s => P s ∧ Q s :=
  ⟨fun k h => ⟨hP.keep k h.1, hkeep k h.2⟩, fun hu h => ⟨hP.reset hu h.1, hreset _⟩,
    fun i s hi h => ⟨hP.body i s hi h.1, hbody i s hi h.1 h.2⟩⟩

theorem kept_params : KeptByParts fun s => s.params.wf = true :=
  ⟨fun k h => by rwa [k.params], fun hu h => by rwa [resetEvent_eq, hu],
    fun i s _ h => by rwa [(bodyOf_writesOnly i s).keepsHostFlags.params]⟩

/-! ## States that hold nothing -/

theorem listOk_of_none {s : State} (hn : s.numSyms = 0#9) (hf : s.freq = Vector.replicate 256 0#32) : ListOk s := by
  have hlisted : s.listed = [] := by rw [State.listed, hn]; exact List.take_zero
  refine ⟨by simp [hn], by simp [hn], fun x => ?_, by rw [hlisted]; exact .nil, by simp [hf]⟩
  simp [hlisted, hf]

theorem treeOk_of_none {s : State} (hn : s.nodeCount = 0#10) (hr : s.treeRoot = none) : TreeOk s :=
  ⟨by simp [hn], fun _ => hn, fun r h => nomatch hr.symm.trans h⟩

theorem codesOk_of_none {s : State} (hc : s.code = noCodes) (hn : s.codeCount = 0#9) : CodesOk s :=
  ⟨hc ▸ prefixFree_noCodes, fun x c h => (by rw [hc, get_noCodes] at h; cases h), by rw [hc, hn, presentCount_noCodes]; rfl⟩

theorem decodeTreeOk_of_none {s : State} (hr : s.dtRoot = .absent) (hn : s.dtNodes = 0#17) : DecodeTreeOk s :=
  ⟨by simp [hn], by simp [hn], by simp [hr, hn], by simp [hr], fun i b n hi => (by simp [hn] at hi)⟩

theorem outputsOk_of_none {s : State} (hd : s.dstLen = 0#32) (hb : s.decBitpos = 0#32) : OutputsOk s :=
  ⟨by simp [hd], by simp [hb]⟩

theorem memoryOk_of_empty {s : State} (h : s.mem = Memory.empty) : MemoryOk s := by
  refine ⟨?_, ?_, ?_, ?_, ?_⟩ <;> rw [h]
  · exact ⟨.nil, .nil, .nil, .nil⟩
  all_goals exact nofun

/-- Settles O53: the reset state holds nothing and runs nothing. -/
theorem resetStateIsGood : Obligations.ResetStateIsGood :=
  { params := by decide
    memory := memoryOk_of_empty rfl
    list := listOk_of_none rfl rfl
    tree := treeOk_of_none rfl rfl
    codes := codesOk_of_none rfl rfl
    decodeTree := decodeTreeOk_of_none rfl rfl
    outputs := outputsOk_of_none rfl rfl
    engine := ⟨nofun, fun _ => rfl, fun _ => rfl⟩ }

/-! ## LIST (R43, R131) -/

theorem ListOk.congr {s t : State} (h : ListOk s) (hf : t.freq = s.freq) (hl : t.list = s.list) (hn : t.numSyms = s.numSyms)
    (hp : t.params = s.params) : ListOk t := by
  have hlisted : t.listed = s.listed := by rw [State.listed, State.listed, hl, hn]
  exact ⟨hn ▸ h.atMost, hn ▸ hl ▸ h.stored, hf ▸ hlisted ▸ h.occurs, hf ▸ hlisted ▸ h.order, hf ▸ hp ▸ h.total⟩

/-- COUNT gives LIST its order, CLEAR empties it, and the other single commands do not write it. -/
theorem listOk_body (i : Instr) (s : State) (hi : i ≠ .encode) (h : ListOk s) : ListOk (bodyOf i s).complete := by
  have hw := bodyOf_writesOnly i s
  cases i with
  | encode => exact absurd rfl hi
  | clear => exact listOk_of_none rfl rfl
  | count =>
    rcases countBody_cases s with ⟨-, hbody⟩ | ⟨hlen, t, hbody, hcounted, -⟩ <;> rw [bodyOf, hbody]
    · exact (keepsDerived_complete (.raised .lenRange _ s)).listOk h
    · exact (keepsDerived_finish .ok t).listOk (hcounted.listOk hlen)
  | _ =>
    have hw : _ = _ := hw
    exact h.congr (congrArg State.freq hw :) (congrArg State.list hw :) (congrArg State.numSyms hw :)
      (congrArg State.params hw :)

theorem kept_list : KeptByParts fun s => s.params.wf = true ∧ ListOk s :=
  kept_params.and (·.listOk ·) (fun _ => listOk_of_none rfl rfl) fun i s hi _ => listOk_body i s hi

/-- Settles O55: only COUNT and CLEAR write LIST, alone or in ENCODE, and each leaves it in order. -/
theorem stepKeepsListOrdered : Obligations.StepKeepsListOrdered := by
  intro s t h hstep
  have hkept : KeptByParts ListOk := ⟨(·.listOk ·), fun _ _ => listOk_of_none rfl rfl, listOk_body⟩
  exact hkept.step hstep h

/-! ## The construction tree (R44, R136) -/

theorem TreeOk.congr {s t : State} (h : TreeOk s) (hn : t.node = s.node) (hc : t.nodeCount = s.nodeCount)
    (hr : t.treeRoot = s.treeRoot) : TreeOk t := by
  have harena : t.arena = s.arena := by rw [State.arena, State.arena, hn, hc]
  exact ⟨hc ▸ hn ▸ h.stored, hr ▸ hc ▸ h.without, hr ▸ harena ▸ h.tree⟩

/-- BUILD makes a tree of an ordered LIST or none, CLEAR none, and the other single commands do not write it. -/
theorem treeOk_body (i : Instr) (s : State) (hi : i ≠ .encode) (hl : s.params.wf = true ∧ ListOk s) (h : TreeOk s) :
    TreeOk (bodyOf i s).complete := by
  have hw := bodyOf_writesOnly i s
  cases i with
  | encode => exact absurd rfl hi
  | clear => exact treeOk_of_none rfl rfl
  | build =>
    rcases buildBody_cases hl.2 hl.1 with ⟨-, hbody⟩ | ⟨-, t, r, hbody, hbuilt, -⟩ <;> rw [bodyOf, hbody]
    · exact treeOk_of_none rfl rfl
    · exact (hbuilt.finish .ok).treeOk
  | _ =>
    have hw : _ = _ := hw
    exact h.congr (congrArg State.node hw :) (congrArg State.nodeCount hw :) (congrArg State.treeRoot hw :)

theorem kept_tree : KeptByParts fun s => (s.params.wf = true ∧ ListOk s) ∧ TreeOk s :=
  kept_list.and (·.treeOk ·) (fun _ => treeOk_of_none rfl rfl) treeOk_body

/-- Settles O56: the tree rests on an ordered LIST, which every step keeps too. -/
theorem stepKeepsTheConstructionTree : Obligations.StepKeepsTheConstructionTree :=
  fun _ _ hp hl ht hstep => (kept_tree.step hstep ⟨⟨hp, hl⟩, ht⟩).2

/-! ## The code table (R45, R152, R175) -/

theorem CodesOk.congr {s t : State} (h : CodesOk s) (hc : t.code = s.code) (hn : t.codeCount = s.codeCount) : CodesOk t :=
  ⟨hc ▸ h.prefixFree, hc ▸ h.short, hc ▸ hn ▸ h.counted⟩

/-- The table of a list that CANON accepts, counted by the list's length. -/
theorem codesOk_of_canonTable {s t : State} (hn : s.canonN.toNat ≤ 256) (htable : canonTable s.canonInput = .ok t.code)
    (hcount : t.codeCount = s.canonN.setWidth 9) : CodesOk t := by
  obtain ⟨hfree, hshort⟩ := canonTable_inv htable
  refine ⟨hfree, fun x c hc => (hshort x c hc).2.trans (by decide), ?_⟩
  rw [(canonTable_count htable).2, State.canonInput, List.length_map, List.length_range, hcount, BitVec.toNat_setWidth]
  exact Nat.mod_eq_of_lt (by omega)

/-- DERIVE gives the codes of a tree, CANON those of its list or none, CLEAR none, and the other single commands do not write
them. -/
theorem codesOk_body (i : Instr) (s : State) (hi : i ≠ .encode) (ht : (s.params.wf = true ∧ ListOk s) ∧ TreeOk s)
    (h : CodesOk s) : CodesOk (bodyOf i s).complete := by
  have hw := bodyOf_writesOnly i s
  cases i with
  | encode => exact absurd rfl hi
  | clear => exact codesOk_of_none rfl rfl
  | derive =>
    obtain ⟨t, hbody, hderived, -, hcount, hfree⟩ := deriveBody_spec s
    rw [bodyOf, hbody]
    exact (keepsDerived_finish .ok t).codesOk (hderived.codesOk ht.2 hcount hfree)
  | canon =>
    rcases canonBody_cases s with hbody | ⟨c, i, -, -, -, hbody⟩ | ⟨t, hn, htable, hbody⟩ <;> rw [bodyOf, hbody]
    · exact (keepsDerived_complete (.raised .lenRange _ s)).codesOk h
    · exact codesOk_of_none rfl rfl
    · exact codesOk_of_canonTable hn htable rfl
  | _ =>
    have hw : _ = _ := hw
    exact h.congr (congrArg State.code hw :) (congrArg State.codeCount hw :)

theorem kept_codes : KeptByParts fun s => ((s.params.wf = true ∧ ListOk s) ∧ TreeOk s) ∧ CodesOk s :=
  kept_tree.and (·.codesOk ·) (fun _ => codesOk_of_none rfl rfl) codesOk_body

/-- Settles O57: DERIVE's codes rest on the tree, which every step keeps too. -/
theorem stepKeepsCodesPrefixFree : Obligations.StepKeepsCodesPrefixFree :=
  fun _ _ hp hl ht hc hstep => (kept_codes.step hstep ⟨⟨⟨hp, hl⟩, ht⟩, hc⟩).2

/-! ## The decode tree (R46, R157) -/

theorem DecodeTreeOk.congr {s t : State} (h : DecodeTreeOk s) (hd : t.dt = s.dt) (hr : t.dtRoot = s.dtRoot)
    (hn : t.dtNodes = s.dtNodes) : DecodeTreeOk t :=
  ⟨hn ▸ hd ▸ h.stored, hn ▸ h.fits, hr ▸ hn ▸ h.root, hr ▸ h.first, hd ▸ hn ▸ h.closed⟩

/-- MATERIALIZE makes a decode tree of short codes, CLEAR none, and the other single commands do not write it. -/
theorem decodeTreeOk_body (i : Instr) (s : State) (hi : i ≠ .encode)
    (hc : ((s.params.wf = true ∧ ListOk s) ∧ TreeOk s) ∧ CodesOk s) (h : DecodeTreeOk s) :
    DecodeTreeOk (bodyOf i s).complete := by
  have hw := bodyOf_writesOnly i s
  cases i with
  | encode => exact absurd rfl hi
  | clear => exact decodeTreeOk_of_none rfl rfl
  | materialize =>
    obtain ⟨e, t, hbody, hend, hok⟩ := materialized_decodeTreeOk hc.2.short
    rw [bodyOf, hbody]
    rcases hend with rfl | ⟨info, rfl⟩
    · exact (keepsDerived_complete (.finished .ok t)).decodeTreeOk hok
    · exact (keepsDerived_complete (.raised .collision info t)).decodeTreeOk hok
  | _ =>
    have hw : _ = _ := hw
    exact h.congr (congrArg State.dt hw :) (congrArg State.dtRoot hw :) (congrArg State.dtNodes hw :)

/-- Settles O58: MATERIALIZE's tree rests on codes of at most 255 bits, which every step keeps too. -/
theorem stepKeepsTheDecodeTreeClosed : Obligations.StepKeepsTheDecodeTreeClosed := by
  intro s t hp hc hl ht hd hstep
  have hkept := kept_codes.and (·.decodeTreeOk ·) (fun _ => decodeTreeOk_of_none rfl rfl) decodeTreeOk_body
  exact (hkept.step hstep ⟨⟨⟨⟨hp, hl⟩, ht⟩, hc⟩, hd⟩).2

/-! ## The output counts, ERR_INFO and the phase (R32, R39, R40, R221) -/

theorem OutputsOk.congr {s t : State} (h : OutputsOk s) (hd : t.dstLen = s.dstLen) (hb : t.decBitpos = s.decBitpos)
    (hp : t.params = s.params) : OutputsOk t :=
  ⟨hd ▸ hp ▸ h.dstLen, hb ▸ hp ▸ h.decBitpos⟩

/-- DECODE counts within the capacities, CLEAR resets the counts, and the other single commands do not write them. -/
theorem outputsOk_body (i : Instr) (s : State) (hi : i ≠ .encode) (h : OutputsOk s) : OutputsOk (bodyOf i s).complete := by
  have hw := bodyOf_writesOnly i s
  cases i with
  | encode => exact absurd rfl hi
  | clear => exact outputsOk_of_none rfl rfl
  | decode =>
    rcases decodeBody_frame s with hbody | ⟨d, dl, bp, hdl, hbp, ⟨c, -, hbody⟩ | ⟨c, x, -, -, hbody⟩⟩ <;> rw [bodyOf, hbody]
    · exact (keepsDerived_complete (.raised .lenRange _ s)).outputsOk h
    · exact ⟨hdl, hbp⟩
    · exact ⟨hdl, hbp⟩
  | _ =>
    have hw : _ = _ := hw
    exact h.congr (congrArg State.dstLen hw :) (congrArg State.decBitpos hw :) (congrArg State.params hw :)

/-- An access keeps ERR_INFO as the phase and the result ask: an acceptance clears it, and nothing else touches it. -/
theorem EngineOk.access {s t : State} {a : Access} {off : Nat} (h : EngineOk s) (hline : s.resetLine = false)
    (heffect : AccessEffect s off a t) : EngineOk t := by
  cases heffect with
  | accepts => exact ⟨fun _ => rfl, fun _ => rfl, fun hr => nomatch hline.symm.trans hr⟩
  | _ => exact ⟨h.running, h.success, fun hr => nomatch hline.symm.trans hr⟩

theorem engineOk_step {s t : State} (h : EngineOk s) (hstep : step s = .next t) : EngineOk t := by
  rcases step_next hstep with ⟨-, rfl⟩ | ⟨w, c, d, -, rfl⟩ | ⟨w, c, d, i, hbusy, -, rfl⟩ | ⟨eng, rest, heng, htaken⟩
  · exact h
  · exact ⟨nofun, nofun, fun _ => rfl⟩
  · have herr := h.running ((busy_iff s).mpr ⟨w, c, d, hbusy⟩)
    exact ⟨fun hb => (by rw [complete_busy] at hb; cases hb), fun hok => (complete_errInfo_of_success hok).trans herr,
      fun _ => complete_engine _⟩
  · have hrunning : State.busy { s with engine := eng, inputs := rest } = true → s.errInfo = 0#32 :=
      fun hb => h.running ((sameFlags_taking (rest := rest) heng).busy.symm.trans hb)
    rcases htaken with ⟨-, rfl⟩ | ⟨-, rfl⟩ | ⟨a, off, -, hline, -, rfl⟩
    · exact ⟨nofun, fun _ => rfl, fun _ => rfl⟩
    · exact ⟨hrunning, h.success, nofun⟩
    · have htaking : EngineOk { s with engine := eng, inputs := rest } :=
        ⟨hrunning, h.success, fun hr => nomatch hline.symm.trans hr⟩
      exact htaking.access hline (hostAccess_effect a off _)

/-- Settles O59: the counts are kept by the parts of a step, and ERR_INFO by acceptance and completion. -/
theorem stepKeepsOutputsAndEngineOk : Obligations.StepKeepsOutputsAndEngineOk := by
  intro s t _ hout heng hstep
  have hkept : KeptByParts OutputsOk := ⟨(·.outputsOk ·), fun _ _ => outputsOk_of_none rfl rfl, outputsOk_body⟩
  exact ⟨hkept.step hstep hout, engineOk_step heng hstep⟩

/-! ## The memories (R6, R47 to R50) -/

theorem MemoryOk.congr {s t : State} (h : MemoryOk s) (hm : t.mem = s.mem) (hp : t.params = s.params) : MemoryOk t :=
  ⟨hm ▸ h.wf, hm ▸ hp ▸ h.src, hm ▸ hp ▸ h.dst, hm ▸ hp ▸ h.bitbuf, hm ▸ h.canon⟩

/-- One memory in canonical form that lists no cell at or above `n`. -/
def CellsOk {α : Type} (m : List (Nat × α)) (n : Nat) : Prop := cellsWf m ∧ ∀ c ∈ m, c.1 < n

theorem CellsOk.writeAll {α : Type} {m : List (Nat × α)} {n a : Nat} {vs : List α} (h : CellsOk m n)
    (hfits : a + vs.length ≤ n) : CellsOk (cellsWrite m a vs) n :=
  ⟨cellsWf_cellsWrite vs m a h.1, cellsWrite_bound vs m a n h.2 hfits⟩

theorem memoryOk_iff (s : State) : MemoryOk s ↔ CellsOk s.mem.src s.params.srcBytes ∧ CellsOk s.mem.dst s.params.dstBytes ∧
    CellsOk s.mem.bitbuf s.params.bitbufBits ∧ CellsOk s.mem.canon 256 :=
  ⟨fun ⟨⟨hwsrc, hwdst, hwbits, hwcanon⟩, hsrc, hdst, hbits, hcanon⟩ =>
      ⟨⟨hwsrc, hsrc⟩, ⟨hwdst, hdst⟩, ⟨hwbits, hbits⟩, ⟨hwcanon, hcanon⟩⟩,
    fun ⟨⟨hwsrc, hsrc⟩, ⟨hwdst, hdst⟩, ⟨hwbits, hbits⟩, ⟨hwcanon, hcanon⟩⟩ =>
      ⟨⟨hwsrc, hwdst, hwbits, hwcanon⟩, hsrc, hdst, hbits, hcanon⟩⟩

/-- What DECODE writes to DST: bytes from index 0, no more than fit (R193). -/
theorem decodeBody_dst (s : State) : ∃ bytes : List Byte, bytes.length ≤ s.params.dstBytes ∧
    (bodyOf .decode s).complete.mem = { s.mem with dst := cellsWrite s.mem.dst 0 bytes } := by
  by_cases hl : s.bitLen.toNat ≤ s.params.bitbufBits
  case neg =>
    rw [bodyOf, decodeBody_lenRange (Nat.lt_of_not_le hl)]
    exact ⟨[], Nat.zero_le _, rfl⟩
  rcases Desc.cases_root s.dtRoot with hroot | ⟨n, hroot⟩
  · refine ⟨[], Nat.zero_le _, ?_⟩
    rw [bodyOf, decodeBody_rootless hl hroot, decodeRootless]
    split <;> rfl
  · let start : Traversal := { node := 0, out := 0, last := 0, dst := s.mem.dst }
    obtain ⟨u, _, out, -, -, hout, hdst, -, hend⟩ :=
      traverse_pair (dt := s.dt) (cap := s.params.dstBytes) s.stream 0 start start rfl rfl rfl
    obtain ⟨hexhausted, hfault⟩ :=
      traverse_bounds (dt := s.dt) (cap := s.params.dstBytes) s.stream 0 start (Nat.zero_le _) (Nat.le_refl _)
    have hlen : out.length = u.out := (Nat.zero_add _).symm.trans hout
    have hmem : { s.mem with dst := u.dst } = { s.mem with dst := cellsWrite s.mem.dst 0 out } := by rw [hdst]
    rcases hend with ⟨hend, -⟩ | ⟨c, p, hend, -⟩ <;> rw [bodyOf, decodeBody_branch hl hroot, hend]
    · exact ⟨out, hlen.trans_le (hexhausted u hend).1, hmem⟩
    · exact ⟨out, hlen.trans_le (hfault c p u hend).1, hmem⟩

/-- SERIALIZE and DECODE write within the capacities, and the other single commands write no memory. -/
theorem memoryOk_body (i : Instr) (s : State) (hi : i ≠ .encode) (h : MemoryOk s) : MemoryOk (bodyOf i s).complete := by
  have hw := bodyOf_writesOnly i s
  have hp := hw.keepsHostFlags.params
  obtain ⟨hsrc, hdst, hbits, hcanon⟩ := (memoryOk_iff s).mp h
  cases i with
  | encode => exact absurd rfl hi
  | serialize =>
    rcases serializeBody_cases s with ⟨-, hbody⟩ | ⟨-, -, hfits, hbody⟩ | ⟨-, pre, b, rest, -, -, hfits, -, hbody⟩ <;>
      rw [bodyOf, hbody]
    · exact h.congr rfl rfl
    · exact (memoryOk_iff _).mpr ⟨hsrc, hdst, hbits.writeAll ((Nat.zero_add _).trans_le hfits), hcanon⟩
    · exact (memoryOk_iff _).mpr ⟨hsrc, hdst, hbits.writeAll ((Nat.zero_add _).trans_le hfits), hcanon⟩
  | decode =>
    obtain ⟨bytes, hfits, hmem⟩ := decodeBody_dst s
    rw [memoryOk_iff, hmem, hp]
    exact ⟨hsrc, hdst.writeAll ((Nat.zero_add _).trans_le hfits), hbits, hcanon⟩
  | _ =>
    have hw : _ = _ := hw
    exact h.congr (congrArg State.mem hw :) hp

/-- A write to a named target stays within the capacities, which hold whole words (R6, R61). -/
theorem memoryOk_writeTarget {s : State} (h : MemoryOk s) (hw : s.params.wf = true) (v : Word) {off : Nat} (h4 : off % 4 = 0) :
    MemoryOk (writeTarget v s (target s.params off)) := by
  obtain ⟨hsrc4, hbits32⟩ := capacities_mod hw
  obtain ⟨hsrc, hdst, hbits, hcanon⟩ := (memoryOk_iff s).mp h
  cases htarget : target s.params off with
  | canon i =>
    simp only [writeTarget, memoryOk_iff]
    exact ⟨hsrc, hdst, hbits, hcanon.writeAll (vs := [v]) (Nat.succ_le_of_lt (target_canon_bound s.params htarget))⟩
  | src i =>
    obtain ⟨hlt, hmod⟩ := target_src_bound s.params htarget
    simp only [writeTarget, memoryOk_iff]
    exact ⟨hsrc.writeAll (by rw [length_bytesOfWord]; omega), hdst, hbits, hcanon⟩
  | bitbuf i =>
    obtain ⟨hlt, hmod⟩ := target_bitbuf_bound s.params htarget
    simp only [writeTarget, memoryOk_iff]
    exact ⟨hsrc, hdst, hbits.writeAll (by rw [length_bitsOfWord]; omega), hcanon⟩
  | reg r => cases r <;> exact h.congr rfl rfl
  | _ => exact h

theorem MemoryOk.access {s : State} (h : MemoryOk s) (hw : s.params.wf = true) (a : Access) (off : Nat) :
    MemoryOk (hostAccess a off s) := by
  rcases hostAccess_cases a off s with ⟨r, ha⟩ | ⟨r, ha⟩ | ⟨v, h4, ha⟩ <;> rw [ha]
  · exact h.congr rfl rfl
  · exact h.congr rfl rfl
  · rcases hostWrite_cases off v s with ⟨-, -, hd⟩ | ⟨-, hd⟩ <;> rw [hd]
    · exact h.congr rfl rfl
    · exact (memoryOk_writeTarget h hw v h4).congr rfl rfl

/-- Every step keeps the parameters. -/
theorem step_params {s t : State} (hstep : step s = .next t) : t.params = s.params := by
  rcases step_derived hstep with hkeep | ⟨u, hu, rfl⟩ | ⟨i, -, -, -, -, rfl⟩
  · exact hkeep.params
  · exact hu
  · exact (bodyOf_writesOnly i s).keepsHostFlags.params

/-- Settles O54: every write of a memory, by a command or by the host, stays within its capacity. -/
theorem stepKeepsMemoriesCanonical : Obligations.StepKeepsMemoriesCanonical := by
  intro s t hw h hstep
  refine ⟨?_, step_params hstep⟩
  rcases step_next hstep with ⟨-, rfl⟩ | ⟨w, c, d, -, rfl⟩ | ⟨w, c, d, i, -, -, rfl⟩ | ⟨eng, rest, -, htaken⟩
  · exact h
  · exact h.congr rfl rfl
  · have hcomplete (e : Ended) : MemoryOk e.state ↔ MemoryOk e.complete := by
      cases e <;> exact ⟨fun h => h.congr rfl rfl, fun h => h.congr rfl rfl⟩
    exact bodyOf_keeps hcomplete memoryOk_body i h
  · have htaking : MemoryOk { s with engine := eng, inputs := rest } := h.congr rfl rfl
    rcases htaken with ⟨-, rfl⟩ | ⟨-, rfl⟩ | ⟨a, off, -, -, -, rfl⟩
    · exact memoryOk_of_empty rfl
    · exact h.congr rfl rfl
    · exact htaking.access hw a off

end Sys2Proof.Machine
end

section
/-! SUPPORT. What COUNT, BUILD, DERIVE, MATERIALIZE and CANON leave once complete, and the obligations of 41_count_build.md,
42_derive_materialize.md and 43_canonical.md. -/

namespace Sys2Proof.Machine

/-! ## COUNT and BUILD (R130 to R136) -/

/-- How often a symbol stands in the source, counted over SRC's indices. -/
theorem count_source (s : State) (x : Byte) :
    s.source.count x = (List.range s.srcLen.toNat).countP fun i => s.srcByte i == x := by
  rw [State.source, List.count, List.countP_map]
  rfl

/-- Settles O28: the counts of the source fit FREQ's words, and NUM_SYMS is the length of the list of counted symbols. -/
theorem countCountsTheSource : Obligations.CountCountsTheSource := by
  intro s _ hlen
  rcases countBody_cases s with ⟨hover, -⟩ | ⟨-, t, hbody, hcounted, hframe⟩
  · exact absurd hover (Nat.not_lt.mpr hlen)
  have hsource : s.source.length < 2 ^ 32 := (length_source s).trans_lt s.srcLen.isLt
  refine ⟨_, exec_of_finished (i := .count) hbody, rfl, (congrArg State.errInfo hframe :), fun x => ?_, ?_⟩
  · rw [finish_freq, hcounted.freq, get_frequencies _ hsource, count_source]
  · rw [finish_numSyms, finish_freq, hcounted.numSyms, hcounted.freq, length_countedSymbols]

/-- Without symbols BUILD clears the tree's two registers and nothing else (R132). -/
theorem buildBody_of_no_symbols {s : State} (h : s.numSyms = 0#9) :
    buildBody s = .finished .ok { s with nodeCount := 0#10, treeRoot := none } := by
  have hlisted : s.listed = [] := by rw [State.listed, h]; exact List.take_zero
  rw [buildBody, hlisted]
  rfl

/-- Settles O30: BUILD on an ordered LIST leaves the tree of `Built`, in which each level costs an internal node. -/
theorem buildGivesATreeOverTheListedSymbols : Obligations.BuildGivesATreeOverTheListedSymbols := by
  refine ⟨fun s h => exec_of_finished (i := .build) (buildBody_of_no_symbols h), fun s hw hl hpos => ?_⟩
  rcases buildBody_cases hl hw with ⟨hnone, -⟩ | ⟨-, t, r, hbody, hbuilt, hframe⟩
  · rw [hnone] at hpos
    cases hpos
  · refine ⟨_, r, exec_of_finished (i := .build) hbody, rfl, (congrArg State.errInfo hframe :), hbuilt.tree, hbuilt.count,
      hbuilt.root, hbuilt.rootIndex, hbuilt.leaves, hbuilt.total, fun c n hc => ?_⟩
    by_cases hnil : c = []
    · simp [hnil]
    · have hdepth := (hbuilt.tree.depth hc).2 hnil
      rw [hbuilt.rootIndex] at hdepth
      omega

/-! ## DERIVE and MATERIALIZE (R150 to R157) -/

/-- The tree of a good state has its root last, whatever number of leaves it is said to have. -/
theorem TreeOk.root_index {s : State} (h : TreeOk s) {r : BitVec 9} {m : Nat} (hr : s.treeRoot = some r)
    (hm : TreeOf s.arena m) : r.toNat = 2 * m - 2 := by
  obtain ⟨m', hm', hroot⟩ := h.tree r hr
  have hsize := hm.size.symm.trans hm'.size
  have hpos := hm.nonempty
  have hpos' := hm'.nonempty
  omega

/-- Settles O32: the walk from the root meets each leaf once, by its path. -/
theorem deriveRecordsThePathToEachLeaf : Obligations.DeriveRecordsThePathToEachLeaf := by
  intro s hok
  obtain ⟨t, hbody, hderived, hframe, -⟩ := deriveBody_spec s
  refine ⟨_, exec_of_finished (i := .derive) hbody, rfl, (congrArg State.errInfo hframe :), fun hnone => ?_,
    fun r m hr hm h2 => hderived.tree r m hr hm h2 (hok.root_index hr hm)⟩
  obtain ⟨hcount, hcode⟩ := hderived.none hnone
  exact ⟨hcount, fun x => (congrArg (SymTable.get · x) hcode).trans (get_noCodes x)⟩

/-- Settles O36: the shadow tree exists exactly for a prefix-free table; else the first collision ends the command. -/
theorem materializeSucceedsExactlyOnPrefixFreeTables : Obligations.MaterializeSucceedsExactlyOnPrefixFreeTables := by
  intro s
  refine ⟨_, exec_eq .materialize s, fun hfree => exec_materialize_ok hfree (exec_eq _ s), fun hnot => ?_⟩
  obtain ⟨x, y, cx, cy, hbody, hlt, hx, hy, hcollide, hbefore⟩ := materializeBody_collision hnot
  rw [bodyOf, hbody]
  exact ⟨rfl, rfl, rfl, x, y, cx, cy, hlt, rfl, hx, hy, hcollide,
    fun a b ca cb ha hb hne hca hcb hprefix => hbefore a b ca cb ha hb hne hca hcb (.inl hprefix)⟩

/-- Settles O37: the arena numbers the proper prefixes of the codes, and short codes have too few to overflow DT_NODES. -/
theorem materializedTreeSpellsTheCodes : Obligations.MaterializedTreeSpellsTheCodes := by
  intro s hfree
  obtain ⟨sh, -, hbody, -, hspells, -, hsum, hcount, hpaths⟩ := materializeBody_ok hfree
  refine ⟨_, exec_of_finished (i := .materialize) hbody, rfl, rfl, hspells, hpaths, fun hshort => ?_⟩
  have hle := hsum.trans (sum_lengths_le hshort)
  rw [← hcount, finish_dtNodes, BitVec.toNat_ofNat]
  exact Nat.mod_eq_of_lt (by omega)

/-! ## CANON (R170 to R173) -/

/-- Settles O40: each entry of a list that passes gets the binary numeral of its running code, which fits the entry's length. -/
theorem canonAssignsTheRunningCodes : Obligations.CanonAssignsTheRunningCodes := by
  intro s hn hnodup hfits
  have hlen : s.canonInput.length = s.canonN.toNat := by simp [State.canonInput]
  have hpass : PassBefore s.canonInput s.canonInput.length := ⟨by rwa [List.take_length], fun j hj => hfits j (hlen ▸ hj)⟩
  obtain ⟨r, hexec, hgave⟩ := exec_canon_good hn hpass
  refine ⟨_, hexec, rfl, rfl, ?_, fun i e he => ?_, hgave.others⟩
  · rw [finish_codeCount, BitVec.toNat_setWidth]
    exact Nat.mod_eq_of_lt (by omega)
  · obtain ⟨hi, -⟩ := List.getElem?_eq_some_iff.mp he
    obtain ⟨-, -, hlt⟩ := hfits i (hlen ▸ hi)
    refine ⟨_, hgave.given i e he, ?_, ?_⟩
    · rw [length_bitsOf, entryLen_of_getElem? he]
    · rw [codeValue_bitsOf]
      exact Nat.mod_eq_of_lt hlt

end Sys2Proof.Machine
end

section
/-! SUPPORT. What SERIALIZE, ENCODE and DECODE leave in the memories, ENCODE against its five steps, and the obligations of
44_encode_decode.md and about COLLISION. -/

namespace Sys2Proof.Machine

/-! ## SERIALIZE (R190) -/

section
variable {s : State} (hlen : s.srcLen.toNat ≤ s.params.srcBytes)
include hlen

/-- SERIALIZE of bytes that all have codes that fit. -/
theorem serializeBody_emits (hcodes : ∀ b ∈ s.source, (SymTable.get s.code b).isSome = true)
    (hfits : (emittedBits s.code s.source).length ≤ s.params.bitbufBits) :
    serializeBody s = .finished .ok
      (s.withBits (emittedBits s.code s.source) (BitVec.ofNat 32 (emittedBits s.code s.source).length) 0#32) := by
  rw [serializeBody, if_neg (Nat.not_lt.mpr hlen), emit_ok hcodes (by rwa [Nat.zero_add]), Nat.zero_add]
  rfl

/-- SERIALIZE of bytes of which the first bad one is `b`. -/
theorem serializeBody_stops {pre rest : List Byte} {b : Byte} (hsource : s.source = pre ++ b :: rest)
    (hcodes : ∀ x ∈ pre, (SymTable.get s.code x).isSome = true)
    (hfits : (emittedBits s.code pre).length ≤ s.params.bitbufBits)
    (hbad : SymTable.get s.code b = none ∨ ∃ c, SymTable.get s.code b = some c ∧
      s.params.bitbufBits < (emittedBits s.code pre).length + c.length) :
    serializeBody s = .raised (if (SymTable.get s.code b).isSome then .bitbufOvf else .encNoCode) (BitVec.ofNat 32 pre.length)
      (s.withBits (emittedBits s.code pre) 0#32 s.bitCursor) := by
  rw [serializeBody, if_neg (Nat.not_lt.mpr hlen), hsource,
    emit_error hcodes (by rwa [Nat.zero_add]) (by rwa [Nat.zero_add]), Nat.zero_add]
  rfl

end

/-- The bit buffer after a write from bit 0: the bits, and above them what stood there. -/
theorem cellRead_cellsWrite_zero {α : Type} (m : List (Nat × α)) (vs : List α) :
    (∀ p, p < vs.length → cellRead (cellsWrite m 0 vs) p = vs[p]?) ∧
    ∀ p, vs.length ≤ p → cellRead (cellsWrite m 0 vs) p = cellRead m p :=
  ⟨fun p hp => by simpa using cellRead_cellsWrite_inside m 0 vs hp,
    fun p hp => cellRead_cellsWrite_outside m 0 vs (.inr ((Nat.zero_add _).trans_le hp))⟩

/-- Settles O44: the bits are written from bit 0, and their number fits BIT_LEN. -/
theorem serializeEmitsTheCodesInOrder : Obligations.SerializeEmitsTheCodesInOrder := by
  intro s hw hlen hcodes hfits
  obtain ⟨hwritten, hkept⟩ := cellRead_cellsWrite_zero s.mem.bitbuf (emittedBits s.code s.source)
  exact ⟨_, exec_of_finished (i := .serialize) (serializeBody_emits hlen hcodes hfits), rfl, rfl, rfl,
    toNat_ofNat_of_le_bitbufBits hw hfits, hwritten, hkept, fun _ => ⟨rfl, rfl, rfl⟩⟩

/-- Settles O45: the source splits at the bad byte, and the bits of the bytes before it are written from bit 0. -/
theorem serializeFaultsAtTheFirstBadByte : Obligations.SerializeFaultsAtTheFirstBadByte := by
  intro s i b _ hlen hb hcodes hfits hbad
  obtain ⟨hi, rfl⟩ := List.getElem?_eq_some_iff.mp hb
  have hsource : s.source = s.source.take i ++ s.source[i] :: s.source.drop (i + 1) := by
    rw [← List.drop_eq_getElem_cons hi, List.take_append_drop]
  have hbody := serializeBody_stops hlen hsource hcodes hfits hbad
  rw [List.length_take_of_le hi.le] at hbody
  obtain ⟨hwritten, hkept⟩ := cellRead_cellsWrite_zero s.mem.bitbuf (emittedBits s.code (s.source.take i))
  refine ⟨_, exec_eq .serialize s, ?_⟩
  rw [bodyOf, hbody]
  exact ⟨rfl, rfl, rfl, rfl, hwritten, hkept⟩

/-! ## ENCODE (R192) -/

/-- Codes of at most 255 bits fill at most 255 bits a byte. -/
theorem CodesOk.length_emittedBits_le {s : State} (h : CodesOk s) (bs : List Byte) :
    (emittedBits s.code bs).length ≤ 255 * bs.length := by
  rw [length_emittedBits]
  refine sum_map_le bs _ 255 fun b _ => ?_
  cases hb : SymTable.get s.code b with
  | none => exact Nat.zero_le _
  | some c => exact h.short b c hb

/-- What ENCODE of an input within capacity leaves when it is complete: the bits of all codes with OK, or those of the bytes before
the first whose code does not fit (R192). -/
theorem exec_encode_cases {s : State} (hw : s.params.wf = true) (hlen : s.srcLen.toNat ≤ s.params.srcBytes) :
    ∃ a b c d, EncodeRun s a b c d ∧
      (((emittedBits d.code s.source).length ≤ s.params.bitbufBits ∧ exec .encode s = .next (finish .ok
        (d.withBits (emittedBits d.code s.source) (BitVec.ofNat 32 (emittedBits d.code s.source).length) 0#32))) ∨
      (s.params.bitbufBits < (emittedBits d.code s.source).length ∧ ∃ pre rest info, s.source = pre ++ rest ∧
        exec .encode s = .next (raise .bitbufOvf info (d.withBits (emittedBits d.code pre) 0#32 s.bitCursor)))) := by
  obtain ⟨a, b, c, d, hrun, hcases⟩ := encode_cases hw hlen
  have hcode : c.code = d.code := by rw [hrun.frame]
  have hmem : s.mem = d.mem := by rw [hrun.frame]
  have hcursor : s.bitCursor = d.bitCursor := by rw [hrun.frame]
  rw [hcode, hmem] at hcases
  refine ⟨a, b, c, d, hrun, ?_⟩
  rcases hcases with ⟨hfits, hbody⟩ | ⟨hover, pre, rest, hsource, hbody⟩
  · exact .inl ⟨hfits, exec_of_finished (i := .encode) hbody⟩
  · refine .inr ⟨hover, pre, rest, BitVec.ofNat 32 pre.length, hsource, (exec_eq .encode s).trans ?_⟩
    rw [bodyOf, hbody, hcursor]
    rfl

/-- Settles O47: the table, the tree and the counts are those of the four bodies before SERIALIZE, whose two outcomes differ in
whether the codes fit. -/
theorem encodeGivesTableTreeAndBits : Obligations.EncodeGivesTableTreeAndBits := by
  intro s hw hlen
  obtain ⟨a, b, c, d, hrun, hcases⟩ := exec_encode_cases hw hlen
  have hcode : d.code = c.code := by rw [hrun.frame]
  have hfreq : d.freq = frequencies s.source := by rw [hrun.frame]; exact hrun.counted.freq
  have herr : d.errInfo = s.errInfo := by rw [hrun.frame]
  have hmem : d.mem = s.mem := by rw [hrun.frame]
  have hcount (x : Byte) : (SymTable.get d.freq x).toNat = s.source.count x :=
    hfreq ▸ get_frequencies _ ((length_source s).trans_lt s.srcLen.isLt) x
  have hroom : 255 * s.srcLen.toNat ≤ s.params.bitbufBits → (emittedBits d.code s.source).length ≤ s.params.bitbufBits := by
    intro h
    rw [← length_source] at h
    exact hcode ▸ (hrun.codesOk.length_emittedBits_le s.source).trans h
  have hsome : ∀ x, (SymTable.get d.code x).isSome = true ↔ x ∈ s.source := hcode ▸ hrun.code
  have hfree : PrefixFree d.code := hcode ▸ hrun.codesOk.prefixFree
  have hspells : ∀ x w, follow d.dt d.dtRoot w = .leaf x ↔ SymTable.get d.code x = some w := hcode ▸ hrun.spells
  rcases hcases with ⟨hfits, hexec⟩ | ⟨hover, pre, rest, info, hsource, hexec⟩
  · obtain ⟨hwritten, hkept⟩ := cellRead_cellsWrite_zero d.mem.bitbuf (emittedBits d.code s.source)
    exact ⟨_, hexec, .inl rfl, ⟨fun _ => hfits, fun _ => rfl⟩, fun _ => rfl, hcount, hsome, hfree, hspells,
      fun _ => ⟨herr, rfl, toNat_ofNat_of_le_bitbufBits hw hfits, hwritten⟩, nofun, hmem ▸ hkept⟩
  · obtain ⟨-, hkept⟩ := cellRead_cellsWrite_zero d.mem.bitbuf (emittedBits d.code pre)
    have hshorter : (emittedBits d.code pre).length ≤ (emittedBits d.code s.source).length := by
      rw [hsource, emittedBits_append, List.length_append]
      exact Nat.le_add_right _ _
    exact ⟨_, hexec, .inr rfl, ⟨nofun, fun h => absurd h (Nat.not_le.mpr hover)⟩,
      fun h => absurd (hroom h) (Nat.not_le.mpr hover), hcount, hsome, hfree, hspells, nofun, fun _ => ⟨rfl, rfl⟩,
      fun p hp => hmem ▸ hkept p (hshorter.trans hp)⟩

/-! ## ENCODE against its five steps (R192, R224 item 6) -/

/-- `s` with the completion of some commands laid over it: STATUS, the phase IDLE, and a later tick. -/
def State.afterOk (s : State) (tick : Nat) : State := { s with result := .ok, done := true, engine := .idle, tick := tick }

/-- How a body ends, with its last state changed. -/
def Ended.map (f : State → State) : Ended → Ended
  | .finished code s => .finished code (f s)
  | .raised code info s => .raised code info (f s)

theorem buildBody_afterOk (s : State) (k : Nat) : buildBody (s.afterOk k) = (buildBody s).map (·.afterOk k) := by
  have hbuilt : builtTree (s.afterOk k).freq (s.afterOk k).listed = builtTree s.freq s.listed := rfl
  rw [buildBody, buildBody, hbuilt]
  split <;> rfl

theorem deriveBody_afterOk {s : State} (h : s.sampledCtrl = s.ctrl) (k : Nat) :
    deriveBody (s.afterOk k) = (deriveBody s).map (·.afterOk k) := by
  have hentries : derivedEntries (s.afterOk k) = derivedEntries s := by
    rw [derivedEntries, derivedEntries, h]
    rfl
  rw [deriveBody, deriveBody, hentries]
  rfl

theorem materializeBody_afterOk (s : State) (k : Nat) :
    materializeBody (s.afterOk k) = (materializeBody s).map (·.afterOk k) := by
  have htree : shadowTree (s.afterOk k).code = shadowTree s.code := rfl
  rw [materializeBody, materializeBody, htree]
  split <;> rfl

/-- A source that the host has written reads the same at every tick (R55, U2). -/
theorem source_afterOk {s : State} (h : ∀ i, i < s.srcLen.toNat → (cellRead s.mem.src i).isSome = true) (k : Nat) :
    (s.afterOk k).source = s.source := by
  refine List.map_congr_left fun i hi => ?_
  obtain ⟨v, hv⟩ := Option.isSome_iff_exists.mp (h i (List.mem_range.mp hi))
  have hv' : cellRead (s.afterOk k).mem.src i = some v := hv
  rw [State.srcByte, State.srcByte, hv, hv']
  rfl

theorem serializeBody_afterOk {s : State} (h : ∀ i, i < s.srcLen.toNat → (cellRead s.mem.src i).isSome = true) (k : Nat) :
    serializeBody (s.afterOk k) = (serializeBody s).map (·.afterOk k) := by
  have hsame := source_afterOk h k
  rcases serializeBody_cases s with ⟨hover, hbody⟩ | ⟨hlen, hcodes, hfits, -⟩ |
    ⟨hlen, pre, b, rest, hsource, hcodes, hfits, hbad, -⟩
  · rw [hbody]
    exact if_pos hover
  · have hbody := serializeBody_emits (s := s.afterOk k) hlen (by rwa [hsame]) (by rwa [hsame])
    rw [hbody, serializeBody_emits hlen hcodes hfits, hsame]
    rfl
  · rw [serializeBody_stops (s := s.afterOk k) hlen (hsame.trans hsource) hcodes hfits hbad,
      serializeBody_stops hlen hsource hcodes hfits hbad]
    rfl

/-- A command after others that ended with OK leaves what its body leaves on the state before their completions. -/
theorem exec_afterOk {i : Instr} {s t u : State} {k : Nat} (hmap : bodyOf i (s.afterOk k) = (bodyOf i s).map (·.afterOk k))
    (hbody : bodyOf i s = .finished .ok t) (hexec : exec i (s.afterOk k) = .next u) : u = t.afterOk (k + 1) := by
  rw [exec_next hexec, hmap, hbody]
  rfl

/-- The completion step overwrites what earlier completions left, but for the tick. -/
theorem complete_map_afterOk (e : Ended) (k : Nat) :
    e.complete = { (e.map (·.afterOk k)).complete with tick := e.complete.tick } := by
  cases e <;> rfl

/-- Settles O48: the completions between the steps touch only STATUS, the phase and the tick, on which no body depends once the
input is written. -/
theorem encodeIsItsFiveStepsInTurn : Obligations.EncodeIsItsFiveStepsInTurn := by
  intro s a b c d e hlen hctrl hwritten hcount hbuild hderive hmaterialize hserialize
  obtain ⟨a', b', c', d', ha, hb, hc, hd, hencode, -, -, -, -, hfa, hfb, hfc, hfd⟩ := encodeBody_stages hlen
  obtain rfl : a = a'.afterOk (s.tick + 1) := by
    rw [exec_next hcount, bodyOf, ha, hfa]
    rfl
  obtain rfl := exec_afterOk (i := .build) (buildBody_afterOk a' _) hb hbuild
  have hsampled : b'.sampledCtrl = b'.ctrl := by
    rw [hfb, hfa]
    exact hctrl
  obtain rfl := exec_afterOk (i := .derive) (deriveBody_afterOk hsampled _) hc hderive
  obtain rfl := exec_afterOk (i := .materialize) (materializeBody_afterOk c' _) hd hmaterialize
  obtain ⟨hmem, hsrcLen, hticks⟩ : d'.mem = s.mem ∧ d'.srcLen = s.srcLen ∧ d'.tick = s.tick := by
    rw [hfd, hfc, hfb, hfa]
    exact ⟨rfl, rfl, rfl⟩
  have hbody := serializeBody_afterOk (s := d') (by rwa [hmem, hsrcLen]) (s.tick + 1 + 1 + 1 + 1)
  have hframe : (serializeBody d').complete = _ := bodyOf_writesOnly .serialize d'
  have htick : (serializeBody d').complete.tick = s.tick + 1 := (congrArg State.tick hframe).trans (congrArg (· + 1) hticks)
  rw [exec_eq, bodyOf, hencode, exec_next hserialize, bodyOf, hbody, ← htick]
  exact congrArg _ (complete_map_afterOk (serializeBody d') _)

/-! ## DECODE (R193 to R195) -/

/-- DST_LEN holds every number of bytes that fits DST (R6). -/
theorem toNat_ofNat_of_le_dstBytes {p : Params} (hw : p.wf = true) {n : Nat} (hn : n ≤ p.dstBytes) :
    (BitVec.ofNat 32 n).toNat = n := by
  obtain ⟨-, hcap, -⟩ := capacities_le hw
  rw [BitVec.toNat_ofNat]
  exact Nat.mod_eq_of_lt (by omega)

/-- The codes that a stream begins with are no longer than BIT_LEN says, so DEC_BITPOS holds their length. -/
theorem toNat_ofNat_of_stream {s : State} {codes rest : Code} (h : s.stream = codes ++ rest) :
    (BitVec.ofNat 32 codes.length).toNat = codes.length := by
  have hlen : codes.length + rest.length = s.bitLen.toNat := by rw [← length_stream, h, List.length_append]
  have hlt := s.bitLen.isLt
  rw [BitVec.toNat_ofNat]
  exact Nat.mod_eq_of_lt (by omega)

/-- Settles O49: the traversal emits the words' symbols to DST from index 0, and the tail only moves the node. -/
theorem decodeEmitsTheSpelledSymbols : Obligations.DecodeEmitsTheSpelledSymbols := by
  intro s n words tail hw hlen hroot hstream hwords ⟨j, htail⟩ hfits
  have hbody := decodeBody_words hlen hroot hstream hwords htail hfits
  obtain ⟨hwritten, hkept⟩ := cellRead_cellsWrite_zero s.mem.dst (words.map Prod.snd)
  rw [List.length_map] at hwritten hkept
  exact ⟨_, exec_of_finished (i := .decode) hbody, rfl, rfl, toNat_ofNat_of_le_dstBytes hw hfits,
    toNat_ofNat_of_stream hstream, hwritten, hkept, fun _ => ⟨rfl, rfl, rfl⟩⟩

/-- DECODE of codes and then bits inside the tree stops at a bit that leads to no code, or to a symbol that DST has no room for;
it leaves the codes' symbols (R193, R222). -/
theorem decodeBody_stops {s : State} {n j : Nat} {words : List (Code × Byte)} {part rest : Code} {b : Bool}
    (hlen : s.bitLen.toNat ≤ s.params.bitbufBits) (hroot : s.dtRoot = .branch n)
    (hstream : s.stream = words.flatMap Prod.fst ++ part ++ b :: rest)
    (hwords : ∀ w ∈ words, follow s.dt (.branch 0) w.1 = .leaf w.2) (hpart : follow s.dt (.branch 0) part = .branch j)
    (hfits : words.length ≤ s.params.dstBytes)
    (hbad : (branchAt s.dt j).child b = .absent ∨
      (words.length = s.params.dstBytes ∧ ∃ x, (branchAt s.dt j).child b = .leaf x)) :
    decodeBody s = .raised (if (branchAt s.dt j).child b = .absent then .decInvalid else .dstOvf)
      (BitVec.ofNat 32 (words.flatMap Prod.fst ++ part).length) (s.withTraversal
        { node := j, out := words.length, last := (words.flatMap Prod.fst).length
          dst := cellsWrite s.mem.dst 0 (words.map Prod.snd) }) := by
  have hreached : traverse s.dt s.params.dstBytes s.stream 0 { node := 0, out := 0, last := 0, dst := s.mem.dst } =
      traverse s.dt s.params.dstBytes (b :: rest) (words.flatMap Prod.fst ++ part).length
        { node := j, out := words.length, last := (words.flatMap Prod.fst).length
          dst := cellsWrite s.mem.dst 0 (words.map Prod.snd) } := by
    rw [hstream, List.append_assoc, traverse_words words _ 0 _ rfl rfl hwords (by simpa using hfits),
      traverse_inside part _ _ _ j hpart]
    simp only [Nat.zero_add, List.length_append]
  rw [decodeBody_branch hlen hroot, hreached, traverse_cons]
  rcases hbad with habsent | ⟨hfull, x, hleaf⟩
  · rw [if_pos habsent]
    simp only [habsent]
  · rw [if_neg (by rw [hleaf]; nofun)]
    simp only [hleaf, if_pos hfull]

/-- Settles O50: the traversal emits the words' symbols to DST from index 0 before it stops. -/
theorem decodeFaultsAtTheFirstBadBit : Obligations.DecodeFaultsAtTheFirstBadBit := by
  intro s n j words part rest b hw hlen hroot hstream hwords hpart hfits hbad
  have hbody := decodeBody_stops hlen hroot hstream hwords hpart hfits hbad
  obtain ⟨hwritten, hkept⟩ := cellRead_cellsWrite_zero s.mem.dst (words.map Prod.snd)
  rw [List.length_map] at hwritten hkept
  rw [List.append_assoc] at hstream
  refine ⟨_, exec_eq .decode s, ?_⟩
  rw [bodyOf, hbody]
  exact ⟨rfl, rfl, toNat_ofNat_of_le_dstBytes hw hfits, toNat_ofNat_of_stream hstream, hwritten, hkept⟩

/-! ## COLLISION and ENC_NO_CODE (R154, R192) -/

/-- Settles O60: a good state's table is prefix-free, and ENCODE gives every byte of its input a code. -/
theorem collisionNeverOccurs : Obligations.CollisionNeverOccurs := by
  intro i s t hgood hexec
  refine ⟨fun hcollision => ?_, ?_⟩
  · rw [exec_next hexec] at hcollision
    exact (not_prefixFree_of_complete_collision hcollision).2 hgood.codes.prefixFree
  · rintro rfl hnoCode
    by_cases hlen : s.srcLen.toNat ≤ s.params.srcBytes
    · obtain ⟨u, hu, hres, -⟩ := encodeGivesTableTreeAndBits s hgood.params hlen
      cases hexec.symm.trans hu
      rcases hres with hres | hres <;> cases hnoCode.symm.trans hres
    · rw [exec_next hexec, bodyOf, encodeBody_lenRange (Nat.lt_of_not_le hlen)] at hnoCode
      cases hnoCode

end Sys2Proof.Machine
end
